-- ==== Sys2Proof/Word.lean ====
section
/-! DEFINITION. The bytes and words of the block (00_scope.md rule R8: every register value and every byte is unsigned). -/

namespace Sys2Proof

/-- A byte of FB or AB. -/
abbrev Byte := BitVec 8

/-- A 32-bit register value or command word (10_state.md rule R23). -/
abbrev Word := BitVec 32

/-- A bit sequence in the order of 00_scope.md rule R9: element 0 comes first on the line. -/
abbrev Bits := List Bool

end Sys2Proof
end

