-- ==== Sys2Proof/Syntax.lean ====
section
/-! DEFINITION. The 19 commands of the opcode map (30_encoding.md rule R84), with the fields their formats give them
(rule R81, rule R82). A field is a bit vector of its width in the command word. -/

namespace Sys2Proof

/-- One command of the block: one constructor for each row of spec/opcode_table.json. -/
inductive Instr where
  /-- CRC_COMPUTE, rule R113 -/
  | crcCompute
  /-- CRC_CHECK, rule R114 -/
  | crcCheck
  /-- FCS_APPEND, rule R115 -/
  | fcsAppend
  /-- STUFF, rule R137 -/
  | stuff
  /-- UNSTUFF, rule R138 -/
  | unstuff
  /-- NRZI_ENC S, rule R139 -/
  | nrziEnc (start : Bool)
  /-- NRZI_DEC S, rule R140 -/
  | nrziDec (start : Bool)
  /-- FB_CLEAR, rule R163 -/
  | fbClear
  /-- INS_DEST AOFF, CLEN, SSID, rule R164 -/
  | insDest (aoff : BitVec 16) (clen : BitVec 3) (ssid : BitVec 4)
  /-- INS_SRC AOFF, CLEN, SSID, rule R165 -/
  | insSrc (aoff : BitVec 16) (clen : BitVec 3) (ssid : BitVec 4)
  /-- INS_PATHS AOFF, K, rule R168 -/
  | insPaths (aoff : BitVec 16) (k : BitVec 4)
  /-- INS_INFO AOFF, rule R169 -/
  | insInfo (aoff : BitVec 16)
  /-- FLAG_APPEND, rule R170 -/
  | flagAppend
  /-- PARSE_OFFSETS, rule R201 -/
  | parseOffsets
  /-- VALIDATE, rule R203 -/
  | validate
  /-- GET_SOURCE AOFF, rule R206 -/
  | getSource (aoff : BitVec 16)
  /-- SYNC_CTL EN, rule R234 -/
  | syncCtl (enable : Bool)
  /-- SYNC_STRIP, rule R235 -/
  | syncStrip
  /-- SYNC_PREAMBLE, rule R236 -/
  | syncPreamble
  deriving DecidableEq, Repr

end Sys2Proof
end

