-- ==== Sys2Proof/WellFormed.lean ====
section
/-! DEFINITION. Which field values make a legal command (30_encoding.md rule R85 (c) and (d)). The reserved bits of rule
R85 (b) have no place in `Instr`: the decoder refuses them. -/

namespace Sys2Proof

/-- Rule R85 (c): CLEN = 7 is illegal in format F3. -/
def clenLegal (clen : BitVec 3) : Bool := clen != 7#3

/-- Rule R85 (d): K >= 9 is illegal in format F4. -/
def kLegal (k : BitVec 4) : Bool := k.ult 9#4

/-- The command has an encoding: every field has a legal value (rule R85). -/
def Instr.wf : Instr → Bool
  | .crcCompute => true
  | .crcCheck => true
  | .fcsAppend => true
  | .stuff => true
  | .unstuff => true
  | .nrziEnc _ => true
  | .nrziDec _ => true
  | .fbClear => true
  | .insDest _ clen _ => clenLegal clen
  | .insSrc _ clen _ => clenLegal clen
  | .insPaths _ k => kLegal k
  | .insInfo _ => true
  | .flagAppend => true
  | .parseOffsets => true
  | .validate => true
  | .getSource _ => true
  | .syncCtl _ => true
  | .syncStrip => true
  | .syncPreamble => true

end Sys2Proof
end

