-- ==== Sys2Proof/Decode.lean ====
section
/-! DEFINITION. The decoder of 30_encoding.md rule R90, total on every 32-bit word, and the encoder (rule R82, rule R88).
A command word is never laid out as bytes: it is written whole to CMD (20_memory.md rule R63 (b), rule R64). -/

namespace Sys2Proof

/-- Why a word is illegal: the four cases of rule R85. -/
inductive DecodeError where
  /-- (a) OP is unassigned -/
  | unassignedOpcode
  /-- (b) a bit that the format marks 0 is 1 -/
  | reservedBitSet
  /-- (c) format F3 with CLEN = 7 -/
  | clenSeven
  /-- (d) format F4 with K >= 9 -/
  | kAboveEight
  deriving DecidableEq, Repr

/-- OP = w[7:0] (rule R81). -/
def fieldOp (w : Word) : BitVec 8 := w.extractLsb' 0 8

/-- S = w[8] (rule R81). -/
def fieldS (w : Word) : Bool := w.getLsbD 8

/-- SSID = w[11:8] (rule R81). -/
def fieldSsid (w : Word) : BitVec 4 := w.extractLsb' 8 4

/-- K = w[11:8] (rule R81). -/
def fieldK (w : Word) : BitVec 4 := w.extractLsb' 8 4

/-- CLEN = w[14:12] (rule R81). -/
def fieldClen (w : Word) : BitVec 3 := w.extractLsb' 12 3

/-- AOFF = w[31:16] (rule R81). -/
def fieldAoff (w : Word) : BitVec 16 := w.extractLsb' 16 16

/-- The reserved bits of format F0 (rule R82): w[31:8]. -/
def reservedF0 : Word := 0xFFFFFF00#32

/-- The reserved bits of format F1 (rule R82): w[31:9]. -/
def reservedF1 : Word := 0xFFFFFE00#32

/-- The reserved bits of format F2 (rule R82): w[15:8]. -/
def reservedF2 : Word := 0x0000FF00#32

/-- The reserved bits of format F3 (rule R82): w[15]. -/
def reservedF3 : Word := 0x00008000#32

/-- The reserved bits of format F4 (rule R82): w[15:12]. -/
def reservedF4 : Word := 0x0000F000#32

/-- Accept `i` when the word has none of its format's reserved bits (rule R85 (b)). -/
def decodePlain (reserved : Word) (i : Instr) (w : Word) : Except DecodeError Instr :=
  if w &&& reserved = 0#32 then .ok i else .error .reservedBitSet

/-- Format F3 (rule R90): w[15] = 0 and CLEN at most 6. -/
def decodeAddr (mk : BitVec 16 → BitVec 3 → BitVec 4 → Instr) (w : Word) : Except DecodeError Instr :=
  if w &&& reservedF3 = 0#32 then
    if clenLegal (fieldClen w) then .ok (mk (fieldAoff w) (fieldClen w) (fieldSsid w)) else .error .clenSeven
  else .error .reservedBitSet

/-- Format F4 (rule R90): w[15:12] = 0 and K at most 8. -/
def decodePaths (w : Word) : Except DecodeError Instr :=
  if w &&& reservedF4 = 0#32 then
    if kLegal (fieldK w) then .ok (.insPaths (fieldAoff w) (fieldK w)) else .error .kAboveEight
  else .error .reservedBitSet

/-- Decode(w) of rule R90. It reads only w (rule R87). -/
def decode (w : Word) : Except DecodeError Instr :=
  match (fieldOp w).toNat with
  | 0x10 => decodePlain reservedF0 .crcCompute w
  | 0x11 => decodePlain reservedF0 .crcCheck w
  | 0x12 => decodePlain reservedF0 .fcsAppend w
  | 0x20 => decodePlain reservedF0 .stuff w
  | 0x21 => decodePlain reservedF0 .unstuff w
  | 0x22 => decodePlain reservedF1 (.nrziEnc (fieldS w)) w
  | 0x23 => decodePlain reservedF1 (.nrziDec (fieldS w)) w
  | 0x30 => decodePlain reservedF0 .fbClear w
  | 0x31 => decodeAddr .insDest w
  | 0x32 => decodeAddr .insSrc w
  | 0x33 => decodePaths w
  | 0x34 => decodePlain reservedF2 (.insInfo (fieldAoff w)) w
  | 0x35 => decodePlain reservedF0 .flagAppend w
  | 0x40 => decodePlain reservedF0 .parseOffsets w
  | 0x41 => decodePlain reservedF0 .validate w
  | 0x42 => decodePlain reservedF2 (.getSource (fieldAoff w)) w
  | 0x50 => decodePlain reservedF1 (.syncCtl (fieldS w)) w
  | 0x51 => decodePlain reservedF0 .syncStrip w
  | 0x52 => decodePlain reservedF0 .syncPreamble w
  | _ => .error .unassignedOpcode

/-- The command of the table word `w` of `nbits` bits, bit 0 least significant; the bits above are 0. Every row has 32. -/
def decodeTableWord (nbits w : Nat) : Option Instr :=
  (decode (BitVec.ofNat 32 (w % 2 ^ nbits))).toOption

/-- Format F0 of rule R88: w = OP. -/
def wordF0 (op : Word) : Word := op

/-- Format F1 of rule R88: w = OP | (s << 8). -/
def wordF1 (op : Word) (s : Bool) : Word := op ||| ((BitVec.ofBool s).setWidth 32 <<< 8)

/-- Format F2 of rule R88: w = OP | (a << 16). -/
def wordF2 (op : Word) (a : BitVec 16) : Word := op ||| (a.setWidth 32 <<< 16)

/-- Format F3 of rule R88: w = OP | (s << 8) | (n << 12) | (a << 16). -/
def wordF3 (op : Word) (a : BitVec 16) (n : BitVec 3) (s : BitVec 4) : Word :=
  op ||| (s.setWidth 32 <<< 8) ||| (n.setWidth 32 <<< 12) ||| (a.setWidth 32 <<< 16)

/-- Format F4 of rule R88: w = OP | (k << 8) | (a << 16). -/
def wordF4 (op : Word) (a : BitVec 16) (k : BitVec 4) : Word :=
  op ||| (k.setWidth 32 <<< 8) ||| (a.setWidth 32 <<< 16)

/-- The command word of a command (rule R84, rule R88); every reserved bit is 0. -/
def encode : Instr → Word
  | .crcCompute => wordF0 0x10#32
  | .crcCheck => wordF0 0x11#32
  | .fcsAppend => wordF0 0x12#32
  | .stuff => wordF0 0x20#32
  | .unstuff => wordF0 0x21#32
  | .nrziEnc s => wordF1 0x22#32 s
  | .nrziDec s => wordF1 0x23#32 s
  | .fbClear => wordF0 0x30#32
  | .insDest a n s => wordF3 0x31#32 a n s
  | .insSrc a n s => wordF3 0x32#32 a n s
  | .insPaths a k => wordF4 0x33#32 a k
  | .insInfo a => wordF2 0x34#32 a
  | .flagAppend => wordF0 0x35#32
  | .parseOffsets => wordF0 0x40#32
  | .validate => wordF0 0x41#32
  | .getSource a => wordF2 0x42#32 a
  | .syncCtl s => wordF1 0x50#32 s
  | .syncStrip => wordF0 0x51#32
  | .syncPreamble => wordF0 0x52#32

/-- The mnemonic of a command's row in spec/opcode_table.json. -/
def Instr.mnemonic : Instr → String
  | .crcCompute => "CRC_COMPUTE"
  | .crcCheck => "CRC_CHECK"
  | .fcsAppend => "FCS_APPEND"
  | .stuff => "STUFF"
  | .unstuff => "UNSTUFF"
  | .nrziEnc _ => "NRZI_ENC"
  | .nrziDec _ => "NRZI_DEC"
  | .fbClear => "FB_CLEAR"
  | .insDest _ _ _ => "INS_DEST"
  | .insSrc _ _ _ => "INS_SRC"
  | .insPaths _ _ => "INS_PATHS"
  | .insInfo _ => "INS_INFO"
  | .flagAppend => "FLAG_APPEND"
  | .parseOffsets => "PARSE_OFFSETS"
  | .validate => "VALIDATE"
  | .getSource _ => "GET_SOURCE"
  | .syncCtl _ => "SYNC_CTL"
  | .syncStrip => "SYNC_STRIP"
  | .syncPreamble => "SYNC_PREAMBLE"

/-- One row of spec/opcode_table.json: its mnemonic, match and mask, and its "illegal_if" as a test. -/
structure OpcodeRow where
  mnemonic : String
  value : Word
  mask : Word
  illegalIf : Word → Bool

/-- The table's "illegal_if": "CLEN = 7". -/
def illegalClen (w : Word) : Bool := (w >>> 12) &&& 7#32 == 7#32

/-- The table's "illegal_if": "K >= 9". -/
def illegalK (w : Word) : Bool := (9#32).ule ((w >>> 8) &&& 15#32)

/-- spec/opcode_table.json, row by row: the second account of the encoding that `decode` is held against. -/
def opcodeTable : List OpcodeRow := [
  ⟨"CRC_COMPUTE", 0x00000010#32, 0xFFFFFFFF#32, fun _ => false⟩,
  ⟨"CRC_CHECK", 0x00000011#32, 0xFFFFFFFF#32, fun _ => false⟩,
  ⟨"FCS_APPEND", 0x00000012#32, 0xFFFFFFFF#32, fun _ => false⟩,
  ⟨"STUFF", 0x00000020#32, 0xFFFFFFFF#32, fun _ => false⟩,
  ⟨"UNSTUFF", 0x00000021#32, 0xFFFFFFFF#32, fun _ => false⟩,
  ⟨"NRZI_ENC", 0x00000022#32, 0xFFFFFEFF#32, fun _ => false⟩,
  ⟨"NRZI_DEC", 0x00000023#32, 0xFFFFFEFF#32, fun _ => false⟩,
  ⟨"FB_CLEAR", 0x00000030#32, 0xFFFFFFFF#32, fun _ => false⟩,
  ⟨"INS_DEST", 0x00000031#32, 0x000080FF#32, illegalClen⟩,
  ⟨"INS_SRC", 0x00000032#32, 0x000080FF#32, illegalClen⟩,
  ⟨"INS_PATHS", 0x00000033#32, 0x0000F0FF#32, illegalK⟩,
  ⟨"INS_INFO", 0x00000034#32, 0x0000FFFF#32, fun _ => false⟩,
  ⟨"FLAG_APPEND", 0x00000035#32, 0xFFFFFFFF#32, fun _ => false⟩,
  ⟨"PARSE_OFFSETS", 0x00000040#32, 0xFFFFFFFF#32, fun _ => false⟩,
  ⟨"VALIDATE", 0x00000041#32, 0xFFFFFFFF#32, fun _ => false⟩,
  ⟨"GET_SOURCE", 0x00000042#32, 0x0000FFFF#32, fun _ => false⟩,
  ⟨"SYNC_CTL", 0x00000050#32, 0xFFFFFEFF#32, fun _ => false⟩,
  ⟨"SYNC_STRIP", 0x00000051#32, 0xFFFFFFFF#32, fun _ => false⟩,
  ⟨"SYNC_PREAMBLE", 0x00000052#32, 0xFFFFFFFF#32, fun _ => false⟩]

/-- The row covers the word: match under mask, and not excluded by "illegal_if". -/
def OpcodeRow.covers (r : OpcodeRow) (w : Word) : Bool := w &&& r.mask == r.value && !r.illegalIf w

end Sys2Proof
end

