-- ==== Sys2Proof/Config.lean ====
section
/-! DEFINITION. What an implementation fixes (the OPEN parameters of 00_scope.md rule R6) and the free values
(the buffer bytes nothing has written, 10_state.md rule R44). The parameters' types admit exactly the values rules R6
and R7 admit, so no statement needs a premise about them. -/

namespace Sys2Proof

/-- SYNC_BITS, the width of the sync pattern: one of 8, 16, 24, 32 (rule R6, rule R7). -/
inductive SyncWidth where
  | bits8
  | bits16
  | bits24
  | bits32
  deriving DecidableEq, Repr, Inhabited

/-- The OPEN parameters of rule R6: arguments of the model, no value assumed. -/
structure Config where
  /-- FRAME_MAX - 20, so that 20 <= FRAME_MAX <= 4096 -/
  frameExtra : Fin 4077
  /-- SYNC_BITS -/
  syncWidth : SyncWidth
  /-- SYNC_PAT_RESET -/
  syncPatReset : Word
  deriving DecidableEq, Repr, Inhabited

/-- FRAME_MAX, the bytes of FB (rule R6). -/
def Config.frameMax (c : Config) : Nat := c.frameExtra.val + 20

/-- ARG_MAX = FRAME_MAX, the bytes of AB (rule R6). -/
def Config.argMax (c : Config) : Nat := c.frameMax

/-- SYNC_BYTES = SYNC_BITS / 8 (rule R7). -/
def Config.syncBytes (c : Config) : Nat :=
  match c.syncWidth with
  | .bits8 => 1
  | .bits16 => 2
  | .bits24 => 3
  | .bits32 => 4

/-- SYNC_BITS (rule R6). -/
def Config.syncBits (c : Config) : Nat := 8 * c.syncBytes

/-- The parameters of the device at hand. No body: no proof can see a value (rule R6: "the model must not assume one"). -/
opaque Config.implementation : Config

/-- FREE VALUE. What FB[i] holds until it is written, after the given number of resets (rule R44: "an unconstrained
draw"). DEDUCED, log entry 1: one draw for each byte and each reset, since reads are idempotent (20_memory.md rule R66). -/
opaque Config.freeFbByte : (resets i : Nat) → Byte

/-- FREE VALUE. What AB[i] holds until it is written; as `Config.freeFbByte`. -/
opaque Config.freeAbByte : (resets i : Nat) → Byte

end Sys2Proof
end

