-- ==== Sys2Proof/Machine/State.lean ====
section
/-! DEFINITION. The state of the block (10_state.md rule R20) as plain data, with the model's own four fields: the
configuration, the inputs still to come, the last bus response and the count of resets. -/

namespace Sys2Proof.Machine

/-- The bytes of a buffer that have been written, by rising index (canonical form: `Memory.wf`). An index without an entry
has not been written since reset and reads as a free value (rule R44; log entries 1 and 2). -/
abbrev Memory := List Host.Cell

/-- STATUS.CODE (60_exceptions.md rule R261). -/
inductive Code where
  | ok
  | notReady
  | overflow
  | badArg
  | illegal
  | invalid
  | notFound
  deriving DecidableEq, Repr

/-- STATUS.FSTATE (10_state.md rule R27). -/
inductive FState where
  | empty
  | hasDest
  | hasSrc
  | complete
  | valid
  | invalid
  | raw
  deriving DecidableEq, Repr

/-- One step of an agent outside the block (00_scope.md rule R5): a Host access (20_memory.md rule R64), a Line bit
(44_sync.md rule R231), or the reset input `rst` (70_reset_and_hazards.md rule R290). Offsets are those of the block's
space of 0x4000 (20_memory.md rule R60). -/
inductive Input where
  /-- MemRead of `n` bytes at `off` -/
  | hostRead (off : BitVec 14) (n : Nat)
  /-- MemWrite of `n` bytes at `off`; an 8-bit write carries its byte in v[7:0] -/
  | hostWrite (off : BitVec 14) (n : Nat) (v : Word)
  /-- one received line bit -/
  | lineBit (b : Bool)
  /-- the assertion of `rst` -/
  | rst
  deriving DecidableEq, Repr

/-- The machine. -/
structure State where
  /-- CMD: the last word written (rule R24) -/
  cmd : Word
  /-- ARG0 (rule R25) -/
  arg0 : Word
  /-- ARG1 (rule R25) -/
  arg1 : Word
  /-- STATUS.CODE (rule R26) -/
  code : Code
  /-- STATUS.FSTATE (rule R27) -/
  fstate : FState
  /-- STATUS.READABLE (rule R28) -/
  readable : Bool
  /-- STATUS.OFFV (rule R29) -/
  offv : Bool
  /-- STATUS.FCSV (rule R29) -/
  fcsv : Bool
  /-- STATUS.NRZST (rule R30) -/
  nrzst : Bool
  /-- STATUS.SYNC_EN (rule R31) -/
  syncEn : Bool
  /-- STATUS.SYNC_DET (rule R31) -/
  syncDet : Bool
  /-- RES (rule R32) -/
  res : Word
  /-- LEN (rule R33) -/
  len : BitVec 16
  /-- BITLEN (rule R34) -/
  bitlen : BitVec 20
  /-- CTRL_OFF (rule R37) -/
  ctrlOff : BitVec 16
  /-- INFO_OFF (rule R37) -/
  infoOff : BitVec 16
  /-- FCS_OFF (rule R37) -/
  fcsOff : BitVec 16
  /-- NPATHS (rule R38) -/
  npaths : BitVec 4
  /-- SYNC_PAT (rule R39) -/
  syncPat : Word
  /-- SYNC_SR: SYNC_BITS wide, held in the low bits (rule R42) -/
  syncSr : Word
  /-- SYNC_CNT: 0 to SYNC_BITS (rule R42) -/
  syncCnt : Nat
  /-- FB (rule R40), by index -/
  fb : Memory
  /-- AB (rule R41), by index -/
  ab : Memory
  /-- MODEL's own: the parameters of 00_scope.md rule R6; no step changes them (log entry 3) -/
  cfg : Config
  /-- MODEL's own: the agents' steps still to come, in the total order of 20_memory.md rule R68 (log entry 4) -/
  inputs : List Input
  /-- MODEL's own: what the block answered to the last Host read, none before the first (log entry 5) -/
  hostData : Option Word
  /-- MODEL's own: assertions of `rst` since power-on; it selects the free values of FB and AB (log entry 1) -/
  resets : Nat
  deriving DecidableEq, Repr

/-- Why the machine stops. -/
inductive Fault where
  /-- Raised by a Host access whose width or alignment 20_memory.md rule R64 refuses: "the model gives it no step, so the
  Host agent is stuck". No command raises it. Safe: the model promises nothing after it (log entry 6). -/
  | hostStuck
  deriving DecidableEq, Repr

/-- Why an instruction has no meaning. -/
inductive Refusal where
  /-- Raised only by an arm of `exec` for an instruction without a meaning; no arm does. Safe. -/
  | notModelled (mnemonic : String)
  deriving DecidableEq, Repr

/-- How one step ends. -/
abbrev Outcome := Host.Outcome State Fault Refusal

/-- The block after an assertion of `rst` (70_reset_and_hazards.md rule R290), with the parameters of the device, the
count of resets and the inputs still to come. -/
def State.afterReset (cfg : Config) (resets : Nat) (inputs : List Input) : State where
  cmd := 0#32
  arg0 := 0#32
  arg1 := 0#32
  code := .ok
  fstate := .empty
  readable := false
  offv := false
  fcsv := false
  nrzst := false
  syncEn := false
  syncDet := false
  res := 0#32
  len := 0#16
  bitlen := 0#20
  ctrlOff := 0#16
  infoOff := 0#16
  fcsOff := 0#16
  npaths := 0#4
  syncPat := cfg.syncPatReset
  syncSr := 0#32
  syncCnt := 0
  fb := []
  ab := []
  cfg := cfg
  inputs := inputs
  hostData := none
  resets := resets

/-- The machine right after power-on reset, for whatever parameters the device has. -/
def State.reset : State := State.afterReset Config.implementation 0 []

end Sys2Proof.Machine
end

