-- ==== Sys2Proof/Machine/Flags.lean ====
section
/-! DEFINITION. The STATUS register: its fields as numbers, the word a read returns, and the shared ways of writing its
frame-state fields (10_state.md rules R26 to R31 and R35). -/

namespace Sys2Proof.Machine

/-- The number of a result code (60_exceptions.md rule R261). -/
def Code.number : Code → Nat
  | .ok => 0
  | .notReady => 1
  | .overflow => 2
  | .badArg => 3
  | .illegal => 4
  | .invalid => 5
  | .notFound => 6

/-- The number of a frame state (rule R27). -/
def FState.number : FState → Nat
  | .empty => 0
  | .hasDest => 1
  | .hasSrc => 2
  | .complete => 3
  | .valid => 4
  | .invalid => 5
  | .raw => 6

/-- The frame states in which READABLE is 1 (rule R28). -/
def FState.isReadable : FState → Bool
  | .complete => true
  | .valid => true
  | .empty => false
  | .hasDest => false
  | .hasSrc => false
  | .invalid => false
  | .raw => false

/-- The value of STATUS (rule R26): CODE [3:0], FSTATE [6:4], then one bit each; bits [31:13] read 0. -/
def State.statusWord (s : State) : Word :=
  BitVec.ofNat 32 (s.code.number + 16 * s.fstate.number + 128 * s.readable.toNat + 256 * s.offv.toNat
    + 512 * s.fcsv.toNat + 1024 * s.nrzst.toNat + 2048 * s.syncEn.toNat + 4096 * s.syncDet.toNat)

/-- The level of the interrupt output `sync_irq` (44_sync.md rule R233, 60_exceptions.md rule R265). -/
def State.syncIrq (s : State) : Bool := s.syncDet

/-- Write FSTATE, and READABLE to match (rule R28). -/
def State.enter (s : State) (f : FState) : State := { s with fstate := f, readable := f.isReadable }

/-- MarkRaw() (rule R35): the offset registers and NPATHS keep their stale values. -/
def State.markRaw (s : State) : State := { s.enter .raw with offv := false, fcsv := false }

end Sys2Proof.Machine
end

