-- ==== Sys2Proof/Machine/Params.lean ====
section
/-! DEFINITION. The fixed parameters of 00_scope.md rule R6. -/

namespace Sys2Proof.Machine

/-- MAX_PATHS: digipeater address fields in a frame (90_conflicts.md C1). -/
abbrev maxPaths : Nat := 8

/-- CALLSIGN_SIZE: characters of a callsign. -/
abbrev callsignSize : Nat := 6

/-- ADDR_LEN: bytes of an address field. -/
abbrev addrLen : Nat := 7

/-- MIN_HEADER: index of the first byte after two address fields. -/
abbrev minHeader : Nat := 15

/-- FLAG. -/
abbrev flagByte : Byte := 0x7E#8

/-- CTRL_UI (93_implementation_defined.md U23). -/
abbrev ctrlUi : Byte := 0x03#8

/-- PID_NL3 (93_implementation_defined.md U24). -/
abbrev pidNl3 : Byte := 0xF0#8

/-- SSID_RSVD: bits 7:5 of every SSID byte the builder writes (93_implementation_defined.md U25). -/
abbrev ssidRsvd : Byte := 0x60#8

/-- CRC_POLY, the reversed CRC-16-CCITT polynomial. -/
abbrev crcPoly : BitVec 16 := 0x8408#16

/-- CRC_INIT. -/
abbrev crcInit : BitVec 16 := 0xFFFF#16

end Sys2Proof.Machine
end

