-- ==== Sys2Proof/Machine/Ops.lean ====
section
/-! DEFINITION. The shared operations: buffers as lists of written bytes, FB and AB by byte and by bit (20_memory.md rules
R61 and R62), the two length registers (10_state.md rule R36), and the two ways a command ends (00_scope.md rule R10). -/

namespace Sys2Proof.Machine

/-! ### Memories -/

/-- The byte written at `i`, none when nothing has been written there. -/
def Memory.read : Memory → Nat → Option Byte
  | [], _ => none
  | (k, v) :: m, i => if k = i then some v else Memory.read m i

/-- Write one byte, keeping the entries in rising order. -/
def Memory.write : Memory → Nat → Byte → Memory
  | [], i, b => [(i, b)]
  | (k, v) :: m, i, b =>
    if i < k then (i, b) :: (k, v) :: m
    else if i = k then (i, b) :: m
    else (k, v) :: Memory.write m i b

/-- Write bytes at consecutive indices from `i`. -/
def Memory.writeBytes : Memory → Nat → List Byte → Memory
  | m, _, [] => m
  | m, i, b :: bs => Memory.writeBytes (m.write i b) (i + 1) bs

/-- The memory in which exactly the first `n` bytes are written, each with `b`. -/
def Memory.filled (n : Nat) (b : Byte) : Memory := (List.range n).map fun i => (i, b)

/-- The canonical form: indices strictly rising. (No entry can equal what an unlisted index reads as: that is "not written".) -/
def Memory.wf : Memory → Bool
  | [] => true
  | [_] => true
  | (k, _) :: (k', v') :: m => decide (k < k') && Memory.wf ((k', v') :: m)

/-- Every entry lies below `n`. -/
def Memory.below (m : Memory) (n : Nat) : Bool := m.all fun c => decide (c.1 < n)

/-! ### FB and AB by byte -/

/-- FB[i]: the byte written last, or the free value of a byte nothing has written since reset (10_state.md rule R44). -/
def State.fbByte (s : State) (i : Nat) : Byte := (s.fb.read i).getD (Config.freeFbByte s.resets i)

/-- AB[i]; as `State.fbByte`. -/
def State.abByte (s : State) (i : Nat) : Byte := (s.ab.read i).getD (Config.freeAbByte s.resets i)

/-- [FB[a], ..., FB[a+n-1]]. -/
def State.fbBytes (s : State) (a n : Nat) : List Byte := (List.range n).map fun k => s.fbByte (a + k)

/-- [AB[a], ..., AB[a+n-1]]. -/
def State.abBytes (s : State) (a n : Nat) : List Byte := (List.range n).map fun k => s.abByte (a + k)

/-- FB[a .. a+len(bs)) <- bs. -/
def State.setFb (s : State) (a : Nat) (bs : List Byte) : State := { s with fb := s.fb.writeBytes a bs }

/-- AB[a .. a+len(bs)) <- bs. -/
def State.setAb (s : State) (a : Nat) (bs : List Byte) : State := { s with ab := s.ab.writeBytes a bs }

/-! ### FB by bit -/

/-- Bit(j) of the bit view (20_memory.md rule R61): the most significant bit of each byte comes first. -/
def State.bit (s : State) (j : Nat) : Bool := (s.fbByte (j / 8)).getLsbD (7 - j % 8)

/-- [Bit(a), ..., Bit(a+n-1)]. -/
def State.bits (s : State) (a n : Nat) : Bits := (List.range n).map fun k => s.bit (a + k)

/-- Byte i of a packed bit sequence (20_memory.md rule R62): S[8i] is bit 7; bits past the end are 0. -/
def packedByte (S : Bits) (i : Nat) : Byte :=
  BitVec.ofNat 8 ((List.range 8).foldl (fun v k => 2 * v + (S.getD (8 * i + k) false).toNat) 0)

/-- The ceil(len(S)/8) bytes of a bit sequence, most significant bit first, the last one padded with 0. -/
def packBits (S : Bits) : List Byte := (List.range ((S.length + 7) / 8)).map (packedByte S)

/-- `x` with bit `k` set to `b`. -/
def putBit (x : Byte) (k : Nat) (b : Bool) : Byte :=
  (x &&& ~~~(1#8 <<< k)) ||| (if b then 1#8 <<< k else 0#8)

/-- Bit(j) <- b: every other bit of the byte is unchanged. -/
def State.setBit (s : State) (j : Nat) (b : Bool) : State :=
  s.setFb (j / 8) [putBit (s.fbByte (j / 8)) (7 - j % 8) b]

/-- Bit(a+j) <- O[j] for each j, in order (41_bitcodec.md rule R139). -/
def State.setBits : State → Nat → Bits → State
  | s, _, [] => s
  | s, a, b :: bs => (s.setBit a b).setBits (a + 1) bs

/-! ### The length registers -/

/-- A byte-level command sets LEN to v and BITLEN to 8v (10_state.md rule R36). -/
def State.setLen (s : State) (v : Nat) : State :=
  { s with len := BitVec.ofNat 16 v, bitlen := BitVec.ofNat 20 (8 * v) }

/-- A bit-level command sets BITLEN to m and LEN to ceil(m/8) (10_state.md rule R36). -/
def State.setBitlen (s : State) (m : Nat) : State :=
  { s with bitlen := BitVec.ofNat 20 m, len := BitVec.ofNat 16 ((m + 7) / 8) }

/-- WriteStream(S) (20_memory.md rule R62). -/
def State.writeStream (s : State) (S : Bits) : State := (s.setFb 0 (packBits S)).setBitlen S.length

/-! ### How a command ends -/

/-- finish(r) (00_scope.md rule R10): CODE <- OK and RES <- r. -/
def State.finish (s : State) (r : Word) : State := { s with code := .ok, res := r }

/-- raise CODE(r) (00_scope.md rule R10): CODE and RES, and nothing else. The block has no other exception and no
exception entry (60_exceptions.md rule R260, rule R267). -/
def State.raise (s : State) (c : Code) (r : Word) : State := { s with code := c, res := r }

end Sys2Proof.Machine
end

