-- ==== Sys2Proof/Machine/Operands.lean ====
section
/-! DEFINITION. The operand forms (30_encoding.md rule R83): the range in ARG0 and ARG1, the strings in AB, the path list
of 42_frame_builder.md rules R166 and R167, and the sync pattern of 44_sync.md rule R230. Every operand is an exact
natural number (00_scope.md rule R8). -/

namespace Sys2Proof.Machine

/-- a = zext(ARG0). -/
abbrev State.argStart (s : State) : Nat := s.arg0.toNat

/-- n = zext(ARG1). -/
abbrev State.argCount (s : State) : Nat := s.arg1.toNat

/-- The region [a, a+n) lies in the valid stream: a + n <= BITLEN (41_bitcodec.md rule R136). -/
def State.regionFits (s : State) : Bool := decide (s.argStart + s.argCount ≤ s.bitlen.toNat)

/-- Region = [Bit(a), ..., Bit(a+n-1)] (rule R136). -/
def State.region (s : State) : Bits := s.bits s.argStart s.argCount

/-- Prefix = [Bit(0), ..., Bit(a-1)] (rule R136). -/
def State.beforeRegion (s : State) : Bits := s.bits 0 s.argStart

/-- Suffix = [Bit(a+n), ..., Bit(BITLEN-1)] (rule R136). -/
def State.afterRegion (s : State) : Bits :=
  s.bits (s.argStart + s.argCount) (s.bitlen.toNat - (s.argStart + s.argCount))

/-- The n bytes at AB[a] lie inside AB: a + n <= ARG_MAX. -/
def State.inAb (s : State) (a n : Nat) : Bool := decide (a + n ≤ s.cfg.argMax)

/-- The byte '-' (rule R166). -/
def hyphen : Byte := 0x2D#8

/-- A byte in 0x30..0x39 (rule R166). -/
def isDigit (b : Byte) : Bool := decide (0x30 ≤ b.toNat) && decide (b.toNat ≤ 0x39)

/-- The decimal value of a digit string: "01" = 1, "15" = 15 (rule R166). -/
def decimalValue (t : List Byte) : Nat := t.foldl (fun v d => 10 * v + (d.toNat - 0x30)) 0

/-- The SSID text after the hyphen: 1 or 2 digits with value at most 15 (rule R166). -/
def parseSsid (t : List Byte) : Option (BitVec 4) :=
  if (t.length = 1 ∨ t.length = 2) ∧ t.all isDigit = true ∧ decimalValue t ≤ 15 then
    some (BitVec.ofNat 4 (decimalValue t))
  else none

/-- A callsign of 1 to 6 bytes (rule R166). -/
def checkCall (call : List Byte) (ssid : BitVec 4) : Option (List Byte × BitVec 4) :=
  if 1 ≤ call.length ∧ call.length ≤ callsignSize then some (call, ssid) else none

/-- PathParse(E) (rule R166): "CALL" or "CALL-SSID", split at the first hyphen; none is "fail". -/
def pathParse (e : List Byte) : Option (List Byte × BitVec 4) :=
  if hyphen ∈ e then
    (parseSsid ((e.dropWhile (· != hyphen)).drop 1)).bind (checkCall (e.takeWhile (· != hyphen)))
  else checkCall e 0#4

/-- PathList(AOFF, K) from AB index p (rule R167): k entries, each a length byte and that many bytes; none is "fail". -/
def State.pathListAt (s : State) : (k p : Nat) → Option (List (List Byte × BitVec 4))
  | 0, _ => some []
  | k + 1, p =>
    if p + 1 ≤ s.cfg.argMax ∧ 1 ≤ (s.abByte p).toNat ∧ (s.abByte p).toNat ≤ 9
        ∧ p + 1 + (s.abByte p).toNat ≤ s.cfg.argMax then
      (pathParse (s.abBytes (p + 1) (s.abByte p).toNat)).bind fun e =>
        (s.pathListAt k (p + 1 + (s.abByte p).toNat)).map (e :: ·)
    else none

/-- PATV's bits: the low SYNC_BITS of a word (44_sync.md rule R230). -/
def syncMask (c : Config) : Word := BitVec.allOnes 32 >>> (32 - c.syncBits)

/-- PATV = SYNC_PAT[SYNC_BITS-1:0] (rule R230). -/
def State.patv (s : State) : Word := s.syncPat &&& syncMask s.cfg

/-- P, the byte form of the pattern, most significant byte first (rule R230). -/
def State.patBytes (s : State) : List Byte :=
  (List.range s.cfg.syncBytes).map fun j => s.patv.extractLsb' (s.cfg.syncBits - 8 - 8 * j) 8

end Sys2Proof.Machine
end

