-- ==== Sys2Proof/Machine/BitCodec.lean ====
section
/-! DEFINITION. The bit-level codec (41_bitcodec.md): the bit-sequence functions and STUFF, UNSTUFF, NRZI_ENC, NRZI_DEC. -/

namespace Sys2Proof.Machine

/-- Stuff with `ones` consecutive 1 bits already counted (rule R130). -/
def stuffFrom : (ones : Nat) → Bits → Bits
  | _, [] => []
  | _, false :: S => false :: stuffFrom 0 S
  | ones, true :: S =>
    if ones + 1 = 5 then true :: false :: stuffFrom 0 S else true :: stuffFrom (ones + 1) S

/-- Stuff(S) (rule R130). -/
def stuff (S : Bits) : Bits := stuffFrom 0 S

/-- Unstuff with `ones` kept 1 bits counted and `skip` when the next bit is to be discarded (rule R131). -/
def unstuffFrom : (ones : Nat) → (skip : Bool) → Bits → Bits
  | _, _, [] => []
  | _, true, _ :: S => unstuffFrom 0 false S
  | _, false, false :: S => false :: unstuffFrom 0 false S
  | ones, false, true :: S => true :: unstuffFrom (ones + 1) (decide (ones + 1 = 5)) S

/-- Unstuff(S) (rule R131). -/
def unstuff (S : Bits) : Bits := unstuffFrom 0 false S

/-- NrziEnc(S, s) (rule R133): the output and the final state. -/
def nrziEncode : Bits → (state : Bool) → Bits × Bool
  | [], st => ([], st)
  | b :: S, st =>
    let st' := if b then st else !st
    (st' :: (nrziEncode S st').1, (nrziEncode S st').2)

/-- NrziDec(S, s) (rule R134): the output and the final state. -/
def nrziDecode : Bits → (prev : Bool) → Bits × Bool
  | [], prev => ([], prev)
  | b :: S, prev => ((b == prev) :: (nrziDecode S b).1, (nrziDecode S b).2)

/-- The stream with the region replaced: Prefix ++ T ++ Suffix (rule R137, rule R138). -/
def State.spliced (s : State) (T : Bits) : Bits := s.beforeRegion ++ T ++ s.afterRegion

/-- Replace the region by T, and the frame becomes RAW (rule R137, rule R138). -/
def State.replaceRegion (s : State) (T : Bits) : State :=
  ((s.writeStream (s.spliced T)).markRaw).finish (BitVec.ofNat 32 T.length)

/-- Code the region in place, and the frame becomes RAW (rule R139, rule R140). -/
def State.codeRegion (s : State) (r : Bits × Bool) : State :=
  { (s.setBits s.argStart r.1).markRaw with nrzst := r.2 }.finish ((BitVec.ofBool r.2).setWidth 32)

/-- STUFF (rule R137). -/
def execStuff (s : State) : Outcome :=
  .next <|
    if s.regionFits then
      if 8 * s.cfg.frameMax < (s.spliced (stuff s.region)).length then s.raise .overflow 0#32
      else s.replaceRegion (stuff s.region)
    else s.raise .badArg 0#32

/-- UNSTUFF (rule R138). -/
def execUnstuff (s : State) : Outcome :=
  .next <| if s.regionFits then s.replaceRegion (unstuff s.region) else s.raise .badArg 0#32

/-- NRZI_ENC (rule R139). -/
def execNrziEnc (start : Bool) (s : State) : Outcome :=
  .next <| if s.regionFits then s.codeRegion (nrziEncode s.region start) else s.raise .badArg 0#32

/-- NRZI_DEC (rule R140). -/
def execNrziDec (start : Bool) (s : State) : Outcome :=
  .next <| if s.regionFits then s.codeRegion (nrziDecode s.region start) else s.raise .badArg 0#32

end Sys2Proof.Machine
end

