-- ==== Sys2Proof/Machine/Crc.lean ====
section
/-! DEFINITION. The CRC unit (40_crc.md): the CRC function and CRC_COMPUTE, CRC_CHECK, FCS_APPEND. -/

namespace Sys2Proof.Machine

/-- CrcBit(crc, b) (rule R110). -/
def crcBit (crc : BitVec 16) (b : Bool) : BitVec 16 :=
  if crc.getLsbD 0 ^^ b then (crc >>> 1) ^^^ crcPoly else crc >>> 1

/-- CrcByte(crc, x) (rule R111): x[0] first, x[7] last. -/
def crcByte (crc : BitVec 16) (x : Byte) : BitVec 16 :=
  (List.range 8).foldl (fun c i => crcBit c (x.getLsbD i)) crc

/-- The CRC register after the bytes D, from a given value. -/
def crcRun (crc : BitVec 16) (D : List Byte) : BitVec 16 := D.foldl crcByte crc

/-- Fcs(D) (rule R112): from CRC_INIT, complemented at the end. -/
def fcs (D : List Byte) : BitVec 16 := ~~~(crcRun crcInit D)

/-- The bytes of an FCS as FB holds them, low byte first (20_memory.md rule R63 (a)). -/
def fcsBytes (c : BitVec 16) : List Byte := [c.extractLsb' 0 8, c.extractLsb' 8 8]

/-- FB[i] | (FB[i+1] << 8): the FCS stored at i (rule R114). -/
def State.storedFcs (s : State) (i : Nat) : BitVec 16 :=
  (s.fbByte i).setWidth 16 ||| ((s.fbByte (i + 1)).setWidth 16 <<< 8)

/-- Fcs([FB[1], ..., FB[e-1]]): the FCS of a frame whose information field ends at e (rule R114, rule R115). -/
def State.frameFcs (s : State) (e : Nat) : BitVec 16 := fcs (s.fbBytes 1 (e - 1))

/-- The FCS stored at FCS_OFF is that of FB[1 .. FCS_OFF) (rule R114). -/
def State.fcsMatches (s : State) : Bool := s.frameFcs s.fcsOff.toNat == s.storedFcs s.fcsOff.toNat

/-- CRC_COMPUTE (rule R113). -/
def execCrcCompute (s : State) : Outcome :=
  .next <|
    if s.argStart + s.argCount ≤ s.cfg.frameMax then
      s.finish ((fcs (s.fbBytes s.argStart s.argCount)).setWidth 32)
    else s.raise .badArg 0#32

/-- CRC_CHECK (rule R114): a mismatch is a result, not an error. -/
def execCrcCheck (s : State) : Outcome :=
  .next <|
    if s.fcsv then s.finish ((BitVec.ofBool s.fcsMatches).setWidth 32) else s.raise .notReady 0#32

/-- FCS_APPEND on a frame to which it applies: store the FCS at LEN and record it (rule R115). -/
def State.appendFcs (s : State) : State :=
  let n := s.len.toNat
  let t := (s.setFb n (fcsBytes (s.frameFcs n))).setLen (n + 2)
  { t with fcsOff := s.len, fcsv := true }.finish ((s.frameFcs n).setWidth 32)

/-- FCS_APPEND (rule R115). -/
def execFcsAppend (s : State) : Outcome :=
  .next <|
    if s.fstate = .hasDest ∨ s.fstate = .hasSrc then s.raise .notReady 0#32
    else if s.len.toNat < 1 then s.raise .badArg 0#32
    else if s.cfg.frameMax < s.len.toNat + 2 then s.raise .overflow 0#32
    else s.appendFcs

end Sys2Proof.Machine
end

