-- ==== Sys2Proof/Machine/FrameBuilder.lean ====
section
/-! DEFINITION. The AX.25 frame builder (42_frame_builder.md): the address field and FB_CLEAR, INS_DEST, INS_SRC,
INS_PATHS, INS_INFO, FLAG_APPEND. -/

namespace Sys2Proof.Machine

/-- SsidByte(ssid, ext) (rule R162). -/
def ssidByte (ssid : BitVec 4) (ext : Bool) : Byte :=
  ssidRsvd ||| (ssid.setWidth 8 <<< 1) ||| (BitVec.ofBool ext).setWidth 8

/-- Byte i < 6 of an address field (rule R161): a shifted character, or the shifted space. -/
def callByte (C : List Byte) (i : Nat) : Byte := if i < C.length then C.getD i 0#8 <<< 1 else 0x40#8

/-- AddrField(C, ssid, ext) (rule R161). -/
def addrField (C : List Byte) (ssid : BitVec 4) (ext : Bool) : List Byte :=
  (List.range callsignSize).map (callByte C) ++ [ssidByte ssid ext]

/-- The address fields of a path list: only the last one has its extension bit set (rule R168). -/
def pathFields : List (List Byte × BitVec 4) → List Byte
  | [] => []
  | [p] => addrField p.1 p.2 true
  | p :: q :: ps => addrField p.1 p.2 false ++ pathFields (q :: ps)

/-- ClearFrame() (rule R163). -/
def State.clearFrame (s : State) : State :=
  { (s.setLen 0).enter .empty with
    fb := Memory.filled s.cfg.frameMax 0#8
    ctrlOff := 0#16, infoOff := 0#16, fcsOff := 0#16, npaths := 0#4, offv := false, fcsv := false }

/-- FB_CLEAR (rule R163). -/
def execFbClear (s : State) : Outcome := .next (s.clearFrame.finish 0#32)

/-- INS_DEST once its callsign lies inside AB (rule R164). -/
def State.insertDest (s : State) (C : List Byte) (ssid : BitVec 4) : State :=
  (((s.clearFrame.setFb 0 (flagByte :: addrField C ssid false)).setLen 8).enter .hasDest).finish 0#32

/-- INS_DEST (rule R164): accepted in every frame state. -/
def execInsDest (aoff : BitVec 16) (clen : BitVec 3) (ssid : BitVec 4) (s : State) : Outcome :=
  .next <|
    if s.inAb aoff.toNat clen.toNat then s.insertDest (s.abBytes aoff.toNat clen.toNat) ssid
    else s.raise .badArg 0#32

/-- CTRL_OFF and INFO_OFF for a control byte at c, LEN just after the PID, and no recorded FCS (rule R165, rule R168). -/
def State.placeControl (s : State) (c : Nat) : State :=
  { s.setLen (c + 2) with
    ctrlOff := BitVec.ofNat 16 c, infoOff := BitVec.ofNat 16 (c + 2), offv := true, fcsv := false }

/-- INS_SRC once its callsign lies inside AB (rule R165). -/
def State.insertSrc (s : State) (C : List Byte) (ssid : BitVec 4) : State :=
  (((s.setFb 8 (addrField C ssid true ++ [ctrlUi, pidNl3])).placeControl minHeader).enter .hasSrc).finish 0#32

/-- INS_SRC (rule R165). -/
def execInsSrc (aoff : BitVec 16) (clen : BitVec 3) (ssid : BitVec 4) (s : State) : Outcome :=
  .next <|
    if s.fstate ≠ .hasDest then s.raise .notReady 0#32
    else if s.inAb aoff.toNat clen.toNat then s.insertSrc (s.abBytes aoff.toNat clen.toNat) ssid
    else s.raise .badArg 0#32

/-- INS_PATHS once every check has passed (rule R168): the old last address loses its extension bit, the fields, the
control byte and the PID follow from CTRL_OFF. -/
def State.insertPaths (s : State) (Q : List (List Byte × BitVec 4)) : State :=
  let c := s.ctrlOff.toNat
  let t := s.setFb (c - 1) [s.fbByte (c - 1) &&& 0xFE#8]
  let t := (t.setFb c (pathFields Q ++ [ctrlUi, pidNl3])).placeControl (c + addrLen * Q.length)
  { t with offv := s.offv, npaths := BitVec.ofNat 4 (s.npaths.toNat + Q.length) }.finish 0#32

/-- INS_PATHS with a well-formed list (rule R168). -/
def State.checkPaths (s : State) (Q : List (List Byte × BitVec 4)) : State :=
  if maxPaths < s.npaths.toNat + Q.length then s.raise .badArg 0#32
  else if s.cfg.frameMax < s.ctrlOff.toNat + addrLen * Q.length + 2 then s.raise .overflow 0#32
  else s.insertPaths Q

/-- INS_PATHS (rule R168). -/
def execInsPaths (aoff : BitVec 16) (k : BitVec 4) (s : State) : Outcome :=
  .next <|
    if s.fstate ≠ .hasSrc then s.raise .notReady 0#32
    else if k = 0#4 then s.finish 0#32
    else ((s.pathListAt k.toNat aoff.toNat).map s.checkPaths).getD (s.raise .badArg 0#32)

/-- INS_INFO once every check has passed (rule R169). -/
def State.insertInfo (s : State) (bs : List Byte) : State :=
  let i := s.infoOff.toNat
  { ((s.setFb i bs).setLen (i + bs.length)).enter .complete with fcsv := false }.finish 0#32

/-- INS_INFO (rule R169): it reserves 3 bytes for the FCS and the trailing flag. -/
def execInsInfo (aoff : BitVec 16) (s : State) : Outcome :=
  .next <|
    if s.fstate ≠ .hasSrc ∧ s.fstate ≠ .complete then s.raise .notReady 0#32
    else if s.inAb aoff.toNat s.argCount then
      if s.cfg.frameMax < s.infoOff.toNat + s.argCount + 3 then s.raise .overflow 0#32
      else s.insertInfo (s.abBytes aoff.toNat s.argCount)
    else s.raise .badArg 0#32

/-- FLAG_APPEND once every check has passed (rule R170). -/
def State.appendFlag (s : State) : State :=
  ((s.setFb s.len.toNat [flagByte]).setLen (s.len.toNat + 1)).finish 0#32

/-- FLAG_APPEND (rule R170). -/
def execFlagAppend (s : State) : Outcome :=
  .next <|
    if s.fstate = .empty ∨ s.fstate = .hasDest ∨ s.fstate = .hasSrc then s.raise .notReady 0#32
    else if s.cfg.frameMax < s.len.toNat + 1 then s.raise .overflow 0#32
    else s.appendFlag

end Sys2Proof.Machine
end

