-- ==== Sys2Proof/Machine/FrameParser.lean ====
section
/-! DEFINITION. The AX.25 frame parser (43_frame_parser.md): offset discovery and PARSE_OFFSETS, VALIDATE, GET_SOURCE. -/

namespace Sys2Proof.Machine

/-- What ParseOffsets() answers (rule R200): the control byte and the trailing flag, or which marker is missing. -/
inductive Parse where
  | found (ctrl flag : Nat)
  | noControl
  | noFlag
  deriving DecidableEq, Repr

/-- The least i with MIN_HEADER <= i < LEN and FB[i] = CTRL_UI (rule R200). -/
def State.findControl (s : State) : Option Nat :=
  (List.range' minHeader (s.len.toNat - minHeader)).find? fun i => s.fbByte i == ctrlUi

/-- The greatest i with c + 4 <= i < LEN and FB[i] = FLAG (rule R200). -/
def State.findFlag (s : State) (c : Nat) : Option Nat :=
  (List.range' (c + 4) (s.len.toNat - (c + 4))).reverse.find? fun i => s.fbByte i == flagByte

/-- The search of ParseOffsets() (rule R200). -/
def State.parse (s : State) : Parse :=
  match s.findControl with
  | none => .noControl
  | some c =>
    match s.findFlag c with
    | none => .noFlag
    | some e => .found c e

/-- The writes of a successful ParseOffsets() (rule R200). -/
def State.recordOffsets (s : State) (c e : Nat) : State :=
  { s with
    ctrlOff := BitVec.ofNat 16 c, infoOff := BitVec.ofNat 16 (c + 2), fcsOff := BitVec.ofNat 16 (e - 2)
    offv := true, fcsv := true }

/-- PARSE_OFFSETS (rule R201): accepted in every frame state. -/
def execParseOffsets (s : State) : Outcome :=
  .next <|
    match s.parse with
    | .found c e => (s.recordOffsets c e).finish 0#32
    | .noControl => s.raise .notFound 1#32
    | .noFlag => s.raise .notFound 2#32

/-- The flag 0x7E, most significant bit first (rule R202). -/
def flagBits : Bits := [false, true, true, true, true, true, true, false]

/-- FindEndFlag() (rule R202): the least j with 8 <= j, j + 8 <= BITLEN and the flag at Bit(j). -/
def State.findEndFlag (s : State) : Option Nat :=
  (List.range' 8 (s.bitlen.toNat - 15)).find? fun j => s.bits j 8 == flagBits

/-- Invalid(r) of rule R203: the frame is INVALID and VALIDATE ends with the reason r of rule R204. -/
def State.invalidate (s : State) (r : Word) : State :=
  { s.enter .invalid with offv := false, fcsv := false }.raise .invalid r

/-- B of rule R203: the unstuffed bits between the leading flag and an end flag at p. -/
def State.body (s : State) (p : Nat) : Bits := unstuff (s.bits 8 (p - 8))

/-- VALIDATE's rewrite of FB in place (rule R203): the unstuffed bytes from FB[1], then the flag. -/
def State.putBody (s : State) (B : Bits) : State :=
  (s.setFb 1 (packBits B ++ [flagByte])).setLen (B.length / 8 + 2)

/-- VALIDATE from the discovery of the offsets on (rule R203). -/
def State.acceptBody (s : State) : State :=
  match s.parse with
  | .noControl => s.invalidate 4#32
  | .noFlag => s.invalidate 5#32
  | .found c e =>
    if (s.recordOffsets c e).fcsMatches then ((s.recordOffsets c e).enter .valid).finish 0#32
    else (s.recordOffsets c e).invalidate 6#32

/-- VALIDATE once an end flag is found at p (rule R203). -/
def State.validateBody (s : State) (p : Nat) : State :=
  if (s.body p).length % 8 ≠ 0 then s.invalidate 3#32 else (s.putBody (s.body p)).acceptBody

/-- VALIDATE (rule R203). -/
def execValidate (s : State) : Outcome :=
  .next <|
    if s.bitlen.toNat < 8 ∨ s.fbByte 0 ≠ flagByte then s.invalidate 1#32
    else (s.findEndFlag.map s.validateBody).getD (s.invalidate 2#32)

/-- Drop the trailing spaces of a text (rule R205). -/
def trimSpaces (T : List Byte) : List Byte := (T.reverse.dropWhile (· == 0x20#8)).reverse

/-- Decimal(ssid): 1 or 2 ASCII digits, no leading zero (rule R205). -/
def decimalText (v : Nat) : List Byte :=
  if v < 10 then [BitVec.ofNat 8 (0x30 + v)] else [BitVec.ofNat 8 (0x30 + v / 10), BitVec.ofNat 8 (0x30 + v % 10)]

/-- The "-SSID" suffix, absent for SSID 0 (rule R205). -/
def ssidSuffix (v : Nat) : List Byte := if v = 0 then [] else hyphen :: decimalText v

/-- The SSID in bits 4:1 of an SSID byte (rule R205). -/
def ssidOf (b : Byte) : Nat := ((b >>> 1) &&& 0x0F#8).toNat

/-- DecodeSource() (rule R205). -/
def State.sourceText (s : State) : List Byte :=
  trimSpaces ((s.fbBytes 8 callsignSize).map fun x : Byte => x >>> 1) ++ ssidSuffix (ssidOf (s.fbByte 14))

/-- GET_SOURCE (rule R206). -/
def execGetSource (aoff : BitVec 16) (s : State) : Outcome :=
  .next <|
    if s.fstate ≠ .hasSrc ∧ s.fstate ≠ .complete ∧ s.fstate ≠ .valid then s.raise .notReady 0#32
    else if s.inAb aoff.toNat s.sourceText.length then
      (s.setAb aoff.toNat s.sourceText).finish (BitVec.ofNat 32 s.sourceText.length)
    else s.raise .badArg 0#32

end Sys2Proof.Machine
end

