-- ==== Sys2Proof/Machine/SyncUnit.lean ====
section
/-! DEFINITION. The sync-word unit (44_sync.md): the Line step and SYNC_CTL, SYNC_STRIP, SYNC_PREAMBLE. -/

namespace Sys2Proof.Machine

/-- SYNC_SR with one more bit, newest in bit 0, SYNC_BITS wide (rule R232). -/
def State.shiftedSr (s : State) (b : Bool) : Word :=
  ((s.syncSr <<< 1) ||| (BitVec.ofBool b).setWidth 32) &&& syncMask s.cfg

/-- SYNC_CNT after one more bit (rule R232). -/
def State.nextCnt (s : State) : Nat := min (s.syncCnt + 1) s.cfg.syncBits

/-- The pattern is complete with this bit (rule R232): SYNC_BITS bits since arming, and an exact match. -/
def State.detects (s : State) (b : Bool) : Bool := s.nextCnt == s.cfg.syncBits && s.shiftedSr b == s.patv

/-- LineBit(b) (rule R232): ignored unless armed; a match disarms. -/
def State.lineBit (s : State) (b : Bool) : State :=
  if s.syncEn then
    { s with
      syncSr := s.shiftedSr b, syncCnt := s.nextCnt
      syncDet := s.syncDet || s.detects b, syncEn := !s.detects b }
  else s

/-- SYNC_CTL (rule R234). -/
def execSyncCtl (enable : Bool) (s : State) : Outcome :=
  .next <|
    if enable then { s with syncSr := 0#32, syncCnt := 0, syncDet := false, syncEn := true }.finish 0#32
    else { s with syncEn := false, syncDet := false }.finish 0#32

/-- The loop of rule R235 from byte r: how many bytes of whole leading copies of P lie in FB. The fuel bounds the copies
(there are at most BITLEN/8, since P is not empty). -/
def State.stripFrom (s : State) : (fuel r : Nat) → Nat
  | 0, r => r
  | fuel + 1, r =>
    if r + s.cfg.syncBytes ≤ s.bitlen.toNat / 8 ∧ s.fbBytes r s.cfg.syncBytes = s.patBytes then
      s.stripFrom fuel (r + s.cfg.syncBytes)
    else r

/-- r of rule R235. -/
def State.stripLength (s : State) : Nat := s.stripFrom (s.bitlen.toNat / 8) 0

/-- Move FB[r .. LEN) down by r bytes and shorten the stream (rule R235). -/
def State.dropBytes (s : State) (r : Nat) : State :=
  if r = 0 then s else (s.setFb 0 (s.fbBytes r (s.len.toNat - r))).setBitlen (s.bitlen.toNat - 8 * r)

/-- SYNC_STRIP (rule R235). -/
def execSyncStrip (s : State) : Outcome :=
  .next ((s.dropBytes s.stripLength).markRaw.finish (BitVec.ofNat 32 s.stripLength))

/-- SYNC_PREAMBLE once the grown stream fits (rule R236). -/
def State.addPreamble (s : State) : State :=
  let t := s.setFb 0 (s.patBytes ++ s.patBytes ++ s.fbBytes 0 s.len.toNat)
  { t with
    bitlen := BitVec.ofNat 20 (s.bitlen.toNat + 16 * s.cfg.syncBytes)
    len := BitVec.ofNat 16 (s.len.toNat + 2 * s.cfg.syncBytes) }.markRaw.finish (BitVec.ofNat 32 (2 * s.cfg.syncBytes))

/-- SYNC_PREAMBLE (rule R236). -/
def execSyncPreamble (s : State) : Outcome :=
  .next <|
    if s.cfg.frameMax < s.len.toNat + 2 * s.cfg.syncBytes then s.raise .overflow 0#32 else s.addPreamble

end Sys2Proof.Machine
end

