-- ==== Sys2Proof/Machine/Dispatch.lean ====
section
/-! DEFINITION. The meaning of each command: one arm for each constructor of Instr. -/

namespace Sys2Proof.Machine

def exec (i : Instr) (s : State) : Host.Outcome State Fault Refusal :=
  match i with
  | .crcCompute => Sys2Proof.Machine.execCrcCompute s
  | .crcCheck => Sys2Proof.Machine.execCrcCheck s
  | .fcsAppend => Sys2Proof.Machine.execFcsAppend s
  | .stuff => Sys2Proof.Machine.execStuff s
  | .unstuff => Sys2Proof.Machine.execUnstuff s
  | .nrziEnc start => Sys2Proof.Machine.execNrziEnc start s
  | .nrziDec start => Sys2Proof.Machine.execNrziDec start s
  | .fbClear => Sys2Proof.Machine.execFbClear s
  | .insDest aoff clen ssid => Sys2Proof.Machine.execInsDest aoff clen ssid s
  | .insSrc aoff clen ssid => Sys2Proof.Machine.execInsSrc aoff clen ssid s
  | .insPaths aoff k => Sys2Proof.Machine.execInsPaths aoff k s
  | .insInfo aoff => Sys2Proof.Machine.execInsInfo aoff s
  | .flagAppend => Sys2Proof.Machine.execFlagAppend s
  | .parseOffsets => Sys2Proof.Machine.execParseOffsets s
  | .validate => Sys2Proof.Machine.execValidate s
  | .getSource aoff => Sys2Proof.Machine.execGetSource aoff s
  | .syncCtl enable => Sys2Proof.Machine.execSyncCtl enable s
  | .syncStrip => Sys2Proof.Machine.execSyncStrip s
  | .syncPreamble => Sys2Proof.Machine.execSyncPreamble s

end Sys2Proof.Machine
end

