-- ==== Sys2Proof/Machine/HostBus.lean ====
section
/-! DEFINITION. The block as its two agents see it: the register map (10_state.md rule R23), the address map
(20_memory.md rules R60, R64, R65), the issue of a command (30_encoding.md rule R80), and one input's whole effect. -/

namespace Sys2Proof.Machine

/-- The registers of rule R23. -/
inductive Reg where
  | cmd
  | arg0
  | arg1
  | status
  | res
  | len
  | bitlen
  | ctrlOff
  | infoOff
  | fcsOff
  | npaths
  | syncPat
  deriving DecidableEq, Repr

/-- The register at an offset of REG (rule R23); none is reserved. -/
def regAt (off : Nat) : Option Reg :=
  match off with
  | 0x000 => some .cmd
  | 0x004 => some .arg0
  | 0x008 => some .arg1
  | 0x00C => some .status
  | 0x010 => some .res
  | 0x014 => some .len
  | 0x018 => some .bitlen
  | 0x01C => some .ctrlOff
  | 0x020 => some .infoOff
  | 0x024 => some .fcsOff
  | 0x028 => some .npaths
  | 0x02C => some .syncPat
  | _ => none

/-- What a read of a register returns: the bits used, zeros above them (rule R23). -/
def State.readReg (s : State) : Reg → Word
  | .cmd => s.cmd
  | .arg0 => s.arg0
  | .arg1 => s.arg1
  | .status => s.statusWord
  | .res => s.res
  | .len => s.len.setWidth 32
  | .bitlen => s.bitlen.setWidth 32
  | .ctrlOff => s.ctrlOff.setWidth 32
  | .infoOff => s.infoOff.setWidth 32
  | .fcsOff => s.fcsOff.setWidth 32
  | .npaths => s.npaths.setWidth 32
  | .syncPat => s.syncPat

/-- A Host write of LEN (rule R33): only w[15:0] counts, clamped to FRAME_MAX. -/
def State.hostSetLen (s : State) (w : Word) : State :=
  (s.setLen (min (w.extractLsb' 0 16).toNat s.cfg.frameMax)).markRaw

/-- A Host write of BITLEN (rule R34): only w[19:0] counts, clamped to 8 * FRAME_MAX. -/
def State.hostSetBitlen (s : State) (w : Word) : State :=
  (s.setBitlen (min (w.extractLsb' 0 20).toNat (8 * s.cfg.frameMax))).markRaw

/-- Execute(w) of 30_encoding.md rule R90 after CMD has stored w (rule R24): an illegal word is `raise ILLEGAL(0)`. -/
def State.issue (s : State) (w : Word) : Outcome :=
  match decode w with
  | .ok i => exec i { s with cmd := w }
  | .error _ => .next ({ s with cmd := w }.raise .illegal 0#32)

/-- A Host write of w to a register (rule R23, rule R66); to a read-only register it is ignored (rule R65). -/
def State.writeReg (s : State) (r : Reg) (w : Word) : Outcome :=
  match r with
  | .cmd => s.issue w
  | .arg0 => .next { s with arg0 := w }
  | .arg1 => .next { s with arg1 := w }
  | .len => .next (s.hostSetLen w)
  | .bitlen => .next (s.hostSetBitlen w)
  | .syncPat => .next { s with syncPat := w }
  | .status => .next s
  | .res => .next s
  | .ctrlOff => .next s
  | .infoOff => .next s
  | .fcsOff => .next s
  | .npaths => .next s

/-- The areas of the block's space (rule R60). -/
inductive Area where
  /-- REG, with the offset in it -/
  | reg (off : Nat)
  /-- FBW, with the index into FB -/
  | fbw (i : Nat)
  /-- ABW, with the index into AB -/
  | abw (i : Nat)
  /-- the reserved offsets 0x3000 to 0x3FFF -/
  | reserved (off : Nat)
  deriving DecidableEq, Repr

/-- The area an offset lies in (rule R60). -/
def areaOf (off : BitVec 14) : Area :=
  let o := off.toNat
  if o < 0x1000 then .reg o
  else if o < 0x2000 then .fbw (o - 0x1000)
  else if o < 0x3000 then .abw (o - 0x2000)
  else .reserved o

/-- The access has a step (rule R64). DESIGN CHOICE, log entry 7: rule R64 names no width for the reserved offsets, which
answer the two kinds of access a Host has (00_scope.md rule R5), aligned 32-bit and 8-bit. -/
def admitted (off : BitVec 14) (n : Nat) : Bool :=
  match areaOf off with
  | .reg o => n == 4 && o % 4 == 0
  | .fbw _ => n == 1
  | .abw _ => n == 1
  | .reserved o => n == 1 || (n == 4 && o % 4 == 0)

/-- The value of a Host read (rule R23, rule R60); reserved and unbacked places read 0 (rule R65). -/
def State.readValue (s : State) (off : BitVec 14) : Word :=
  match areaOf off with
  | .reg o => ((regAt o).map s.readReg).getD 0#32
  | .fbw i => if i < s.cfg.frameMax then (s.fbByte i).setWidth 32 else 0#32
  | .abw i => if i < s.cfg.argMax then (s.abByte i).setWidth 32 else 0#32
  | .reserved _ => 0#32

/-- A Host read (rule R64): the value goes to the Host, and nothing else changes (rule R66). -/
def State.hostRead (s : State) (off : BitVec 14) (n : Nat) : Outcome :=
  if admitted off n then .next { s with hostData := some (s.readValue off) } else .fault .hostStuck

/-- The effect of an admitted Host write (rule R66); writes to reserved and unbacked places are ignored (rule R65). -/
def State.writeValue (s : State) (off : BitVec 14) (v : Word) : Outcome :=
  match areaOf off with
  | .reg o => ((regAt o).map fun r => s.writeReg r v).getD (.next s)
  | .fbw i => .next (if i < s.cfg.frameMax then s.setFb i [v.extractLsb' 0 8] else s)
  | .abw i => .next (if i < s.cfg.argMax then s.setAb i [v.extractLsb' 0 8] else s)
  | .reserved _ => .next s

/-- A Host write (rule R64). -/
def State.hostWrite (s : State) (off : BitVec 14) (n : Nat) (v : Word) : Outcome :=
  if admitted off n then s.writeValue off v else .fault .hostStuck

/-- The assertion of `rst` (70_reset_and_hazards.md rule R290): the reset values, and fresh free values in FB and AB. -/
def State.assertReset (s : State) : State := State.afterReset s.cfg (s.resets + 1) s.inputs

/-- One agent's step (20_memory.md rule R67): the whole effect of one input. -/
def State.perform (s : State) : Input → Outcome
  | .hostRead off n => s.hostRead off n
  | .hostWrite off n v => s.hostWrite off n v
  | .lineBit b => .next (s.lineBit b)
  | .rst => .next s.assertReset

/-- Take the next input, if there is one; with none the block waits (70_reset_and_hazards.md rule R291). -/
def State.takeInput (s : State) : Outcome :=
  match s.inputs with
  | [] => .next s
  | e :: rest => { s with inputs := rest }.perform e

/-- The Host's write of the table word w (nbits bits) to CMD. -/
def commandInput (nbits w : Nat) : Input := .hostWrite 0#14 4 (BitVec.ofNat 32 (w % 2 ^ nbits))

end Sys2Proof.Machine
end

