-- ==== Sys2Proof/Machine/Step.lean ====
section
/-! DEFINITION. One step of the machine: the next agent's step in the total order (20_memory.md rule R68). -/

namespace Sys2Proof.Machine

/-- One step (rule R67, rule R68): the first of the inputs still to come, whole; with none, the block waits unchanged. -/
def step (s : State) : Host.Outcome State Fault Refusal := s.takeInput

/-- `s` with the table word placed where the next step takes its command: as the next input, a Host write to CMD. The
block fetches nothing (10_state.md rule R22); log entry 4 says how a program comes to run. -/
def State.withFetchWord (s : State) (nbits w : Nat) : State := { s with inputs := commandInput nbits w :: s.inputs }

end Sys2Proof.Machine
end

