-- ==== Sys2Proof/Machine/Program.lean ====
section
/-! DEFINITION. The assembly language of 30_encoding.md rules R88 and R89 as data, its translation into the agents'
steps in every order the program leaves open, and the run of a program (70_reset_and_hazards.md rule R300). -/

namespace Sys2Proof.Machine

/-- The offset of a register (10_state.md rule R23). -/
def Reg.offset : Reg → BitVec 14
  | .cmd => 0x000#14
  | .arg0 => 0x004#14
  | .arg1 => 0x008#14
  | .status => 0x00C#14
  | .res => 0x010#14
  | .len => 0x014#14
  | .bitlen => 0x018#14
  | .ctrlOff => 0x01C#14
  | .infoOff => 0x020#14
  | .fcsOff => 0x024#14
  | .npaths => 0x028#14
  | .syncPat => 0x02C#14

/-- One line of a program: the operations of rule R88 and the pseudo-instructions of rule R89. -/
inductive Line where
  /-- st.w REG, v -/
  | stW (r : Reg) (v : Word)
  /-- ld.w REG -/
  | ldW (r : Reg)
  /-- st.b FB[i], v -/
  | stFb (i : Nat) (v : Byte)
  /-- st.b AB[i], v -/
  | stAb (i : Nat) (v : Byte)
  /-- ld.b FB[i] -/
  | ldFb (i : Nat)
  /-- ld.b AB[i] -/
  | ldAb (i : Nat)
  /-- a mnemonic line -/
  | command (i : Instr)
  /-- SETARGS a, n -/
  | setArgs (a n : Word)
  /-- st.bytes FB[a], ... -/
  | bytesFb (a : Nat) (bs : List Byte)
  /-- st.bytes AB[a], ...; st.str AB[a], "..." is the same with the text's bytes -/
  | bytesAb (a : Nat) (bs : List Byte)
  /-- st.path AB[a], "E1", "E2", ... -/
  | path (a : Nat) (es : List (List Byte))
  /-- line "b0 b1 ...": one step of the Line agent for each bit -/
  | line (bs : Bits)
  deriving DecidableEq, Repr

/-- The Host offset of FB[i] (20_memory.md rule R60). -/
def fbOffset (i : Nat) : BitVec 14 := BitVec.ofNat 14 (0x1000 + i)

/-- The Host offset of AB[i] (20_memory.md rule R60). -/
def abOffset (i : Nat) : BitVec 14 := BitVec.ofNat 14 (0x2000 + i)

/-- 8-bit writes of consecutive bytes, through a window given by its offsets. -/
def storeBytes (offset : Nat → BitVec 14) : (a : Nat) → List Byte → List Input
  | _, [] => []
  | a, b :: bs => .hostWrite (offset a) 1 (b.setWidth 32) :: storeBytes offset (a + 1) bs

/-- The length byte of every entry can hold its length. -/
def pathFits (es : List (List Byte)) : Bool := es.all fun e => decide (e.length < 256)

/-- The bytes of a path list (rule R89): each entry after one byte with its length (`pathFits`). -/
def pathBytes (es : List (List Byte)) : List Byte := es.flatMap fun e => BitVec.ofNat 8 e.length :: e

/-- The n bytes from index a lie in a 4096-byte window (20_memory.md rule R60). -/
def inWindow (a n : Nat) : Bool := decide (a + n ≤ 0x1000)

/-- The steps of one line (rule R88, rule R89); none is an assembly error. -/
def Line.assemble : Line → Option (List Input)
  | .stW r v => some [.hostWrite r.offset 4 v]
  | .ldW r => some [.hostRead r.offset 4]
  | .stFb i v => if inWindow i 1 then some (storeBytes fbOffset i [v]) else none
  | .stAb i v => if inWindow i 1 then some (storeBytes abOffset i [v]) else none
  | .ldFb i => if inWindow i 1 then some [.hostRead (fbOffset i) 1] else none
  | .ldAb i => if inWindow i 1 then some [.hostRead (abOffset i) 1] else none
  | .command i => if i.wf then some [.hostWrite Reg.cmd.offset 4 (encode i)] else none
  | .setArgs a n => some [.hostWrite Reg.arg0.offset 4 a, .hostWrite Reg.arg1.offset 4 n]
  | .bytesFb a bs => if inWindow a bs.length then some (storeBytes fbOffset a bs) else none
  | .bytesAb a bs => if inWindow a bs.length then some (storeBytes abOffset a bs) else none
  | .path a es =>
    if pathFits es && inWindow a (pathBytes es).length then some (storeBytes abOffset a (pathBytes es)) else none
  | .line bs => some (bs.map .lineBit)

/-- The steps of some lines, in the order in which they are written (rule R89). -/
def assemble : List Line → Option (List Input)
  | [] => some []
  | l :: ls => l.assemble.bind fun is => (assemble ls).map (is ++ ·)

/-- `k` steps of the machine. -/
def State.run : (k : Nat) → State → Outcome
  | 0, s => .next s
  | k + 1, s =>
    match step s with
    | .next t => State.run k t
    | .fault f => .fault f
    | .refused r => .refused r

/-- The step is the Host's. -/
def Input.byHost : Input → Bool
  | .hostRead _ _ => true
  | .hostWrite _ _ _ => true
  | .lineBit _ => false
  | .rst => false

/-- Every way to let `h` come somewhere among the second agent's steps, `after` giving the ways to go on from there. -/
def placeHost (h : Input) (after : List Input → List (List Input)) : List Input → List (List Input)
  | [] => (after []).map (h :: ·)
  | l :: ls => (after (l :: ls)).map (h :: ·) ++ (placeHost h after ls).map (l :: ·)

/-- Every interleaving of the Host's steps with the Line's, each agent's steps in their own order (20_memory.md rule R68). -/
def interleavings : (host line : List Input) → List (List Input)
  | [], ls => [ls]
  | h :: hs, ls => placeHost h (interleavings hs) ls

/-- Every order of the steps of lines whose interleaving the program does not fix (rule R89). -/
def freeOrders (is : List Input) : List (List Input) :=
  interleavings (is.filter Input.byHost) (is.filter fun e => !e.byHost)

/-- A program (rule R89): parts that follow one another. The order of the parts is what the program fixes of the
interleaving; inside a part it is free. -/
abbrev Program := List (List Line)

/-- A program that fixes the whole interleaving as written, as those of 95_test_vectors.md do: each line is a part. -/
def Program.asWritten (ls : List Line) : Program := ls.map fun l => [l]

/-- A program that fixes nothing of the interleaving. -/
def Program.unordered (ls : List Line) : Program := [ls]

/-- Every order of steps in which the program may happen; none is an assembly error. A claim about the program is a claim
about each of them (rule R89). -/
def Program.orders : Program → Option (List (List Input))
  | [] => some [[]]
  | b :: bs =>
    (assemble b).bind fun is =>
      (Program.orders bs).map fun rest => (freeOrders is).flatMap fun o => rest.map (o ++ ·)

/-- How many steps there are up to the Host's last one. -/
def hostEnd : List Input → Nat
  | [] => 0
  | e :: rest => if e.byHost || decide (0 < hostEnd rest) then hostEnd rest + 1 else 0

/-- A run (70_reset_and_hazards.md rule R300): it ends after the Host's last access, and the later steps, which are not part
of it, stay undelivered. -/
def State.runProgram (s : State) : Outcome := State.run (hostEnd s.inputs) s

/-- A claim about a program (rule R89): it assembles, and its run from `s` ends as claimed in every order it may happen in. -/
def Program.Always (p : Program) (s : State) (claim : Outcome → Prop) : Prop :=
  ∃ os, p.orders = some os ∧ ∀ is ∈ os, claim (State.runProgram { s with inputs := is })

end Sys2Proof.Machine
end

