-- ==== Sys2Proof/Safety.lean ====
section
/-! DEFINITION. What counts as a safe run and a good state, and the spec's own tables, in the terms the statements use. -/

namespace Sys2Proof.Machine

/-- The input has a step: every input but a Host access that 20_memory.md rule R64 refuses. -/
def Input.hasStep : Input → Bool
  | .hostRead off n => admitted off n
  | .hostWrite off n _ => admitted off n
  | .lineBit _ => true
  | .rst => true

/-- A safe run: none of the inputs still to come is a refused access. -/
def State.safe (s : State) : Bool := s.inputs.all Input.hasStep

/-- The input is a Host write into the window FBW. -/
def Input.writesFb : Input → Bool
  | .hostRead _ _ => false
  | .hostWrite off _ _ => decide (0x1000 ≤ off.toNat ∧ off.toNat < 0x2000)
  | .lineBit _ => false
  | .rst => false

/-- What holds of every reachable state. -/
structure State.Inv (s : State) : Prop where
  /-- FB is in canonical form -/
  fb_wf : s.fb.wf = true
  /-- no byte of FB at FRAME_MAX or above (20_memory.md rule R74) -/
  fb_below : s.fb.below s.cfg.frameMax = true
  /-- AB is in canonical form -/
  ab_wf : s.ab.wf = true
  /-- no byte of AB at ARG_MAX or above (20_memory.md rule R74) -/
  ab_below : s.ab.below s.cfg.argMax = true
  /-- LEN = ceil(BITLEN / 8) (10_state.md rule R36) -/
  len_eq : s.len.toNat = (s.bitlen.toNat + 7) / 8
  /-- BITLEN <= 8 * FRAME_MAX (10_state.md rule R36) -/
  bitlen_le : s.bitlen.toNat ≤ 8 * s.cfg.frameMax
  /-- READABLE = 1 exactly in COMPLETE and VALID (10_state.md rule R28) -/
  readable_eq : s.readable = s.fstate.isReadable
  /-- while OFFV: the offsets lie after two address fields, INFO_OFF = CTRL_OFF + 2, inside FB (10_state.md rule R29) -/
  offv_offsets : s.offv = true →
    15 ≤ s.ctrlOff.toNat ∧ s.infoOff.toNat = s.ctrlOff.toNat + 2 ∧ s.infoOff.toNat ≤ s.cfg.frameMax
  /-- while FCSV: 1 <= FCS_OFF and FCS_OFF + 2 <= FRAME_MAX (10_state.md rule R29, 40_crc.md rule R114) -/
  fcsv_offset : s.fcsv = true → 1 ≤ s.fcsOff.toNat ∧ s.fcsOff.toNat + 2 ≤ s.cfg.frameMax
  /-- NPATHS <= MAX_PATHS (10_state.md rule R38) -/
  npaths_le : s.npaths.toNat ≤ 8
  /-- SYNC_SR is SYNC_BITS wide (10_state.md rule R42) -/
  syncSr_lt : s.syncSr.toNat < 2 ^ s.cfg.syncBits
  /-- SYNC_CNT <= SYNC_BITS (10_state.md rule R42) -/
  syncCnt_le : s.syncCnt ≤ s.cfg.syncBits
  /-- a detection disarms (44_sync.md rule R232) -/
  sync_disarmed : s.syncDet = true → s.syncEn = false
  /-- the row EMPTY of 10_state.md rule R45 -/
  empty_row : s.fstate = .empty →
    s.len = 0#16 ∧ s.ctrlOff = 0#16 ∧ s.infoOff = 0#16 ∧ s.offv = false ∧ s.fcsv = false
  /-- the row HAS_DEST of 10_state.md rule R45 -/
  hasDest_row : s.fstate = .hasDest →
    s.len = 8#16 ∧ s.ctrlOff = 0#16 ∧ s.infoOff = 0#16 ∧ s.offv = false ∧ s.fcsv = false
  /-- the offsets are valid in HAS_SRC and COMPLETE (10_state.md rule R45) -/
  built_offv : s.fstate = .hasSrc ∨ s.fstate = .complete → s.offv = true
  /-- both offset flags are set in VALID (43_frame_parser.md rule R203) -/
  valid_flags : s.fstate = .valid → s.offv = true ∧ s.fcsv = true

/-- FB[i] is a byte the builder writes in an address field (42_frame_builder.md rules R161, R162): SSID bytes are at the
multiples of 7, with bits 7:5 = 0b011 and the extension bit set exactly at index `last`; every other byte is even. -/
def State.addressByte (s : State) (last i : Nat) : Prop :=
  if i % 7 = 0 then (s.fbByte i) >>> 5 = 3#8 ∧ ((s.fbByte i).getLsbD 0 = true ↔ i = last)
  else (s.fbByte i).getLsbD 0 = false

/-- The rows HAS_SRC and COMPLETE of 10_state.md rule R45 (but LEN), with the bytes of the address fields. -/
structure State.Header (s : State) : Prop where
  flag : s.fbByte 0 = 0x7E#8
  ctrlOff : s.ctrlOff.toNat = 15 + 7 * s.npaths.toNat
  infoOff : s.infoOff.toNat = s.ctrlOff.toNat + 2
  address : ∀ i, 1 ≤ i → i < s.ctrlOff.toNat → s.addressByte (s.ctrlOff.toNat - 1) i
  control : s.fbByte s.ctrlOff.toNat = 0x03#8
  pid : s.fbByte (s.ctrlOff.toNat + 1) = 0xF0#8

/-- FB as the builder's commands leave it (10_state.md rule R45); it says nothing of a frame the builder did not build. -/
structure State.Built (s : State) : Prop where
  empty : s.fstate = .empty → s.npaths = 0#4
  hasDest : s.fstate = .hasDest →
    s.npaths = 0#4 ∧ s.fbByte 0 = 0x7E#8 ∧ ∀ i, 1 ≤ i → i < 8 → s.addressByte 0 i
  hasSrc : s.fstate = .hasSrc → s.Header ∧ s.len.toNat = s.infoOff.toNat
  complete : s.fstate = .complete → s.Header ∧ s.infoOff.toNat ≤ s.len.toNat

/-- The columns of the table of 42_frame_builder.md rule R171 in which the command is NR. -/
def notReadyIn : Instr → FState → Bool
  | .insSrc _ _ _, f => f != .hasDest
  | .insPaths _ _, f => f != .hasSrc
  | .insInfo _, f => f != .hasSrc && f != .complete
  | .fcsAppend, f => f == .hasDest || f == .hasSrc
  | .flagAppend, f => f == .empty || f == .hasDest || f == .hasSrc
  | .crcCompute, _ => false
  | .crcCheck, _ => false
  | .stuff, _ => false
  | .unstuff, _ => false
  | .nrziEnc _, _ => false
  | .nrziDec _, _ => false
  | .fbClear, _ => false
  | .insDest _ _ _, _ => false
  | .parseOffsets, _ => false
  | .validate, _ => false
  | .getSource _, _ => false
  | .syncCtl _, _ => false
  | .syncStrip, _ => false
  | .syncPreamble, _ => false

/-- The frame state after a command that ends with OK, from the table of 42_frame_builder.md rule R171. -/
def fstateAfter : Instr → FState → FState
  | .fbClear, _ => .empty
  | .insDest _ _ _, _ => .hasDest
  | .insSrc _ _ _, _ => .hasSrc
  | .insPaths _ _, f => f
  | .insInfo _, _ => .complete
  | .fcsAppend, f => f
  | .flagAppend, f => f
  | .crcCompute, f => f
  | .crcCheck, f => f
  | .parseOffsets, f => f
  | .getSource _, f => f
  | .syncCtl _, f => f
  | .validate, _ => .valid
  | .stuff, _ => .raw
  | .unstuff, _ => .raw
  | .nrziEnc _, _ => .raw
  | .nrziDec _, _ => .raw
  | .syncStrip, _ => .raw
  | .syncPreamble, _ => .raw

/-- The opcodes of format F0 (30_encoding.md rule R90). -/
def opcodesF0 : List Nat := [0x10, 0x11, 0x12, 0x20, 0x21, 0x30, 0x35, 0x40, 0x41, 0x51, 0x52]

/-- The opcodes of format F1 (rule R90). -/
def opcodesF1 : List Nat := [0x22, 0x23, 0x50]

/-- The opcodes of format F2 (rule R90). -/
def opcodesF2 : List Nat := [0x34, 0x42]

/-- The opcodes of format F3 (rule R90). -/
def opcodesF3 : List Nat := [0x31, 0x32]

/-- The opcodes of format F4 (rule R90). -/
def opcodesF4 : List Nat := [0x33]

/-- 30_encoding.md rule R85 on the number of a word: (a) the opcode is unassigned, (b) a reserved bit is 1, (c) CLEN = 7,
(d) K >= 9. -/
def illegalNumber (w : Nat) : Bool :=
  let op := w % 256
  if opcodesF0.contains op then w / 256 != 0
  else if opcodesF1.contains op then w / 512 != 0
  else if opcodesF2.contains op then w / 256 % 256 != 0
  else if opcodesF3.contains op then w / 32768 % 2 != 0 || w / 4096 % 8 == 7
  else if opcodesF4.contains op then w / 4096 % 16 != 0 || 9 ≤ w / 256 % 16
  else true

end Sys2Proof.Machine
end

