-- ==== Sys2Proof/Certificates/Slice0/Obligations.lean ====
section
/-! DEFINITION. The statements for the provers, each a sentence of the spec about the machine. A statement of the effect of
a command gives its whole next state as a record update of the old one, so that every field not named is unchanged; a
buffer is described byte by byte. No statement rests on a value the model chose, except where its docstring names the log
entry. -/

open Sys2Proof Sys2Proof.Machine

/-! ### Encoding and issue -/

/-- Rules R82, R88 and R90: no bit of an encoding is dropped. -/
def Obligations.DecodeEncodeRoundTrip : Prop :=
  ∀ i : Instr, i.wf = true → decode (encode i) = .ok i

/-- Rules R82 and R86: a legal word is the one encoding of its command. -/
def Obligations.EncodeInvertsDecode : Prop :=
  ∀ (w : Word) (i : Instr), decode w = .ok i → i.wf = true ∧ encode i = w

/-- Rule R90: "a decoder written from it agrees with opcode_table.json". Every legal word is covered by its command's row
and by no other, and an illegal word by no row. -/
def Obligations.DecodeAgreesWithOpcodeTable : Prop :=
  ∀ w : Word,
    (∀ i, decode w = .ok i →
      ∃ r ∈ opcodeTable, r.mnemonic = i.mnemonic ∧ r.covers w = true ∧
        ∀ r' ∈ opcodeTable, r'.covers w = true → r'.mnemonic = r.mnemonic) ∧
    (∀ e, decode w = .error e → ∀ r ∈ opcodeTable, r.covers w = false)

/-- Sanity: words written out from the format tables of rules R82 and R84 decode to their commands. -/
def Obligations.DecodesWordsOfTheFormats : Prop :=
  decode 0x00000010#32 = .ok .crcCompute ∧ decode 0x00000122#32 = .ok (.nrziEnc true) ∧
  decode 0x00400034#32 = .ok (.insInfo 0x40#16) ∧ decode 0x00066132#32 = .ok (.insSrc 6#16 6#3 1#4) ∧
  decode 0x00200233#32 = .ok (.insPaths 0x20#16 2#4) ∧ decode 0x00000041#32 = .ok .validate ∧
  decode 0x00000150#32 = .ok (.syncCtl true) ∧ decode 0x00007031#32 = .error .clenSeven

/-- Rule R24 with rule R90: a Host write to CMD stores the word, then runs the command it encodes. -/
def Obligations.CmdWriteRunsDecodedCommand : Prop :=
  ∀ (s : State) (w : Word) (i : Instr) (rest : List Input),
    s.inputs = .hostWrite 0x000#14 4 w :: rest → decode w = .ok i →
    step s = exec i { s with inputs := rest, cmd := w }

/-- Rule R85: a word is illegal under (a) to (d) and then only CODE and RES change (and CMD stores it); any other word is a
command. -/
def Obligations.IllegalWordRaisesIllegal : Prop :=
  ∀ w : Word,
    (illegalNumber w.toNat = true → ∀ (s : State) (rest : List Input),
      s.inputs = .hostWrite 0x000#14 4 w :: rest →
      step s = .next { s with inputs := rest, cmd := w, code := .illegal, res := 0#32 }) ∧
    (illegalNumber w.toNat = false → ∃ i : Instr, i.wf = true ∧ decode w = .ok i)

/-- Rules R260 and R21: every command ends in a next state, which leaves alone what no command writes: CMD, ARG0, ARG1,
SYNC_PAT, the parameters, the inputs still to come, and AB but for GET_SOURCE. -/
def Obligations.CommandsAlwaysComplete : Prop :=
  ∀ (i : Instr) (s : State), ∃ t, exec i s = .next t ∧
    t.cmd = s.cmd ∧ t.arg0 = s.arg0 ∧ t.arg1 = s.arg1 ∧ t.syncPat = s.syncPat ∧ t.cfg = s.cfg ∧
    t.inputs = s.inputs ∧ t.hostData = s.hostData ∧ t.resets = s.resets ∧
    ((∀ a, i ≠ .getSource a) → t.ab = s.ab)

/-! ### The Host's accesses, the Line and reset -/

/-- Rule R64: in REG only aligned 32-bit accesses, in FBW and ABW only 8-bit accesses are admitted; any other has no step.
The admitted ones have one. -/
def Obligations.RefusedAccessSticks : Prop :=
  ∀ (s : State) (off : BitVec 14) (n : Nat) (rest : List Input),
    (s.inputs = .hostRead off n :: rest ∨ ∃ v, s.inputs = .hostWrite off n v :: rest) →
    (off.toNat < 0x1000 → (n = 4 ∧ off.toNat % 4 = 0 → ∃ t, step s = .next t) ∧
      (¬(n = 4 ∧ off.toNat % 4 = 0) → step s = .fault .hostStuck)) ∧
    (0x1000 ≤ off.toNat → off.toNat < 0x3000 → (n = 1 → ∃ t, step s = .next t) ∧
      (n ≠ 1 → step s = .fault .hostStuck))

/-- Rules R23, R60, R65 and R66: what every place of the map reads as; a read changes nothing of the block. -/
def Obligations.HostReads : Prop :=
  ∀ (s : State) (rest : List Input) (off : BitVec 14) (n : Nat) (v : Word),
    s.inputs = .hostRead off n :: rest →
    (n = 4 ∧ (off = 0x000#14 ∧ v = s.cmd ∨ off = 0x004#14 ∧ v = s.arg0 ∨ off = 0x008#14 ∧ v = s.arg1 ∨
        off = 0x00C#14 ∧ v = s.statusWord ∨ off = 0x010#14 ∧ v = s.res ∨
        off = 0x014#14 ∧ v.toNat = s.len.toNat ∨ off = 0x018#14 ∧ v.toNat = s.bitlen.toNat ∨
        off = 0x01C#14 ∧ v.toNat = s.ctrlOff.toNat ∨ off = 0x020#14 ∧ v.toNat = s.infoOff.toNat ∨
        off = 0x024#14 ∧ v.toNat = s.fcsOff.toNat ∨ off = 0x028#14 ∧ v.toNat = s.npaths.toNat ∨
        off = 0x02C#14 ∧ v = s.syncPat) ∨
      n = 1 ∧ (∃ i, off.toNat = 0x1000 + i ∧ i < s.cfg.frameMax ∧ v.toNat = (s.fbByte i).toNat) ∨
      n = 1 ∧ (∃ i, off.toNat = 0x2000 + i ∧ i < s.cfg.argMax ∧ v.toNat = (s.abByte i).toNat) ∨
      n = 1 ∧ (∃ i, off.toNat = 0x1000 + i ∧ s.cfg.frameMax ≤ i ∧ i < 0x1000 ∧ v = 0#32) ∨
      n = 1 ∧ (∃ i, off.toNat = 0x2000 + i ∧ s.cfg.argMax ≤ i ∧ i < 0x1000 ∧ v = 0#32) ∨
      n = 4 ∧ 0x030 ≤ off.toNat ∧ off.toNat ≤ 0xFFC ∧ off.toNat % 4 = 0 ∧ v = 0#32 ∨
      n = 4 ∧ 0x3000 ≤ off.toNat ∧ off.toNat % 4 = 0 ∧ v = 0#32) →
    step s = .next { s with inputs := rest, hostData := some v }

/-- Rule R26: the fields of STATUS at their bits, with the numbers of rules R27 and R261; bits [31:13] read 0. The interrupt
output of rule R233 is at the level of SYNC_DET. -/
def Obligations.StatusLayout : Prop :=
  ∀ s : State,
    s.statusWord.toNat % 16 =
      (match s.code with
        | .ok => 0 | .notReady => 1 | .overflow => 2 | .badArg => 3 | .illegal => 4 | .invalid => 5 | .notFound => 6) ∧
    s.statusWord.toNat / 16 % 8 =
      (match s.fstate with
        | .empty => 0 | .hasDest => 1 | .hasSrc => 2 | .complete => 3 | .valid => 4 | .invalid => 5 | .raw => 6) ∧
    s.statusWord.getLsbD 7 = s.readable ∧ s.statusWord.getLsbD 8 = s.offv ∧ s.statusWord.getLsbD 9 = s.fcsv ∧
    s.statusWord.getLsbD 10 = s.nrzst ∧ s.statusWord.getLsbD 11 = s.syncEn ∧ s.statusWord.getLsbD 12 = s.syncDet ∧
    s.statusWord.toNat < 2 ^ 13 ∧ s.syncIrq = s.syncDet

/-- Rules R33, R34 and R35: a Host write of LEN or BITLEN clamps, keeps LEN = ceil(BITLEN / 8) and performs MarkRaw. -/
def Obligations.HostWritesOfLenAndBitlen : Prop :=
  ∀ (s : State) (w : Word) (rest : List Input),
    (s.inputs = .hostWrite 0x014#14 4 w :: rest →
      step s = .next
        { s with
          inputs := rest
          len := BitVec.ofNat 16 (min (w.toNat % 2 ^ 16) s.cfg.frameMax)
          bitlen := BitVec.ofNat 20 (8 * min (w.toNat % 2 ^ 16) s.cfg.frameMax)
          fstate := .raw, readable := false, offv := false, fcsv := false }) ∧
    (s.inputs = .hostWrite 0x018#14 4 w :: rest →
      step s = .next
        { s with
          inputs := rest
          bitlen := BitVec.ofNat 20 (min (w.toNat % 2 ^ 20) (8 * s.cfg.frameMax))
          len := BitVec.ofNat 16 ((min (w.toNat % 2 ^ 20) (8 * s.cfg.frameMax) + 7) / 8)
          fstate := .raw, readable := false, offv := false, fcsv := false })

/-- Rules R25, R39 and R66: ARG0, ARG1, SYNC_PAT and the buffer windows only store the value written. -/
def Obligations.HostStores : Prop :=
  ∀ (s : State) (v : Word) (rest : List Input),
    (s.inputs = .hostWrite 0x004#14 4 v :: rest → step s = .next { s with inputs := rest, arg0 := v }) ∧
    (s.inputs = .hostWrite 0x008#14 4 v :: rest → step s = .next { s with inputs := rest, arg1 := v }) ∧
    (s.inputs = .hostWrite 0x02C#14 4 v :: rest → step s = .next { s with inputs := rest, syncPat := v }) ∧
    (∀ (off : BitVec 14) (i : Nat), s.inputs = .hostWrite off 1 v :: rest →
      (off.toNat = 0x1000 + i → i < s.cfg.frameMax →
        ∃ t, step s = .next t ∧ t = { s with inputs := rest, fb := t.fb } ∧
          ∀ j, t.fbByte j = if j = i then BitVec.ofNat 8 v.toNat else s.fbByte j) ∧
      (off.toNat = 0x2000 + i → i < s.cfg.argMax →
        ∃ t, step s = .next t ∧ t = { s with inputs := rest, ab := t.ab } ∧
          ∀ j, t.abByte j = if j = i then BitVec.ofNat 8 v.toNat else s.abByte j))

/-- Rule R65: a write to a read-only register, a reserved offset or beyond a buffer changes nothing. -/
def Obligations.IgnoredWrites : Prop :=
  ∀ (s : State) (v : Word) (off : BitVec 14) (n : Nat) (rest : List Input),
    s.inputs = .hostWrite off n v :: rest →
    (n = 4 ∧ off.toNat ∈ [0x00C, 0x010, 0x01C, 0x020, 0x024, 0x028] ∨
      n = 4 ∧ 0x030 ≤ off.toNat ∧ off.toNat ≤ 0xFFC ∧ off.toNat % 4 = 0 ∨
      n = 1 ∧ 0x1000 + s.cfg.frameMax ≤ off.toNat ∧ off.toNat < 0x2000 ∨
      n = 1 ∧ 0x2000 + s.cfg.argMax ≤ off.toNat ∧ off.toNat < 0x3000 ∨
      n = 4 ∧ 0x3000 ≤ off.toNat ∧ off.toNat % 4 = 0) →
    step s = .next { s with inputs := rest }

/-- Rule R232: the Line step. SYNC_BITS, SYNC_PAT and the shift register are taken as numbers. -/
def Obligations.LineBitStep : Prop :=
  ∀ (s : State) (b : Bool) (rest : List Input),
    s.inputs = .lineBit b :: rest →
    (s.syncEn = false → step s = .next { s with inputs := rest }) ∧
    (s.syncEn = true →
      ∃ sr : Word, sr.toNat = (2 * s.syncSr.toNat + b.toNat) % 2 ^ s.cfg.syncBits ∧
        ((min (s.syncCnt + 1) s.cfg.syncBits = s.cfg.syncBits ∧ sr.toNat = s.syncPat.toNat % 2 ^ s.cfg.syncBits →
          step s = .next { s with
            inputs := rest, syncSr := sr, syncCnt := min (s.syncCnt + 1) s.cfg.syncBits, syncDet := true, syncEn := false }) ∧
         (¬(min (s.syncCnt + 1) s.cfg.syncBits = s.cfg.syncBits ∧ sr.toNat = s.syncPat.toNat % 2 ^ s.cfg.syncBits) →
          step s = .next { s with
            inputs := rest, syncSr := sr, syncCnt := min (s.syncCnt + 1) s.cfg.syncBits })))

/-- Rule R290: the values after `rst`. FB and AB hold nothing that was written: every byte is a free value. `hostData`,
the parameters and the inputs are the model's own (log entries 3, 4, 5). -/
def Obligations.ResetValues : Prop :=
  ∀ (s : State) (rest : List Input), s.inputs = .rst :: rest →
    ∃ t, step s = .next t ∧
      t.cmd = 0#32 ∧ t.arg0 = 0#32 ∧ t.arg1 = 0#32 ∧ t.code = .ok ∧ t.fstate = .empty ∧ t.readable = false ∧
      t.offv = false ∧ t.fcsv = false ∧ t.nrzst = false ∧ t.syncEn = false ∧ t.syncDet = false ∧ t.res = 0#32 ∧
      t.len = 0#16 ∧ t.bitlen = 0#20 ∧ t.ctrlOff = 0#16 ∧ t.infoOff = 0#16 ∧ t.fcsOff = 0#16 ∧ t.npaths = 0#4 ∧
      t.syncPat = s.cfg.syncPatReset ∧ t.syncSr = 0#32 ∧ t.syncCnt = 0 ∧
      (∀ i, t.fb.read i = none ∧ t.ab.read i = none) ∧ t.cfg = s.cfg ∧ t.inputs = rest

/-- Rules R64, R273 and R291: a step stops only at a Host access without a step, and never refuses; with no input the block
does nothing. Two of its clauses are the model's choice: which widths have a step at the reserved offsets 0x3000 to 0x3FFF
(log entry 7), and that a refused access stops the whole machine (log entry 6). -/
def Obligations.StepStopsOnlyAtRefusedAccess : Prop :=
  ∀ s : State,
    (∀ r, step s ≠ .refused r) ∧
    (∀ f, step s = .fault f ↔ f = .hostStuck ∧ ∃ e rest, s.inputs = e :: rest ∧ e.hasStep = false) ∧
    (s.inputs = [] → step s = .next s)

/-- Rules R260 and R300: a run without a refused access reaches its end, whatever its commands; it ends after the Host's last
access, and line bits ordered after that change nothing of it. By the model's choice an aligned 32-bit or an 8-bit access at
0x3000 to 0x3FFF is no refused one (log entry 7), and the run goes on over an assertion of `rst` (log entry 10). -/
def Obligations.SafeRunReachesItsEnd : Prop :=
  ∀ s : State, s.safe = true →
    (∃ t, State.run s.inputs.length s = .next t ∧ t.inputs = []) ∧
    (∃ t, s.runProgram = .next t ∧
      (∃ part, s.inputs = part ++ t.inputs ∧ (∀ e ∈ t.inputs, e.byHost = false) ∧
        (part = [] ∨ ∃ e, part.getLast? = some e ∧ e.byHost = true)) ∧
      ∀ bs : Bits, State.runProgram { s with inputs := s.inputs ++ bs.map .lineBit } =
        .next { t with inputs := t.inputs ++ bs.map .lineBit })

/-! ### CRC unit -/

/-- Rules R110, R111, R112: the CRC register step on numbers, the bit order, the start value and the complement, and the
check value of rule R112. -/
def Obligations.FcsFollowsItsRules : Prop :=
  (∀ (crc : BitVec 16) (b : Bool),
    (crcBit crc b).toNat =
      if (crc.toNat % 2 == 1) ^^ b then (crc.toNat / 2) ^^^ 0x8408 else crc.toNat / 2) ∧
  (∀ (crc : BitVec 16) (x : Byte),
    crcByte crc x = crcBit (crcBit (crcBit (crcBit (crcBit (crcBit (crcBit (crcBit crc
      (x.getLsbD 0)) (x.getLsbD 1)) (x.getLsbD 2)) (x.getLsbD 3)) (x.getLsbD 4)) (x.getLsbD 5)) (x.getLsbD 6))
      (x.getLsbD 7)) ∧
  (∀ D : List Byte, (fcs D).toNat + (D.foldl crcByte 0xFFFF#16).toNat = 0xFFFF) ∧
  fcs [] = 0x0000#16 ∧
  fcs [0x31#8, 0x32#8, 0x33#8, 0x34#8, 0x35#8, 0x36#8, 0x37#8, 0x38#8, 0x39#8] = 0x906E#16

/-- Rule R116 (c): the residue, whatever the data. -/
def Obligations.FcsResidue : Prop :=
  ∀ D : List Byte, crcRun 0xFFFF#16 (D ++ [(fcs D).extractLsb' 0 8, (fcs D).extractLsb' 8 8]) = 0xF0B8#16 ∧
    fcs (D ++ [(fcs D).extractLsb' 0 8, (fcs D).extractLsb' 8 8]) = 0x0F47#16

/-- Rule R116 (d): the CRC register is linear over GF(2) in its start value and the data. -/
def Obligations.CrcIsLinear : Prop :=
  ∀ (D E : List Byte) (c d : BitVec 16), D.length = E.length →
    crcRun (c ^^^ d) (List.zipWith (· ^^^ ·) D E) = crcRun c D ^^^ crcRun d E

/-- Rule R113: CRC_COMPUTE. -/
def Obligations.CrcComputeEffect : Prop :=
  ∀ s : State,
    encode .crcCompute = 0x00000010#32 ∧
    (s.arg0.toNat + s.arg1.toNat ≤ s.cfg.frameMax →
      exec .crcCompute s = .next
        { s with code := .ok, res := BitVec.ofNat 32 (fcs (s.fbBytes s.arg0.toNat s.arg1.toNat)).toNat }) ∧
    (s.cfg.frameMax < s.arg0.toNat + s.arg1.toNat →
      exec .crcCompute s = .next { s with code := .badArg, res := 0#32 })

/-- Rule R114: CRC_CHECK. -/
def Obligations.CrcCheckEffect : Prop :=
  ∀ s : State,
    encode .crcCheck = 0x00000011#32 ∧
    (s.fcsv = false → exec .crcCheck s = .next { s with code := .notReady, res := 0#32 }) ∧
    (s.fcsv = true →
      exec .crcCheck s = .next
        { s with
          code := .ok
          res :=
            if (fcs (s.fbBytes 1 (s.fcsOff.toNat - 1))).toNat =
                (s.fbByte s.fcsOff.toNat).toNat + 256 * (s.fbByte (s.fcsOff.toNat + 1)).toNat
            then 1#32 else 0#32 })

/-- Rule R115: FCS_APPEND, its three failures in order and its effect. -/
def Obligations.FcsAppendEffect : Prop :=
  ∀ s : State,
    encode .fcsAppend = 0x00000012#32 ∧
    (s.fstate = .hasDest ∨ s.fstate = .hasSrc →
      exec .fcsAppend s = .next { s with code := .notReady, res := 0#32 }) ∧
    (s.fstate ≠ .hasDest → s.fstate ≠ .hasSrc →
      (s.len.toNat = 0 → exec .fcsAppend s = .next { s with code := .badArg, res := 0#32 }) ∧
      (1 ≤ s.len.toNat → s.cfg.frameMax < s.len.toNat + 2 →
        exec .fcsAppend s = .next { s with code := .overflow, res := 0#32 }) ∧
      (1 ≤ s.len.toNat → s.len.toNat + 2 ≤ s.cfg.frameMax →
        ∃ t, exec .fcsAppend s = .next t ∧
          t = { s with
            fb := t.fb
            fcsOff := s.len, fcsv := true
            len := BitVec.ofNat 16 (s.len.toNat + 2)
            bitlen := BitVec.ofNat 20 (8 * (s.len.toNat + 2))
            code := .ok
            res := BitVec.ofNat 32 (fcs (s.fbBytes 1 (s.len.toNat - 1))).toNat } ∧
          ∀ i, t.fbByte i =
            if i = s.len.toNat then BitVec.ofNat 8 (fcs (s.fbBytes 1 (s.len.toNat - 1))).toNat
            else if i = s.len.toNat + 1 then BitVec.ofNat 8 ((fcs (s.fbBytes 1 (s.len.toNat - 1))).toNat / 256)
            else s.fbByte i))

/-- Rule R116 (a): FCS_APPEND that succeeds, then CRC_CHECK, gives RES = 1. -/
def Obligations.AppendedFcsChecks : Prop :=
  ∀ s t : State, exec .fcsAppend s = .next t → t.code = .ok →
    exec .crcCheck t = .next { t with code := .ok, res := 1#32 }

/-- Rule R116 (b): after that, complementing any single bit of FB[1] to FB[FCS_OFF+1] makes CRC_CHECK give RES = 0. -/
def Obligations.SingleBitErrorIsDetected : Prop :=
  ∀ (s t u : State) (i k : Nat), exec .fcsAppend s = .next t → t.code = .ok →
    1 ≤ i → i ≤ t.fcsOff.toNat + 1 → k < 8 →
    u = { t with fb := u.fb } →
    (∀ j, u.fbByte j = if j = i then t.fbByte i ^^^ (1#8 <<< k) else t.fbByte j) →
    exec .crcCheck u = .next { u with code := .ok, res := 0#32 }

/-! ### Bit-level codec -/

/-- Rule R132: the laws (a) to (f) of the stuffer. -/
def Obligations.StufferLaws : Prop :=
  (∀ S : Bits, unstuff (stuff S) = S) ∧
  (∀ S : Bits, ¬ List.replicate 6 true <:+: stuff S) ∧
  (∀ S : Bits, (stuff S).count true = S.count true ∧
    (stuff S).length = S.length + ((stuff S).count false - S.count false) ∧
    (stuff S).count false - S.count false ≤ S.length / 5) ∧
  (stuff [] = [] ∧ unstuff [] = []) ∧
  (∀ S : Bits, ¬ List.replicate 5 true <:+: S → stuff S = S) ∧
  ((∀ S T : Bits, (S = [] ∨ S.getLast? = some false) → stuff (S ++ T) = stuff S ++ stuff T) ∧
    ∃ S T : Bits, stuff (S ++ T) ≠ stuff S ++ stuff T)

/-- Rule R135: the laws (a) to (e) of the NRZI coder. The decoder's half of (d) is read as an equation of outputs, and the
final states are complements, as rule R134 gives them (log entry 19). -/
def Obligations.NrziLaws : Prop :=
  (∀ (S : Bits) (s : Bool), (nrziDecode (nrziEncode S s).1 s).1 = S) ∧
  (∀ (S : Bits) (s : Bool), (nrziDecode (nrziEncode S s).1 s).2 = (nrziEncode S s).2) ∧
  (∀ (S T : Bits) (s : Bool),
    nrziEncode (S ++ T) s = ((nrziEncode S s).1 ++ (nrziEncode T (nrziEncode S s).2).1, (nrziEncode T (nrziEncode S s).2).2) ∧
    nrziDecode (S ++ T) s = ((nrziDecode S s).1 ++ (nrziDecode T (nrziDecode S s).2).1, (nrziDecode T (nrziDecode S s).2).2)) ∧
  (∀ (S : Bits) (s : Bool), (nrziEncode S (!s)).1 = (nrziEncode S s).1.map (!·) ∧
    (nrziDecode S s).1 = (nrziDecode (S.map (!·)) (!s)).1 ∧
    (nrziDecode (S.map (!·)) (!s)).2 = !(nrziDecode S s).2) ∧
  (∀ (S : Bits) (s : Bool), (nrziEncode S s).1.length = S.length ∧ (nrziDecode S s).1.length = S.length) ∧
  (∀ (start : Bool) (s t : State),
    exec (.nrziEnc start) s = .next t ∨ exec (.nrziDec start) s = .next t → t.bitlen = s.bitlen)

/-- Rule R137: STUFF. N is the new stream; the bits after it in its last byte are 0, and the bytes after it unchanged. -/
def Obligations.StuffEffect : Prop :=
  ∀ (s : State) (a n : Nat) (T N : Bits), a = s.arg0.toNat → n = s.arg1.toNat →
    T = stuff (s.bits a n) → N = s.bits 0 a ++ T ++ s.bits (a + n) (s.bitlen.toNat - (a + n)) →
    encode .stuff = 0x00000020#32 ∧
    (s.bitlen.toNat < a + n → exec .stuff s = .next { s with code := .badArg, res := 0#32 }) ∧
    (a + n ≤ s.bitlen.toNat →
      (8 * s.cfg.frameMax < N.length → exec .stuff s = .next { s with code := .overflow, res := 0#32 }) ∧
      (N.length ≤ 8 * s.cfg.frameMax →
        ∃ t, exec .stuff s = .next t ∧
          t = { s with
            fb := t.fb
            bitlen := BitVec.ofNat 20 N.length, len := BitVec.ofNat 16 ((N.length + 7) / 8)
            fstate := .raw, readable := false, offv := false, fcsv := false
            code := .ok, res := BitVec.ofNat 32 T.length } ∧
          t.bits 0 N.length = N ∧
          (∀ j, N.length ≤ j → j < 8 * ((N.length + 7) / 8) → t.bit j = false) ∧
          (∀ i, (N.length + 7) / 8 ≤ i → t.fbByte i = s.fbByte i)))

/-- Rule R138: UNSTUFF. -/
def Obligations.UnstuffEffect : Prop :=
  ∀ (s : State) (a n : Nat) (T N : Bits), a = s.arg0.toNat → n = s.arg1.toNat →
    T = unstuff (s.bits a n) → N = s.bits 0 a ++ T ++ s.bits (a + n) (s.bitlen.toNat - (a + n)) →
    encode .unstuff = 0x00000021#32 ∧
    (s.bitlen.toNat < a + n → exec .unstuff s = .next { s with code := .badArg, res := 0#32 }) ∧
    (a + n ≤ s.bitlen.toNat →
      ∃ t, exec .unstuff s = .next t ∧
        t = { s with
          fb := t.fb
          bitlen := BitVec.ofNat 20 N.length, len := BitVec.ofNat 16 ((N.length + 7) / 8)
          fstate := .raw, readable := false, offv := false, fcsv := false
          code := .ok, res := BitVec.ofNat 32 T.length } ∧
        N.length ≤ s.bitlen.toNat ∧
        t.bits 0 N.length = N ∧
        (∀ j, N.length ≤ j → j < 8 * ((N.length + 7) / 8) → t.bit j = false) ∧
        (∀ i, (N.length + 7) / 8 ≤ i → t.fbByte i = s.fbByte i))

/-- Rules R139 and R140: NRZI_ENC and NRZI_DEC. Every bit outside the region is unchanged. -/
def Obligations.NrziEffects : Prop :=
  ∀ (s : State) (start : Bool) (a n : Nat) (i : Instr) (r : Bits × Bool), a = s.arg0.toNat → n = s.arg1.toNat →
    (i = .nrziEnc start ∧ r = nrziEncode (s.bits a n) start ∨
      i = .nrziDec start ∧ r = nrziDecode (s.bits a n) start) →
    (i = .nrziEnc start → encode i = 0#23 ++ BitVec.ofBool start ++ 0x22#8) ∧
    (i = .nrziDec start → encode i = 0#23 ++ BitVec.ofBool start ++ 0x23#8) ∧
    (s.bitlen.toNat < a + n → exec i s = .next { s with code := .badArg, res := 0#32 }) ∧
    (a + n ≤ s.bitlen.toNat →
      ∃ t, exec i s = .next t ∧
        t = { s with
          fb := t.fb, nrzst := r.2
          fstate := .raw, readable := false, offv := false, fcsv := false
          code := .ok, res := if r.2 then 1#32 else 0#32 } ∧
        ∀ j, t.bit j = if a ≤ j ∧ j < a + n then r.1.getD (j - a) false else s.bit j)

/-! ### Frame builder -/

/-- Rules R161 and R162: the seven bytes of an address field, as numbers. -/
def Obligations.AddressFieldBytes : Prop :=
  ∀ (C : List Byte) (ssid : BitVec 4) (ext : Bool), C.length ≤ 6 →
    (addrField C ssid ext).length = 7 ∧
    (∀ i, i < C.length → ((addrField C ssid ext).getD i 0#8).toNat = 2 * (C.getD i 0#8).toNat % 256) ∧
    (∀ i, C.length ≤ i → i < 6 → ((addrField C ssid ext).getD i 0#8).toNat = 0x40) ∧
    ((addrField C ssid ext).getD 6 0#8).toNat = 0x60 + 2 * ssid.toNat + ext.toNat

/-- Rule R166: exactly which entries a path list may hold, and what each gives. -/
def Obligations.PathEntrySyntax : Prop :=
  ∀ (e call : List Byte) (ssid : BitVec 4),
    pathParse e = some (call, ssid) ↔
      1 ≤ call.length ∧ call.length ≤ 6 ∧ 0x2D#8 ∉ call ∧
      (e = call ∧ ssid = 0#4 ∨
        ∃ t : List Byte, e = call ++ 0x2D#8 :: t ∧ (t.length = 1 ∨ t.length = 2) ∧
          (∀ d ∈ t, 0x30 ≤ d.toNat ∧ d.toNat ≤ 0x39) ∧
          t.foldl (fun v d => 10 * v + (d.toNat - 0x30)) 0 = ssid.toNat)

/-- Rule R167: a path list is K entries, each a length byte from 1 to 9 and that many bytes, inside AB. -/
def Obligations.PathListLayout : Prop :=
  ∀ (s : State) (k p : Nat) (Q : List (List Byte × BitVec 4)), 1 ≤ k →
    (s.pathListAt k p = some Q ↔
      ∃ es : List (List Byte), es.length = k ∧ (∀ e ∈ es, 1 ≤ e.length ∧ e.length ≤ 9) ∧
        p + (es.flatMap fun e => BitVec.ofNat 8 e.length :: e).length ≤ s.cfg.argMax ∧
        s.abBytes p (es.flatMap fun e => BitVec.ofNat 8 e.length :: e).length =
          (es.flatMap fun e => BitVec.ofNat 8 e.length :: e) ∧
        es.map pathParse = Q.map some)

/-- Rule R163: FB_CLEAR. -/
def Obligations.FbClearEffect : Prop :=
  ∀ s : State,
    encode .fbClear = 0x00000030#32 ∧ ∃ t, exec .fbClear s = .next t ∧
    t = { s with
      fb := t.fb
      len := 0#16, bitlen := 0#20, ctrlOff := 0#16, infoOff := 0#16, fcsOff := 0#16, npaths := 0#4
      fstate := .empty, readable := false, offv := false, fcsv := false
      code := .ok, res := 0#32 } ∧
    ∀ i, i < s.cfg.frameMax → t.fbByte i = 0x00#8

/-- Rule R164: INS_DEST. -/
def Obligations.InsDestEffect : Prop :=
  ∀ (s : State) (a : BitVec 16) (n : BitVec 3) (ssid : BitVec 4),
    encode (.insDest a n ssid) = a ++ 0#1 ++ n ++ ssid ++ 0x31#8 ∧
    (s.cfg.argMax < a.toNat + n.toNat →
      exec (.insDest a n ssid) s = .next { s with code := .badArg, res := 0#32 }) ∧
    (a.toNat + n.toNat ≤ s.cfg.argMax →
      ∃ t, exec (.insDest a n ssid) s = .next t ∧
        t = { s with
          fb := t.fb
          len := 8#16, bitlen := 64#20, ctrlOff := 0#16, infoOff := 0#16, fcsOff := 0#16, npaths := 0#4
          fstate := .hasDest, readable := false, offv := false, fcsv := false
          code := .ok, res := 0#32 } ∧
        ∀ i, i < s.cfg.frameMax → t.fbByte i =
          if i = 0 then 0x7E#8
          else if i < 8 then (addrField (s.abBytes a.toNat n.toNat) ssid false).getD (i - 1) 0#8
          else 0x00#8)

/-- Rule R165: INS_SRC. READABLE "stays 0": rule R28 gives that it was 0 in HAS_DEST. -/
def Obligations.InsSrcEffect : Prop :=
  ∀ (s : State) (a : BitVec 16) (n : BitVec 3) (ssid : BitVec 4),
    encode (.insSrc a n ssid) = a ++ 0#1 ++ n ++ ssid ++ 0x32#8 ∧
    (s.fstate ≠ .hasDest → exec (.insSrc a n ssid) s = .next { s with code := .notReady, res := 0#32 }) ∧
    (s.fstate = .hasDest → s.cfg.argMax < a.toNat + n.toNat →
      exec (.insSrc a n ssid) s = .next { s with code := .badArg, res := 0#32 }) ∧
    (s.fstate = .hasDest → a.toNat + n.toNat ≤ s.cfg.argMax →
      ∃ t, exec (.insSrc a n ssid) s = .next t ∧
        t = { s with
          fb := t.fb
          ctrlOff := 15#16, infoOff := 17#16, offv := true, fcsv := false, len := 17#16, bitlen := 136#20
          fstate := .hasSrc, readable := false, code := .ok, res := 0#32 } ∧
        ∀ i, t.fbByte i =
          if 8 ≤ i ∧ i < 15 then (addrField (s.abBytes a.toNat n.toNat) ssid true).getD (i - 8) 0#8
          else if i = 15 then 0x03#8
          else if i = 16 then 0xF0#8
          else s.fbByte i)

/-- Rule R168: INS_PATHS, its failures in order and its effect. `new` is what is written from CTRL_OFF on: the address
fields, only the last with its extension bit, then the control byte and the PID. -/
def Obligations.InsPathsEffect : Prop :=
  ∀ (s : State) (a : BitVec 16) (k : BitVec 4),
    encode (.insPaths a k) = a ++ 0#4 ++ k ++ 0x33#8 ∧
    (s.fstate ≠ .hasSrc → exec (.insPaths a k) s = .next { s with code := .notReady, res := 0#32 }) ∧
    (s.fstate = .hasSrc → k = 0#4 → exec (.insPaths a k) s = .next { s with code := .ok, res := 0#32 }) ∧
    (s.fstate = .hasSrc → k ≠ 0#4 →
      (s.pathListAt k.toNat a.toNat = none →
        exec (.insPaths a k) s = .next { s with code := .badArg, res := 0#32 }) ∧
      (∀ (Q : List (List Byte × BitVec 4)) (new : List Byte), s.pathListAt k.toNat a.toNat = some Q →
        new = (Q.zipIdx.flatMap fun e => addrField e.1.1 e.1.2 (e.2 + 1 == k.toNat)) ++ [0x03#8, 0xF0#8] →
        (8 < s.npaths.toNat + k.toNat →
          exec (.insPaths a k) s = .next { s with code := .badArg, res := 0#32 }) ∧
        (s.npaths.toNat + k.toNat ≤ 8 → s.cfg.frameMax < s.ctrlOff.toNat + 7 * k.toNat + 2 →
          exec (.insPaths a k) s = .next { s with code := .overflow, res := 0#32 }) ∧
        (s.npaths.toNat + k.toNat ≤ 8 → s.ctrlOff.toNat + 7 * k.toNat + 2 ≤ s.cfg.frameMax →
          ∃ t, exec (.insPaths a k) s = .next t ∧
            t = { s with
              fb := t.fb
              ctrlOff := BitVec.ofNat 16 (s.ctrlOff.toNat + 7 * k.toNat)
              infoOff := BitVec.ofNat 16 (s.ctrlOff.toNat + 7 * k.toNat + 2)
              len := BitVec.ofNat 16 (s.ctrlOff.toNat + 7 * k.toNat + 2)
              bitlen := BitVec.ofNat 20 (8 * (s.ctrlOff.toNat + 7 * k.toNat + 2))
              npaths := BitVec.ofNat 4 (s.npaths.toNat + k.toNat)
              fcsv := false, code := .ok, res := 0#32 } ∧
            new.length = 7 * k.toNat + 2 ∧
            ∀ i, t.fbByte i =
              if s.ctrlOff.toNat ≤ i ∧ i < s.ctrlOff.toNat + new.length then new.getD (i - s.ctrlOff.toNat) 0#8
              else if i + 1 = s.ctrlOff.toNat then s.fbByte i &&& 0xFE#8
              else s.fbByte i)))

/-- Rule R169: INS_INFO, its failures in order and its effect. -/
def Obligations.InsInfoEffect : Prop :=
  ∀ (s : State) (a : BitVec 16) (n : Nat), n = s.arg1.toNat →
    encode (.insInfo a) = a ++ 0#8 ++ 0x34#8 ∧
    (s.fstate ≠ .hasSrc ∧ s.fstate ≠ .complete →
      exec (.insInfo a) s = .next { s with code := .notReady, res := 0#32 }) ∧
    (s.fstate = .hasSrc ∨ s.fstate = .complete →
      (s.cfg.argMax < a.toNat + n → exec (.insInfo a) s = .next { s with code := .badArg, res := 0#32 }) ∧
      (a.toNat + n ≤ s.cfg.argMax → s.cfg.frameMax < s.infoOff.toNat + n + 3 →
        exec (.insInfo a) s = .next { s with code := .overflow, res := 0#32 }) ∧
      (a.toNat + n ≤ s.cfg.argMax → s.infoOff.toNat + n + 3 ≤ s.cfg.frameMax →
        ∃ t, exec (.insInfo a) s = .next t ∧
          t = { s with
            fb := t.fb
            len := BitVec.ofNat 16 (s.infoOff.toNat + n), bitlen := BitVec.ofNat 20 (8 * (s.infoOff.toNat + n))
            fstate := .complete, readable := true, fcsv := false, code := .ok, res := 0#32 } ∧
          ∀ i, t.fbByte i =
            if s.infoOff.toNat ≤ i ∧ i < s.infoOff.toNat + n then s.abByte (a.toNat + (i - s.infoOff.toNat))
            else s.fbByte i))

/-- Rule R170: FLAG_APPEND. -/
def Obligations.FlagAppendEffect : Prop :=
  ∀ s : State,
    encode .flagAppend = 0x00000035#32 ∧
    (s.fstate = .empty ∨ s.fstate = .hasDest ∨ s.fstate = .hasSrc →
      exec .flagAppend s = .next { s with code := .notReady, res := 0#32 }) ∧
    (s.fstate ≠ .empty → s.fstate ≠ .hasDest → s.fstate ≠ .hasSrc →
      (s.cfg.frameMax < s.len.toNat + 1 → exec .flagAppend s = .next { s with code := .overflow, res := 0#32 }) ∧
      (s.len.toNat + 1 ≤ s.cfg.frameMax →
        ∃ t, exec .flagAppend s = .next t ∧
          t = { s with
            fb := t.fb
            len := BitVec.ofNat 16 (s.len.toNat + 1), bitlen := BitVec.ofNat 20 (8 * (s.len.toNat + 1))
            code := .ok, res := 0#32 } ∧
          ∀ i, t.fbByte i = if i = s.len.toNat then 0x7E#8 else s.fbByte i))

/-- Rule R171: the table of frame states, for the commands: the NR columns, the state after OK, and the state after a
failure, which only VALIDATE's changes. -/
def Obligations.FrameStateTable : Prop :=
  ∀ (i : Instr) (s t : State), exec i s = .next t →
    (notReadyIn i s.fstate = true → t = { s with code := .notReady, res := 0#32 }) ∧
    (t.code = .ok → t.fstate = fstateAfter i s.fstate) ∧
    (t.code ≠ .ok → t.fstate = if i = .validate then .invalid else s.fstate)

/-- Rule R172 (b): after a successful INS_INFO, FCS_APPEND and then FLAG_APPEND succeed and fill exactly the bytes INS_INFO
kept room for, inside FB. -/
def Obligations.ReadableFrameCanBeClosed : Prop :=
  ∀ (s t : State) (a : BitVec 16), s.Inv → exec (.insInfo a) s = .next t → t.code = .ok →
    ∃ u v, exec .fcsAppend t = .next u ∧ u.code = .ok ∧ exec .flagAppend u = .next v ∧ v.code = .ok ∧
      v.len.toNat = s.infoOff.toNat + s.arg1.toNat + 3 ∧ v.len.toNat ≤ v.cfg.frameMax ∧
      v.fcsOff.toNat = s.infoOff.toNat + s.arg1.toNat ∧ v.fbByte (v.len.toNat - 1) = 0x7E#8

/-! ### Frame parser -/

/-- Rules R200 and R201: PARSE_OFFSETS, with the two scans as a least and a greatest index. -/
def Obligations.ParseOffsetsEffect : Prop :=
  ∀ s : State,
    encode .parseOffsets = 0x00000040#32 ∧
    ((∀ i, 15 ≤ i → i < s.len.toNat → s.fbByte i ≠ 0x03#8) →
      exec .parseOffsets s = .next { s with code := .notFound, res := 1#32 }) ∧
    (∀ c, IsLeast {i | 15 ≤ i ∧ i < s.len.toNat ∧ s.fbByte i = 0x03#8} c →
      ((∀ i, c + 4 ≤ i → i < s.len.toNat → s.fbByte i ≠ 0x7E#8) →
        exec .parseOffsets s = .next { s with code := .notFound, res := 2#32 }) ∧
      (∀ e, IsGreatest {i | c + 4 ≤ i ∧ i < s.len.toNat ∧ s.fbByte i = 0x7E#8} e →
        exec .parseOffsets s = .next
          { s with
            ctrlOff := BitVec.ofNat 16 c, infoOff := BitVec.ofNat 16 (c + 2), fcsOff := BitVec.ofNat 16 (e - 2)
            offv := true, fcsv := true, code := .ok, res := 0#32 }))

/-- Rules R202, R203 and R204, the reasons 1 to 3: FB, LEN and BITLEN are unchanged. -/
def Obligations.ValidateRejectsUnframedStream : Prop :=
  ∀ s : State,
    (s.bitlen.toNat < 8 ∨ s.fbByte 0 ≠ 0x7E#8 →
      exec .validate s = .next { s with
        fstate := .invalid, readable := false, offv := false, fcsv := false, code := .invalid, res := 1#32 }) ∧
    (8 ≤ s.bitlen.toNat → s.fbByte 0 = 0x7E#8 →
      ((∀ j, 8 ≤ j → j + 8 ≤ s.bitlen.toNat → s.bits j 8 ≠ [false, true, true, true, true, true, true, false]) →
        exec .validate s = .next { s with
          fstate := .invalid, readable := false, offv := false, fcsv := false, code := .invalid, res := 2#32 }) ∧
      (∀ p, IsLeast {j | 8 ≤ j ∧ j + 8 ≤ s.bitlen.toNat ∧ s.bits j 8 = [false, true, true, true, true, true, true, false]} p →
        (unstuff (s.bits 8 (p - 8))).length % 8 ≠ 0 →
        exec .validate s = .next { s with
          fstate := .invalid, readable := false, offv := false, fcsv := false, code := .invalid, res := 3#32 }))

/-- Rules R202, R203 and R204, from the unstuffed body on: the reasons 4 to 6 and success. `u` is the frame after the
rewrite in place: m whole bytes from FB[1], then the flag. The premise on BITLEN is rule R36. -/
def Obligations.ValidateUnstuffsAndChecks : Prop :=
  ∀ (s : State) (p m : Nat), s.bitlen.toNat ≤ 8 * s.cfg.frameMax → s.fbByte 0 = 0x7E#8 →
    IsLeast {j | 8 ≤ j ∧ j + 8 ≤ s.bitlen.toNat ∧ s.bits j 8 = [false, true, true, true, true, true, true, false]} p →
    (unstuff (s.bits 8 (p - 8))).length = 8 * m →
    ∃ u : State,
      u = { s with fb := u.fb, len := BitVec.ofNat 16 (m + 2), bitlen := BitVec.ofNat 20 (8 * (m + 2)) } ∧
      m + 2 ≤ s.cfg.frameMax ∧
      u.bits 8 (8 * m) = unstuff (s.bits 8 (p - 8)) ∧ u.fbByte (m + 1) = 0x7E#8 ∧
      (∀ i, i = 0 ∨ m + 2 ≤ i → u.fbByte i = s.fbByte i) ∧
      ((∀ i, 15 ≤ i → i < m + 2 → u.fbByte i ≠ 0x03#8) →
        exec .validate s = .next { u with
          fstate := .invalid, readable := false, offv := false, fcsv := false, code := .invalid, res := 4#32 }) ∧
      (∀ c, IsLeast {i | 15 ≤ i ∧ i < m + 2 ∧ u.fbByte i = 0x03#8} c →
        ((∀ i, c + 4 ≤ i → i < m + 2 → u.fbByte i ≠ 0x7E#8) →
          exec .validate s = .next { u with
            fstate := .invalid, readable := false, offv := false, fcsv := false, code := .invalid, res := 5#32 }) ∧
        (∀ e, IsGreatest {i | c + 4 ≤ i ∧ i < m + 2 ∧ u.fbByte i = 0x7E#8} e →
          ((fcs (u.fbBytes 1 (e - 3))).toNat ≠ (u.fbByte (e - 2)).toNat + 256 * (u.fbByte (e - 1)).toNat →
            exec .validate s = .next { u with
              ctrlOff := BitVec.ofNat 16 c, infoOff := BitVec.ofNat 16 (c + 2), fcsOff := BitVec.ofNat 16 (e - 2)
              fstate := .invalid, readable := false, offv := false, fcsv := false
              code := .invalid, res := 6#32 }) ∧
          ((fcs (u.fbBytes 1 (e - 3))).toNat = (u.fbByte (e - 2)).toNat + 256 * (u.fbByte (e - 1)).toNat →
            exec .validate s = .next { u with
              ctrlOff := BitVec.ofNat 16 c, infoOff := BitVec.ofNat 16 (c + 2), fcsOff := BitVec.ofNat 16 (e - 2)
              fstate := .valid, readable := true, offv := true, fcsv := true, code := .ok, res := 0#32 })))

/-- Rule R45, its last sentence: what holds immediately after a successful VALIDATE. -/
def Obligations.ValidFrameShape : Prop :=
  ∀ s t : State, s.Inv → exec .validate s = .next t → t.code = .ok →
    t.fbByte 0 = 0x7E#8 ∧ t.fbByte (t.len.toNat - 1) = 0x7E#8 ∧ t.offv = true ∧ t.fcsv = true ∧
    t.fcsOff.toNat + 3 = t.len.toNat ∧ exec .crcCheck t = .next { t with code := .ok, res := 1#32 }

/-- Rules R205 and R206: GET_SOURCE. `body` is the six shifted characters without their trailing spaces. -/
def Obligations.GetSourceEffect : Prop :=
  ∀ (s : State) (a : BitVec 16) (body T : List Byte) (k v : Nat),
    (s.fbBytes 8 6).map (fun x : Byte => BitVec.ofNat 8 (x.toNat / 2)) = body ++ List.replicate k 0x20#8 →
    body.getLast? ≠ some 0x20#8 →
    v = (s.fbByte 14).toNat / 2 % 16 →
    T = body ++ (if v = 0 then [] else if v < 10 then [0x2D#8, BitVec.ofNat 8 (0x30 + v)]
      else [0x2D#8, 0x31#8, BitVec.ofNat 8 (0x30 + (v - 10))]) →
    encode (.getSource a) = a ++ 0#8 ++ 0x42#8 ∧
    (s.fstate ≠ .hasSrc ∧ s.fstate ≠ .complete ∧ s.fstate ≠ .valid →
      exec (.getSource a) s = .next { s with code := .notReady, res := 0#32 }) ∧
    (s.fstate = .hasSrc ∨ s.fstate = .complete ∨ s.fstate = .valid →
      (s.cfg.argMax < a.toNat + T.length →
        exec (.getSource a) s = .next { s with code := .badArg, res := 0#32 }) ∧
      (a.toNat + T.length ≤ s.cfg.argMax →
        ∃ t, exec (.getSource a) s = .next t ∧
          t = { s with ab := t.ab, code := .ok, res := BitVec.ofNat 32 T.length } ∧
          ∀ i, t.abByte i =
            if a.toNat ≤ i ∧ i < a.toNat + T.length then T.getD (i - a.toNat) 0#8 else s.abByte i))

/-- Rule R207: the address round trip, over INS_DEST (any operands), INS_SRC with C and v, and GET_SOURCE. -/
def Obligations.AddressRoundTrip : Prop :=
  ∀ (s t u : State) (a0 a1 a2 : BitVec 16) (n0 n1 : BitVec 3) (s0 v : BitVec 4) (C T : List Byte),
    exec (.insDest a0 n0 s0) s = .next t → t.code = .ok →
    exec (.insSrc a1 n1 v) t = .next u → u.code = .ok →
    C = s.abBytes a1.toNat n1.toNat → C.length ≤ 6 → (∀ b ∈ C, b.toNat < 0x80) →
    (∃ z, C.getLast? = some z ∧ z ≠ 0x20#8) →
    T = C ++ (if v.toNat = 0 then [] else if v.toNat < 10 then [0x2D#8, BitVec.ofNat 8 (0x30 + v.toNat)]
      else [0x2D#8, 0x31#8, BitVec.ofNat 8 (0x30 + (v.toNat - 10))]) →
    a2.toNat + T.length ≤ s.cfg.argMax →
    ∃ w, exec (.getSource a2) u = .next w ∧ w.code = .ok ∧ w.res.toNat = T.length ∧
      w.abBytes a2.toNat T.length = T

/-- Rule R208, its first law: a frame that the builder completes and closes, then stuffed between its flags, validates, and
FB, LEN and the offsets are the builder's. -/
def Obligations.BuiltFrameValidates : Prop :=
  ∀ (s t1 t2 t3 t4 : State) (a : BitVec 16), s.Inv → s.Built → s.fstate = .hasSrc ∨ s.fstate = .complete →
    exec (.insInfo a) s = .next t1 → t1.code = .ok →
    exec .fcsAppend t1 = .next t2 → exec .flagAppend t2 = .next t3 →
    exec .stuff { t3 with arg0 := 8#32, arg1 := BitVec.ofNat 32 (t3.bitlen.toNat - 16) } = .next t4 → t4.code = .ok →
    ∃ v, exec .validate t4 = .next v ∧ v.code = .ok ∧ v.fstate = .valid ∧ v.len = t3.len ∧
      (∀ i, i < t3.len.toNat → v.fbByte i = t3.fbByte i) ∧
      v.ctrlOff = t3.ctrlOff ∧ v.infoOff = t3.infoOff ∧ v.fcsOff.toNat + 3 = t3.len.toNat

/-- Rule R208, its second law: the same with a preamble and NRZI on the line. `r` is the receiving block after the Host has
copied the bytes and written LEN; only what the receive commands read of it is fixed. -/
def Obligations.BuiltFrameValidatesOverTheLine : Prop :=
  ∀ (s t1 t2 t3 t4 t5 t6 r t8 t9 : State) (a : BitVec 16) (start : Bool),
    s.Inv → s.Built → s.fstate = .hasSrc ∨ s.fstate = .complete →
    exec (.insInfo a) s = .next t1 → t1.code = .ok →
    exec .fcsAppend t1 = .next t2 → exec .flagAppend t2 = .next t3 →
    exec .stuff { t3 with arg0 := 8#32, arg1 := BitVec.ofNat 32 (t3.bitlen.toNat - 16) } = .next t4 → t4.code = .ok →
    t4.patBytes.head? ≠ some 0x7E#8 →
    exec .syncPreamble t4 = .next t5 → t5.code = .ok →
    exec (.nrziEnc start) { t5 with arg0 := 0#32, arg1 := BitVec.ofNat 32 t5.bitlen.toNat } = .next t6 →
    r.cfg = t6.cfg → r.syncPat = t6.syncPat → r.len = t6.len → r.bitlen = BitVec.ofNat 20 (8 * t6.len.toNat) →
    (∀ i, i < t6.len.toNat → r.fbByte i = t6.fbByte i) →
    exec (.nrziDec start) { r with arg0 := 0#32, arg1 := BitVec.ofNat 32 r.bitlen.toNat } = .next t8 →
    exec .syncStrip t8 = .next t9 →
    ∃ v, exec .validate t9 = .next v ∧ v.code = .ok ∧ v.fstate = .valid ∧ v.len = t3.len ∧
      (∀ i, i < t3.len.toNat → v.fbByte i = t3.fbByte i) ∧
      v.ctrlOff = t3.ctrlOff ∧ v.infoOff = t3.infoOff ∧ v.fcsOff.toNat + 3 = t3.len.toNat

/-! ### Sync-word unit -/

/-- Rule R230: PATV and its byte form, most significant byte first. -/
def Obligations.PatternByteForm : Prop :=
  ∀ s : State,
    s.cfg.syncBits ∈ [8, 16, 24, 32] ∧ s.cfg.syncBytes = s.cfg.syncBits / 8 ∧
    s.patv.toNat = s.syncPat.toNat % 2 ^ s.cfg.syncBits ∧ s.patBytes.length = s.cfg.syncBytes ∧
    ∀ j, j < s.cfg.syncBytes →
      (s.patBytes.getD j 0#8).toNat = s.patv.toNat / 2 ^ (s.cfg.syncBits - 8 - 8 * j) % 256

/-- Rule R234: SYNC_CTL. -/
def Obligations.SyncCtlEffect : Prop :=
  ∀ s : State,
    (∀ en, encode (.syncCtl en) = 0#23 ++ BitVec.ofBool en ++ 0x50#8) ∧
    exec (.syncCtl true) s = .next
      { s with syncSr := 0#32, syncCnt := 0, syncDet := false, syncEn := true, code := .ok, res := 0#32 } ∧
    exec (.syncCtl false) s = .next { s with syncDet := false, syncEn := false, code := .ok, res := 0#32 }

/-- Rule R235: SYNC_STRIP removes the q whole leading copies of P. The premise is rule R36. -/
def Obligations.SyncStripEffect : Prop :=
  ∀ (s : State) (q r : Nat), s.len.toNat = (s.bitlen.toNat + 7) / 8 →
    r = q * s.cfg.syncBytes → r ≤ s.bitlen.toNat / 8 →
    (∀ k, k < q → s.fbBytes (k * s.cfg.syncBytes) s.cfg.syncBytes = s.patBytes) →
    ¬(r + s.cfg.syncBytes ≤ s.bitlen.toNat / 8 ∧ s.fbBytes r s.cfg.syncBytes = s.patBytes) →
    encode .syncStrip = 0x00000051#32 ∧
    ∃ t, exec .syncStrip s = .next t ∧
      t = { s with
        fb := t.fb
        bitlen := BitVec.ofNat 20 (s.bitlen.toNat - 8 * r), len := BitVec.ofNat 16 ((s.bitlen.toNat - 8 * r + 7) / 8)
        fstate := .raw, readable := false, offv := false, fcsv := false
        code := .ok, res := BitVec.ofNat 32 r } ∧
      ∀ i, t.fbByte i = if i < s.len.toNat - r then s.fbByte (i + r) else s.fbByte i

/-- Rule R236: SYNC_PREAMBLE. -/
def Obligations.SyncPreambleEffect : Prop :=
  ∀ (s : State) (w : Nat), w = s.cfg.syncBytes →
    encode .syncPreamble = 0x00000052#32 ∧
    (s.cfg.frameMax < s.len.toNat + 2 * w →
      exec .syncPreamble s = .next { s with code := .overflow, res := 0#32 }) ∧
    (s.len.toNat + 2 * w ≤ s.cfg.frameMax →
      ∃ t, exec .syncPreamble s = .next t ∧
        t = { s with
          fb := t.fb
          bitlen := BitVec.ofNat 20 (s.bitlen.toNat + 16 * w), len := BitVec.ofNat 16 (s.len.toNat + 2 * w)
          fstate := .raw, readable := false, offv := false, fcsv := false
          code := .ok, res := BitVec.ofNat 32 (2 * w) } ∧
        ∀ i, t.fbByte i =
          if i < w then s.patBytes.getD i 0#8
          else if i < 2 * w then s.patBytes.getD (i - w) 0#8
          else if i < 2 * w + s.len.toNat then s.fbByte (i - 2 * w)
          else s.fbByte i)

/-- Rule R236, a corner case: SYNC_STRIP undoes SYNC_PREAMBLE, provided the old stream did not begin with P. -/
def Obligations.StripUndoesPreamble : Prop :=
  ∀ s t u : State, s.Inv →
    ¬(s.cfg.syncBytes ≤ s.bitlen.toNat / 8 ∧ s.fbBytes 0 s.cfg.syncBytes = s.patBytes) →
    exec .syncPreamble s = .next t → t.code = .ok → exec .syncStrip t = .next u →
    u.res = t.res ∧ u.len = s.len ∧ u.bitlen = s.bitlen ∧ ∀ i, i < s.len.toNat → u.fbByte i = s.fbByte i

/-- Rules R232 and R234: a detector armed by SYNC_CTL 1 has detected the pattern after some line bits exactly when SYNC_BITS
consecutive ones among them, most significant first, are PATV. -/
def Obligations.DetectorFindsExactlyThePattern : Prop :=
  ∀ (s t : State) (bs : Bits), exec (.syncCtl true) s = .next t →
    ((bs.foldl State.lineBit t).syncDet = true ↔
      ∃ n, s.cfg.syncBits ≤ n ∧ n ≤ bs.length ∧
        ((bs.take n).drop (n - s.cfg.syncBits)).foldl (fun v b => 2 * v + b.toNat) 0 =
          s.syncPat.toNat % 2 ^ s.cfg.syncBits)

/-! ### The whole machine -/

/-- Rule R263: a command that ends in any code other than OK changes only CODE and RES, but for VALIDATE. -/
def Obligations.FailureChangesOnlyCodeAndRes : Prop :=
  ∀ (i : Instr) (s t : State), exec i s = .next t → t.code ≠ .ok →
    (i ≠ .validate → t = { s with code := t.code, res := t.res }) ∧
    (i = .validate → t.code = .invalid ∧ t.fstate = .invalid ∧ t.readable = false ∧ t.offv = false ∧ t.fcsv = false ∧
      1 ≤ t.res.toNat ∧ t.res.toNat ≤ 6 ∧ t.npaths = s.npaths ∧ t.nrzst = s.nrzst ∧ t.ab = s.ab ∧
      t.syncEn = s.syncEn ∧ t.syncDet = s.syncDet ∧ t.syncSr = s.syncSr ∧ t.syncCnt = s.syncCnt ∧
      (t.res.toNat ≤ 3 → t.fb = s.fb ∧ t.len = s.len ∧ t.bitlen = s.bitlen ∧
        t.ctrlOff = s.ctrlOff ∧ t.infoOff = s.infoOff ∧ t.fcsOff = s.fcsOff))

/-- Rules R28, R29, R36, R38, R42, R74 and the register columns of rule R45: every step keeps the invariant. -/
def Obligations.StepKeepsInv : Prop :=
  ∀ s t : State, s.Inv → step s = .next t → t.Inv

/-- The state after reset has the invariant and is a built (empty) frame, whatever the parameters. -/
def Obligations.ResetHasInv : Prop :=
  State.reset.Inv ∧ State.reset.Built

/-- Rules R45 and R172 (d): every step but a Host write into FB keeps the frame as the builder leaves it. -/
def Obligations.StepKeepsBuiltFrame : Prop :=
  ∀ s t : State, s.Inv → s.Built → (∀ e rest, s.inputs = e :: rest → e.writesFb = false) → step s = .next t → t.Built

/-- Rule R68: the Line shares with the commands only the sync state, so a line bit before any command other than SYNC_CTL
gives what the same bit after it gives. -/
def Obligations.LineBitCommutesWithCommands : Prop :=
  ∀ (i : Instr) (s t : State) (b : Bool), (∀ en, i ≠ .syncCtl en) → exec i s = .next t →
    exec i (s.lineBit b) = .next (t.lineBit b)
end

