-- ==== Sys2Proof/Laws/Memory.lean ====
section
/-! SUPPORT. The memory operations: read after write, the canonical form, and the bound on the entries. -/

namespace Sys2Proof.Machine

@[simp] theorem Memory.read_nil (i : Nat) : Memory.read [] i = none := rfl

theorem Memory.read_cons (k : Nat) (v : Byte) (m : Memory) (i : Nat) :
    Memory.read ((k, v) :: m) i = if k = i then some v else Memory.read m i := rfl

/-- Read after write: the byte written, and every other index as before. -/
theorem Memory.read_write (m : Memory) (i : Nat) (b : Byte) (j : Nat) :
    (Memory.write m i b).read j = if j = i then some b else Memory.read m j := by
  induction m with
  | nil => simp [Memory.write, Memory.read_cons, eq_comm]
  | cons c m ih =>
    obtain ⟨k, v⟩ := c
    simp only [Memory.write]
    split
    · simp only [Memory.read_cons, eq_comm (a := i)]
    · split
      · subst_vars; simp only [Memory.read_cons, eq_comm (a := j)]; split <;> rfl
      · simp only [Memory.read_cons, ih]; split <;> split <;> simp_all

/-- Read after a write of consecutive bytes. -/
theorem Memory.read_writeBytes (bs : List Byte) (m : Memory) (a j : Nat) :
    (Memory.writeBytes m a bs).read j =
      if a ≤ j ∧ j < a + bs.length then bs[j - a]? else Memory.read m j := by
  induction bs generalizing m a with
  | nil => simp [Memory.writeBytes]
  | cons b bs ih =>
    rw [Memory.writeBytes, ih, Memory.read_write]
    by_cases h : j = a
    · subst h; simp
    · by_cases h2 : a + 1 ≤ j ∧ j < a + 1 + bs.length
      · rw [if_pos h2, if_pos (by simp; omega)]
        rw [show j - a = (j - (a + 1)) + 1 by omega, List.getElem?_cons_succ]
      · rw [if_neg h2, if_neg h, if_neg (by simp; omega)]

theorem Memory.read_filled (n : Nat) (b : Byte) (j : Nat) :
    (Memory.filled n b).read j = if j < n then some b else none := by
  induction n with
  | zero => simp [Memory.filled]
  | succ n ih =>
    have happ : ∀ (l m : Memory), Memory.read (l ++ m) j = (Memory.read l j).or (Memory.read m j) := by
      intro l m
      induction l with
      | nil => simp
      | cons c l ihl => obtain ⟨k, v⟩ := c; simp only [List.cons_append, Memory.read_cons]; split <;> simp [ihl]
    simp only [Memory.filled, List.range_succ, List.map_append, happ] at *
    rw [ih]
    simp only [List.map_cons, List.map_nil, Memory.read_cons, Memory.read_nil]
    split <;> split <;> first | rfl | (simp; omega)

/-- The canonical form as the library's sortedness, for induction. -/
theorem Memory.wf_iff (m : Memory) : m.wf = true ↔ m.Pairwise (fun c d => c.1 < d.1) := by
  induction m with
  | nil => simp [Memory.wf]
  | cons c m ih =>
    obtain ⟨k, v⟩ := c
    cases m with
    | nil => simp [Memory.wf]
    | cons d m =>
      obtain ⟨k', v'⟩ := d
      simp only [Memory.wf, Bool.and_eq_true, decide_eq_true_eq, ih]
      rw [List.pairwise_cons (a := (k, v))]
      constructor
      · rintro ⟨h, hp⟩
        refine ⟨fun e he => ?_, hp⟩
        rcases List.mem_cons.mp he with rfl | he
        · exact h
        · exact lt_trans h ((List.pairwise_cons.mp hp).1 e he)
      · rintro ⟨h, hp⟩
        exact ⟨h (k', v') List.mem_cons_self, hp⟩

theorem Memory.mem_write (m : Memory) (i : Nat) (b : Byte) (c : Host.Cell) (h : c ∈ Memory.write m i b) :
    c = (i, b) ∨ c ∈ m := by
  induction m with
  | nil => simpa [Memory.write] using h
  | cons d m ih =>
    obtain ⟨k, v⟩ := d
    simp only [Memory.write] at h
    split at h
    · simpa using h
    · split at h
      · rcases List.mem_cons.mp h with h | h
        · exact .inl h
        · exact .inr (List.mem_cons_of_mem _ h)
      · rcases List.mem_cons.mp h with h | h
        · exact .inr (by simp [h])
        · exact (ih h).imp id (List.mem_cons_of_mem _)

/-- A write keeps the canonical form. -/
theorem Memory.wf_write {m : Memory} (hm : m.wf = true) (i : Nat) (b : Byte) : (m.write i b).wf = true := by
  rw [Memory.wf_iff] at *
  induction m with
  | nil => simp [Memory.write]
  | cons d m ih =>
    obtain ⟨k, v⟩ := d
    have hp := List.pairwise_cons.mp hm
    simp only [Memory.write]
    split
    · rename_i hik
      refine List.pairwise_cons.mpr ⟨fun e he => ?_, hm⟩
      rcases List.mem_cons.mp he with rfl | he
      · exact hik
      · exact lt_trans hik (hp.1 e he)
    · split
      · subst_vars; exact List.pairwise_cons.mpr ⟨hp.1, hp.2⟩
      · refine List.pairwise_cons.mpr ⟨fun e he => ?_, ih hp.2⟩
        rcases Memory.mem_write _ _ _ _ he with rfl | he
        · dsimp only; omega
        · exact hp.1 e he

/-- A write of consecutive bytes keeps the canonical form. -/
theorem Memory.wf_writeBytes (bs : List Byte) {m : Memory} (hm : m.wf = true) (a : Nat) :
    (m.writeBytes a bs).wf = true := by
  induction bs generalizing m a with
  | nil => exact hm
  | cons b bs ih => exact ih (Memory.wf_write hm a b) (a + 1)

theorem Memory.wf_filled (n : Nat) (b : Byte) : (Memory.filled n b).wf = true := by
  rw [Memory.wf_iff, Memory.filled, List.pairwise_map]
  exact List.pairwise_lt_range

theorem Memory.below_write {m : Memory} {n : Nat} (hm : m.below n = true) {i : Nat} (hi : i < n) (b : Byte) :
    (m.write i b).below n = true := by
  simp only [Memory.below, List.all_eq_true, decide_eq_true_eq] at *
  intro c hc
  rcases Memory.mem_write _ _ _ _ hc with rfl | hc
  · exact hi
  · exact hm c hc

theorem Memory.below_writeBytes (bs : List Byte) {m : Memory} {n : Nat} (hm : m.below n = true) {a : Nat}
    (ha : a + bs.length ≤ n) : (m.writeBytes a bs).below n = true := by
  induction bs generalizing m a with
  | nil => exact hm
  | cons b bs ih =>
    simp only [List.length_cons] at ha
    exact ih (Memory.below_write hm (by omega) b) (by omega)

theorem Memory.below_filled (n : Nat) (b : Byte) : (Memory.filled n b).below n = true := by
  simp [Memory.below, Memory.filled]

end Sys2Proof.Machine
end

