-- ==== Sys2Proof/Laws/State.lean ====
section
/-! SUPPORT. What each shared update does to each field of the state: one lemma per field per update. -/

namespace Sys2Proof.Machine

/-! ### finish -/

@[simp] theorem finish_cmd (s : State) (r : Word) : (s.finish r).cmd = s.cmd := rfl
@[simp] theorem finish_arg0 (s : State) (r : Word) : (s.finish r).arg0 = s.arg0 := rfl
@[simp] theorem finish_arg1 (s : State) (r : Word) : (s.finish r).arg1 = s.arg1 := rfl
@[simp] theorem finish_code (s : State) (r : Word) : (s.finish r).code = .ok := rfl
@[simp] theorem finish_fstate (s : State) (r : Word) : (s.finish r).fstate = s.fstate := rfl
@[simp] theorem finish_readable (s : State) (r : Word) : (s.finish r).readable = s.readable := rfl
@[simp] theorem finish_offv (s : State) (r : Word) : (s.finish r).offv = s.offv := rfl
@[simp] theorem finish_fcsv (s : State) (r : Word) : (s.finish r).fcsv = s.fcsv := rfl
@[simp] theorem finish_nrzst (s : State) (r : Word) : (s.finish r).nrzst = s.nrzst := rfl
@[simp] theorem finish_syncEn (s : State) (r : Word) : (s.finish r).syncEn = s.syncEn := rfl
@[simp] theorem finish_syncDet (s : State) (r : Word) : (s.finish r).syncDet = s.syncDet := rfl
@[simp] theorem finish_res (s : State) (r : Word) : (s.finish r).res = r := rfl
@[simp] theorem finish_len (s : State) (r : Word) : (s.finish r).len = s.len := rfl
@[simp] theorem finish_bitlen (s : State) (r : Word) : (s.finish r).bitlen = s.bitlen := rfl
@[simp] theorem finish_ctrlOff (s : State) (r : Word) : (s.finish r).ctrlOff = s.ctrlOff := rfl
@[simp] theorem finish_infoOff (s : State) (r : Word) : (s.finish r).infoOff = s.infoOff := rfl
@[simp] theorem finish_fcsOff (s : State) (r : Word) : (s.finish r).fcsOff = s.fcsOff := rfl
@[simp] theorem finish_npaths (s : State) (r : Word) : (s.finish r).npaths = s.npaths := rfl
@[simp] theorem finish_syncPat (s : State) (r : Word) : (s.finish r).syncPat = s.syncPat := rfl
@[simp] theorem finish_syncSr (s : State) (r : Word) : (s.finish r).syncSr = s.syncSr := rfl
@[simp] theorem finish_syncCnt (s : State) (r : Word) : (s.finish r).syncCnt = s.syncCnt := rfl
@[simp] theorem finish_fb (s : State) (r : Word) : (s.finish r).fb = s.fb := rfl
@[simp] theorem finish_ab (s : State) (r : Word) : (s.finish r).ab = s.ab := rfl
@[simp] theorem finish_cfg (s : State) (r : Word) : (s.finish r).cfg = s.cfg := rfl
@[simp] theorem finish_inputs (s : State) (r : Word) : (s.finish r).inputs = s.inputs := rfl
@[simp] theorem finish_hostData (s : State) (r : Word) : (s.finish r).hostData = s.hostData := rfl
@[simp] theorem finish_resets (s : State) (r : Word) : (s.finish r).resets = s.resets := rfl

/-! ### raise -/

@[simp] theorem raise_cmd (s : State) (c : Code) (r : Word) : (s.raise c r).cmd = s.cmd := rfl
@[simp] theorem raise_arg0 (s : State) (c : Code) (r : Word) : (s.raise c r).arg0 = s.arg0 := rfl
@[simp] theorem raise_arg1 (s : State) (c : Code) (r : Word) : (s.raise c r).arg1 = s.arg1 := rfl
@[simp] theorem raise_code (s : State) (c : Code) (r : Word) : (s.raise c r).code = c := rfl
@[simp] theorem raise_fstate (s : State) (c : Code) (r : Word) : (s.raise c r).fstate = s.fstate := rfl
@[simp] theorem raise_readable (s : State) (c : Code) (r : Word) : (s.raise c r).readable = s.readable := rfl
@[simp] theorem raise_offv (s : State) (c : Code) (r : Word) : (s.raise c r).offv = s.offv := rfl
@[simp] theorem raise_fcsv (s : State) (c : Code) (r : Word) : (s.raise c r).fcsv = s.fcsv := rfl
@[simp] theorem raise_nrzst (s : State) (c : Code) (r : Word) : (s.raise c r).nrzst = s.nrzst := rfl
@[simp] theorem raise_syncEn (s : State) (c : Code) (r : Word) : (s.raise c r).syncEn = s.syncEn := rfl
@[simp] theorem raise_syncDet (s : State) (c : Code) (r : Word) : (s.raise c r).syncDet = s.syncDet := rfl
@[simp] theorem raise_res (s : State) (c : Code) (r : Word) : (s.raise c r).res = r := rfl
@[simp] theorem raise_len (s : State) (c : Code) (r : Word) : (s.raise c r).len = s.len := rfl
@[simp] theorem raise_bitlen (s : State) (c : Code) (r : Word) : (s.raise c r).bitlen = s.bitlen := rfl
@[simp] theorem raise_ctrlOff (s : State) (c : Code) (r : Word) : (s.raise c r).ctrlOff = s.ctrlOff := rfl
@[simp] theorem raise_infoOff (s : State) (c : Code) (r : Word) : (s.raise c r).infoOff = s.infoOff := rfl
@[simp] theorem raise_fcsOff (s : State) (c : Code) (r : Word) : (s.raise c r).fcsOff = s.fcsOff := rfl
@[simp] theorem raise_npaths (s : State) (c : Code) (r : Word) : (s.raise c r).npaths = s.npaths := rfl
@[simp] theorem raise_syncPat (s : State) (c : Code) (r : Word) : (s.raise c r).syncPat = s.syncPat := rfl
@[simp] theorem raise_syncSr (s : State) (c : Code) (r : Word) : (s.raise c r).syncSr = s.syncSr := rfl
@[simp] theorem raise_syncCnt (s : State) (c : Code) (r : Word) : (s.raise c r).syncCnt = s.syncCnt := rfl
@[simp] theorem raise_fb (s : State) (c : Code) (r : Word) : (s.raise c r).fb = s.fb := rfl
@[simp] theorem raise_ab (s : State) (c : Code) (r : Word) : (s.raise c r).ab = s.ab := rfl
@[simp] theorem raise_cfg (s : State) (c : Code) (r : Word) : (s.raise c r).cfg = s.cfg := rfl
@[simp] theorem raise_inputs (s : State) (c : Code) (r : Word) : (s.raise c r).inputs = s.inputs := rfl
@[simp] theorem raise_hostData (s : State) (c : Code) (r : Word) : (s.raise c r).hostData = s.hostData := rfl
@[simp] theorem raise_resets (s : State) (c : Code) (r : Word) : (s.raise c r).resets = s.resets := rfl

/-! ### enter -/

@[simp] theorem enter_cmd (s : State) (f : FState) : (s.enter f).cmd = s.cmd := rfl
@[simp] theorem enter_arg0 (s : State) (f : FState) : (s.enter f).arg0 = s.arg0 := rfl
@[simp] theorem enter_arg1 (s : State) (f : FState) : (s.enter f).arg1 = s.arg1 := rfl
@[simp] theorem enter_code (s : State) (f : FState) : (s.enter f).code = s.code := rfl
@[simp] theorem enter_fstate (s : State) (f : FState) : (s.enter f).fstate = f := rfl
@[simp] theorem enter_readable (s : State) (f : FState) : (s.enter f).readable = f.isReadable := rfl
@[simp] theorem enter_offv (s : State) (f : FState) : (s.enter f).offv = s.offv := rfl
@[simp] theorem enter_fcsv (s : State) (f : FState) : (s.enter f).fcsv = s.fcsv := rfl
@[simp] theorem enter_nrzst (s : State) (f : FState) : (s.enter f).nrzst = s.nrzst := rfl
@[simp] theorem enter_syncEn (s : State) (f : FState) : (s.enter f).syncEn = s.syncEn := rfl
@[simp] theorem enter_syncDet (s : State) (f : FState) : (s.enter f).syncDet = s.syncDet := rfl
@[simp] theorem enter_res (s : State) (f : FState) : (s.enter f).res = s.res := rfl
@[simp] theorem enter_len (s : State) (f : FState) : (s.enter f).len = s.len := rfl
@[simp] theorem enter_bitlen (s : State) (f : FState) : (s.enter f).bitlen = s.bitlen := rfl
@[simp] theorem enter_ctrlOff (s : State) (f : FState) : (s.enter f).ctrlOff = s.ctrlOff := rfl
@[simp] theorem enter_infoOff (s : State) (f : FState) : (s.enter f).infoOff = s.infoOff := rfl
@[simp] theorem enter_fcsOff (s : State) (f : FState) : (s.enter f).fcsOff = s.fcsOff := rfl
@[simp] theorem enter_npaths (s : State) (f : FState) : (s.enter f).npaths = s.npaths := rfl
@[simp] theorem enter_syncPat (s : State) (f : FState) : (s.enter f).syncPat = s.syncPat := rfl
@[simp] theorem enter_syncSr (s : State) (f : FState) : (s.enter f).syncSr = s.syncSr := rfl
@[simp] theorem enter_syncCnt (s : State) (f : FState) : (s.enter f).syncCnt = s.syncCnt := rfl
@[simp] theorem enter_fb (s : State) (f : FState) : (s.enter f).fb = s.fb := rfl
@[simp] theorem enter_ab (s : State) (f : FState) : (s.enter f).ab = s.ab := rfl
@[simp] theorem enter_cfg (s : State) (f : FState) : (s.enter f).cfg = s.cfg := rfl
@[simp] theorem enter_inputs (s : State) (f : FState) : (s.enter f).inputs = s.inputs := rfl
@[simp] theorem enter_hostData (s : State) (f : FState) : (s.enter f).hostData = s.hostData := rfl
@[simp] theorem enter_resets (s : State) (f : FState) : (s.enter f).resets = s.resets := rfl

/-! ### markRaw -/

@[simp] theorem markRaw_cmd (s : State) : s.markRaw.cmd = s.cmd := rfl
@[simp] theorem markRaw_arg0 (s : State) : s.markRaw.arg0 = s.arg0 := rfl
@[simp] theorem markRaw_arg1 (s : State) : s.markRaw.arg1 = s.arg1 := rfl
@[simp] theorem markRaw_code (s : State) : s.markRaw.code = s.code := rfl
@[simp] theorem markRaw_fstate (s : State) : s.markRaw.fstate = .raw := rfl
@[simp] theorem markRaw_readable (s : State) : s.markRaw.readable = false := rfl
@[simp] theorem markRaw_offv (s : State) : s.markRaw.offv = false := rfl
@[simp] theorem markRaw_fcsv (s : State) : s.markRaw.fcsv = false := rfl
@[simp] theorem markRaw_nrzst (s : State) : s.markRaw.nrzst = s.nrzst := rfl
@[simp] theorem markRaw_syncEn (s : State) : s.markRaw.syncEn = s.syncEn := rfl
@[simp] theorem markRaw_syncDet (s : State) : s.markRaw.syncDet = s.syncDet := rfl
@[simp] theorem markRaw_res (s : State) : s.markRaw.res = s.res := rfl
@[simp] theorem markRaw_len (s : State) : s.markRaw.len = s.len := rfl
@[simp] theorem markRaw_bitlen (s : State) : s.markRaw.bitlen = s.bitlen := rfl
@[simp] theorem markRaw_ctrlOff (s : State) : s.markRaw.ctrlOff = s.ctrlOff := rfl
@[simp] theorem markRaw_infoOff (s : State) : s.markRaw.infoOff = s.infoOff := rfl
@[simp] theorem markRaw_fcsOff (s : State) : s.markRaw.fcsOff = s.fcsOff := rfl
@[simp] theorem markRaw_npaths (s : State) : s.markRaw.npaths = s.npaths := rfl
@[simp] theorem markRaw_syncPat (s : State) : s.markRaw.syncPat = s.syncPat := rfl
@[simp] theorem markRaw_syncSr (s : State) : s.markRaw.syncSr = s.syncSr := rfl
@[simp] theorem markRaw_syncCnt (s : State) : s.markRaw.syncCnt = s.syncCnt := rfl
@[simp] theorem markRaw_fb (s : State) : s.markRaw.fb = s.fb := rfl
@[simp] theorem markRaw_ab (s : State) : s.markRaw.ab = s.ab := rfl
@[simp] theorem markRaw_cfg (s : State) : s.markRaw.cfg = s.cfg := rfl
@[simp] theorem markRaw_inputs (s : State) : s.markRaw.inputs = s.inputs := rfl
@[simp] theorem markRaw_hostData (s : State) : s.markRaw.hostData = s.hostData := rfl
@[simp] theorem markRaw_resets (s : State) : s.markRaw.resets = s.resets := rfl

/-! ### setFb -/

@[simp] theorem setFb_cmd (s : State) (a : Nat) (bs : List Byte) : (s.setFb a bs).cmd = s.cmd := rfl
@[simp] theorem setFb_arg0 (s : State) (a : Nat) (bs : List Byte) : (s.setFb a bs).arg0 = s.arg0 := rfl
@[simp] theorem setFb_arg1 (s : State) (a : Nat) (bs : List Byte) : (s.setFb a bs).arg1 = s.arg1 := rfl
@[simp] theorem setFb_code (s : State) (a : Nat) (bs : List Byte) : (s.setFb a bs).code = s.code := rfl
@[simp] theorem setFb_fstate (s : State) (a : Nat) (bs : List Byte) : (s.setFb a bs).fstate = s.fstate := rfl
@[simp] theorem setFb_readable (s : State) (a : Nat) (bs : List Byte) : (s.setFb a bs).readable = s.readable := rfl
@[simp] theorem setFb_offv (s : State) (a : Nat) (bs : List Byte) : (s.setFb a bs).offv = s.offv := rfl
@[simp] theorem setFb_fcsv (s : State) (a : Nat) (bs : List Byte) : (s.setFb a bs).fcsv = s.fcsv := rfl
@[simp] theorem setFb_nrzst (s : State) (a : Nat) (bs : List Byte) : (s.setFb a bs).nrzst = s.nrzst := rfl
@[simp] theorem setFb_syncEn (s : State) (a : Nat) (bs : List Byte) : (s.setFb a bs).syncEn = s.syncEn := rfl
@[simp] theorem setFb_syncDet (s : State) (a : Nat) (bs : List Byte) : (s.setFb a bs).syncDet = s.syncDet := rfl
@[simp] theorem setFb_res (s : State) (a : Nat) (bs : List Byte) : (s.setFb a bs).res = s.res := rfl
@[simp] theorem setFb_len (s : State) (a : Nat) (bs : List Byte) : (s.setFb a bs).len = s.len := rfl
@[simp] theorem setFb_bitlen (s : State) (a : Nat) (bs : List Byte) : (s.setFb a bs).bitlen = s.bitlen := rfl
@[simp] theorem setFb_ctrlOff (s : State) (a : Nat) (bs : List Byte) : (s.setFb a bs).ctrlOff = s.ctrlOff := rfl
@[simp] theorem setFb_infoOff (s : State) (a : Nat) (bs : List Byte) : (s.setFb a bs).infoOff = s.infoOff := rfl
@[simp] theorem setFb_fcsOff (s : State) (a : Nat) (bs : List Byte) : (s.setFb a bs).fcsOff = s.fcsOff := rfl
@[simp] theorem setFb_npaths (s : State) (a : Nat) (bs : List Byte) : (s.setFb a bs).npaths = s.npaths := rfl
@[simp] theorem setFb_syncPat (s : State) (a : Nat) (bs : List Byte) : (s.setFb a bs).syncPat = s.syncPat := rfl
@[simp] theorem setFb_syncSr (s : State) (a : Nat) (bs : List Byte) : (s.setFb a bs).syncSr = s.syncSr := rfl
@[simp] theorem setFb_syncCnt (s : State) (a : Nat) (bs : List Byte) : (s.setFb a bs).syncCnt = s.syncCnt := rfl
@[simp] theorem setFb_fb (s : State) (a : Nat) (bs : List Byte) : (s.setFb a bs).fb = s.fb.writeBytes a bs := rfl
@[simp] theorem setFb_ab (s : State) (a : Nat) (bs : List Byte) : (s.setFb a bs).ab = s.ab := rfl
@[simp] theorem setFb_cfg (s : State) (a : Nat) (bs : List Byte) : (s.setFb a bs).cfg = s.cfg := rfl
@[simp] theorem setFb_inputs (s : State) (a : Nat) (bs : List Byte) : (s.setFb a bs).inputs = s.inputs := rfl
@[simp] theorem setFb_hostData (s : State) (a : Nat) (bs : List Byte) : (s.setFb a bs).hostData = s.hostData := rfl
@[simp] theorem setFb_resets (s : State) (a : Nat) (bs : List Byte) : (s.setFb a bs).resets = s.resets := rfl

/-! ### setAb -/

@[simp] theorem setAb_cmd (s : State) (a : Nat) (bs : List Byte) : (s.setAb a bs).cmd = s.cmd := rfl
@[simp] theorem setAb_arg0 (s : State) (a : Nat) (bs : List Byte) : (s.setAb a bs).arg0 = s.arg0 := rfl
@[simp] theorem setAb_arg1 (s : State) (a : Nat) (bs : List Byte) : (s.setAb a bs).arg1 = s.arg1 := rfl
@[simp] theorem setAb_code (s : State) (a : Nat) (bs : List Byte) : (s.setAb a bs).code = s.code := rfl
@[simp] theorem setAb_fstate (s : State) (a : Nat) (bs : List Byte) : (s.setAb a bs).fstate = s.fstate := rfl
@[simp] theorem setAb_readable (s : State) (a : Nat) (bs : List Byte) : (s.setAb a bs).readable = s.readable := rfl
@[simp] theorem setAb_offv (s : State) (a : Nat) (bs : List Byte) : (s.setAb a bs).offv = s.offv := rfl
@[simp] theorem setAb_fcsv (s : State) (a : Nat) (bs : List Byte) : (s.setAb a bs).fcsv = s.fcsv := rfl
@[simp] theorem setAb_nrzst (s : State) (a : Nat) (bs : List Byte) : (s.setAb a bs).nrzst = s.nrzst := rfl
@[simp] theorem setAb_syncEn (s : State) (a : Nat) (bs : List Byte) : (s.setAb a bs).syncEn = s.syncEn := rfl
@[simp] theorem setAb_syncDet (s : State) (a : Nat) (bs : List Byte) : (s.setAb a bs).syncDet = s.syncDet := rfl
@[simp] theorem setAb_res (s : State) (a : Nat) (bs : List Byte) : (s.setAb a bs).res = s.res := rfl
@[simp] theorem setAb_len (s : State) (a : Nat) (bs : List Byte) : (s.setAb a bs).len = s.len := rfl
@[simp] theorem setAb_bitlen (s : State) (a : Nat) (bs : List Byte) : (s.setAb a bs).bitlen = s.bitlen := rfl
@[simp] theorem setAb_ctrlOff (s : State) (a : Nat) (bs : List Byte) : (s.setAb a bs).ctrlOff = s.ctrlOff := rfl
@[simp] theorem setAb_infoOff (s : State) (a : Nat) (bs : List Byte) : (s.setAb a bs).infoOff = s.infoOff := rfl
@[simp] theorem setAb_fcsOff (s : State) (a : Nat) (bs : List Byte) : (s.setAb a bs).fcsOff = s.fcsOff := rfl
@[simp] theorem setAb_npaths (s : State) (a : Nat) (bs : List Byte) : (s.setAb a bs).npaths = s.npaths := rfl
@[simp] theorem setAb_syncPat (s : State) (a : Nat) (bs : List Byte) : (s.setAb a bs).syncPat = s.syncPat := rfl
@[simp] theorem setAb_syncSr (s : State) (a : Nat) (bs : List Byte) : (s.setAb a bs).syncSr = s.syncSr := rfl
@[simp] theorem setAb_syncCnt (s : State) (a : Nat) (bs : List Byte) : (s.setAb a bs).syncCnt = s.syncCnt := rfl
@[simp] theorem setAb_fb (s : State) (a : Nat) (bs : List Byte) : (s.setAb a bs).fb = s.fb := rfl
@[simp] theorem setAb_ab (s : State) (a : Nat) (bs : List Byte) : (s.setAb a bs).ab = s.ab.writeBytes a bs := rfl
@[simp] theorem setAb_cfg (s : State) (a : Nat) (bs : List Byte) : (s.setAb a bs).cfg = s.cfg := rfl
@[simp] theorem setAb_inputs (s : State) (a : Nat) (bs : List Byte) : (s.setAb a bs).inputs = s.inputs := rfl
@[simp] theorem setAb_hostData (s : State) (a : Nat) (bs : List Byte) : (s.setAb a bs).hostData = s.hostData := rfl
@[simp] theorem setAb_resets (s : State) (a : Nat) (bs : List Byte) : (s.setAb a bs).resets = s.resets := rfl

/-! ### setLen -/

@[simp] theorem setLen_cmd (s : State) (v : Nat) : (s.setLen v).cmd = s.cmd := rfl
@[simp] theorem setLen_arg0 (s : State) (v : Nat) : (s.setLen v).arg0 = s.arg0 := rfl
@[simp] theorem setLen_arg1 (s : State) (v : Nat) : (s.setLen v).arg1 = s.arg1 := rfl
@[simp] theorem setLen_code (s : State) (v : Nat) : (s.setLen v).code = s.code := rfl
@[simp] theorem setLen_fstate (s : State) (v : Nat) : (s.setLen v).fstate = s.fstate := rfl
@[simp] theorem setLen_readable (s : State) (v : Nat) : (s.setLen v).readable = s.readable := rfl
@[simp] theorem setLen_offv (s : State) (v : Nat) : (s.setLen v).offv = s.offv := rfl
@[simp] theorem setLen_fcsv (s : State) (v : Nat) : (s.setLen v).fcsv = s.fcsv := rfl
@[simp] theorem setLen_nrzst (s : State) (v : Nat) : (s.setLen v).nrzst = s.nrzst := rfl
@[simp] theorem setLen_syncEn (s : State) (v : Nat) : (s.setLen v).syncEn = s.syncEn := rfl
@[simp] theorem setLen_syncDet (s : State) (v : Nat) : (s.setLen v).syncDet = s.syncDet := rfl
@[simp] theorem setLen_res (s : State) (v : Nat) : (s.setLen v).res = s.res := rfl
@[simp] theorem setLen_len (s : State) (v : Nat) : (s.setLen v).len = BitVec.ofNat 16 v := rfl
@[simp] theorem setLen_bitlen (s : State) (v : Nat) : (s.setLen v).bitlen = BitVec.ofNat 20 (8 * v) := rfl
@[simp] theorem setLen_ctrlOff (s : State) (v : Nat) : (s.setLen v).ctrlOff = s.ctrlOff := rfl
@[simp] theorem setLen_infoOff (s : State) (v : Nat) : (s.setLen v).infoOff = s.infoOff := rfl
@[simp] theorem setLen_fcsOff (s : State) (v : Nat) : (s.setLen v).fcsOff = s.fcsOff := rfl
@[simp] theorem setLen_npaths (s : State) (v : Nat) : (s.setLen v).npaths = s.npaths := rfl
@[simp] theorem setLen_syncPat (s : State) (v : Nat) : (s.setLen v).syncPat = s.syncPat := rfl
@[simp] theorem setLen_syncSr (s : State) (v : Nat) : (s.setLen v).syncSr = s.syncSr := rfl
@[simp] theorem setLen_syncCnt (s : State) (v : Nat) : (s.setLen v).syncCnt = s.syncCnt := rfl
@[simp] theorem setLen_fb (s : State) (v : Nat) : (s.setLen v).fb = s.fb := rfl
@[simp] theorem setLen_ab (s : State) (v : Nat) : (s.setLen v).ab = s.ab := rfl
@[simp] theorem setLen_cfg (s : State) (v : Nat) : (s.setLen v).cfg = s.cfg := rfl
@[simp] theorem setLen_inputs (s : State) (v : Nat) : (s.setLen v).inputs = s.inputs := rfl
@[simp] theorem setLen_hostData (s : State) (v : Nat) : (s.setLen v).hostData = s.hostData := rfl
@[simp] theorem setLen_resets (s : State) (v : Nat) : (s.setLen v).resets = s.resets := rfl

/-! ### setBitlen -/

@[simp] theorem setBitlen_cmd (s : State) (m : Nat) : (s.setBitlen m).cmd = s.cmd := rfl
@[simp] theorem setBitlen_arg0 (s : State) (m : Nat) : (s.setBitlen m).arg0 = s.arg0 := rfl
@[simp] theorem setBitlen_arg1 (s : State) (m : Nat) : (s.setBitlen m).arg1 = s.arg1 := rfl
@[simp] theorem setBitlen_code (s : State) (m : Nat) : (s.setBitlen m).code = s.code := rfl
@[simp] theorem setBitlen_fstate (s : State) (m : Nat) : (s.setBitlen m).fstate = s.fstate := rfl
@[simp] theorem setBitlen_readable (s : State) (m : Nat) : (s.setBitlen m).readable = s.readable := rfl
@[simp] theorem setBitlen_offv (s : State) (m : Nat) : (s.setBitlen m).offv = s.offv := rfl
@[simp] theorem setBitlen_fcsv (s : State) (m : Nat) : (s.setBitlen m).fcsv = s.fcsv := rfl
@[simp] theorem setBitlen_nrzst (s : State) (m : Nat) : (s.setBitlen m).nrzst = s.nrzst := rfl
@[simp] theorem setBitlen_syncEn (s : State) (m : Nat) : (s.setBitlen m).syncEn = s.syncEn := rfl
@[simp] theorem setBitlen_syncDet (s : State) (m : Nat) : (s.setBitlen m).syncDet = s.syncDet := rfl
@[simp] theorem setBitlen_res (s : State) (m : Nat) : (s.setBitlen m).res = s.res := rfl
@[simp] theorem setBitlen_len (s : State) (m : Nat) : (s.setBitlen m).len = BitVec.ofNat 16 ((m + 7) / 8) := rfl
@[simp] theorem setBitlen_bitlen (s : State) (m : Nat) : (s.setBitlen m).bitlen = BitVec.ofNat 20 m := rfl
@[simp] theorem setBitlen_ctrlOff (s : State) (m : Nat) : (s.setBitlen m).ctrlOff = s.ctrlOff := rfl
@[simp] theorem setBitlen_infoOff (s : State) (m : Nat) : (s.setBitlen m).infoOff = s.infoOff := rfl
@[simp] theorem setBitlen_fcsOff (s : State) (m : Nat) : (s.setBitlen m).fcsOff = s.fcsOff := rfl
@[simp] theorem setBitlen_npaths (s : State) (m : Nat) : (s.setBitlen m).npaths = s.npaths := rfl
@[simp] theorem setBitlen_syncPat (s : State) (m : Nat) : (s.setBitlen m).syncPat = s.syncPat := rfl
@[simp] theorem setBitlen_syncSr (s : State) (m : Nat) : (s.setBitlen m).syncSr = s.syncSr := rfl
@[simp] theorem setBitlen_syncCnt (s : State) (m : Nat) : (s.setBitlen m).syncCnt = s.syncCnt := rfl
@[simp] theorem setBitlen_fb (s : State) (m : Nat) : (s.setBitlen m).fb = s.fb := rfl
@[simp] theorem setBitlen_ab (s : State) (m : Nat) : (s.setBitlen m).ab = s.ab := rfl
@[simp] theorem setBitlen_cfg (s : State) (m : Nat) : (s.setBitlen m).cfg = s.cfg := rfl
@[simp] theorem setBitlen_inputs (s : State) (m : Nat) : (s.setBitlen m).inputs = s.inputs := rfl
@[simp] theorem setBitlen_hostData (s : State) (m : Nat) : (s.setBitlen m).hostData = s.hostData := rfl
@[simp] theorem setBitlen_resets (s : State) (m : Nat) : (s.setBitlen m).resets = s.resets := rfl

/-! ### placeControl -/

@[simp] theorem placeControl_cmd (s : State) (c : Nat) : (s.placeControl c).cmd = s.cmd := rfl
@[simp] theorem placeControl_arg0 (s : State) (c : Nat) : (s.placeControl c).arg0 = s.arg0 := rfl
@[simp] theorem placeControl_arg1 (s : State) (c : Nat) : (s.placeControl c).arg1 = s.arg1 := rfl
@[simp] theorem placeControl_code (s : State) (c : Nat) : (s.placeControl c).code = s.code := rfl
@[simp] theorem placeControl_fstate (s : State) (c : Nat) : (s.placeControl c).fstate = s.fstate := rfl
@[simp] theorem placeControl_readable (s : State) (c : Nat) : (s.placeControl c).readable = s.readable := rfl
@[simp] theorem placeControl_offv (s : State) (c : Nat) : (s.placeControl c).offv = true := rfl
@[simp] theorem placeControl_fcsv (s : State) (c : Nat) : (s.placeControl c).fcsv = false := rfl
@[simp] theorem placeControl_nrzst (s : State) (c : Nat) : (s.placeControl c).nrzst = s.nrzst := rfl
@[simp] theorem placeControl_syncEn (s : State) (c : Nat) : (s.placeControl c).syncEn = s.syncEn := rfl
@[simp] theorem placeControl_syncDet (s : State) (c : Nat) : (s.placeControl c).syncDet = s.syncDet := rfl
@[simp] theorem placeControl_res (s : State) (c : Nat) : (s.placeControl c).res = s.res := rfl
@[simp] theorem placeControl_len (s : State) (c : Nat) : (s.placeControl c).len = BitVec.ofNat 16 (c + 2) := rfl
@[simp] theorem placeControl_bitlen (s : State) (c : Nat) : (s.placeControl c).bitlen = BitVec.ofNat 20 (8 * (c + 2)) := rfl
@[simp] theorem placeControl_ctrlOff (s : State) (c : Nat) : (s.placeControl c).ctrlOff = BitVec.ofNat 16 c := rfl
@[simp] theorem placeControl_infoOff (s : State) (c : Nat) : (s.placeControl c).infoOff = BitVec.ofNat 16 (c + 2) := rfl
@[simp] theorem placeControl_fcsOff (s : State) (c : Nat) : (s.placeControl c).fcsOff = s.fcsOff := rfl
@[simp] theorem placeControl_npaths (s : State) (c : Nat) : (s.placeControl c).npaths = s.npaths := rfl
@[simp] theorem placeControl_syncPat (s : State) (c : Nat) : (s.placeControl c).syncPat = s.syncPat := rfl
@[simp] theorem placeControl_syncSr (s : State) (c : Nat) : (s.placeControl c).syncSr = s.syncSr := rfl
@[simp] theorem placeControl_syncCnt (s : State) (c : Nat) : (s.placeControl c).syncCnt = s.syncCnt := rfl
@[simp] theorem placeControl_fb (s : State) (c : Nat) : (s.placeControl c).fb = s.fb := rfl
@[simp] theorem placeControl_ab (s : State) (c : Nat) : (s.placeControl c).ab = s.ab := rfl
@[simp] theorem placeControl_cfg (s : State) (c : Nat) : (s.placeControl c).cfg = s.cfg := rfl
@[simp] theorem placeControl_inputs (s : State) (c : Nat) : (s.placeControl c).inputs = s.inputs := rfl
@[simp] theorem placeControl_hostData (s : State) (c : Nat) : (s.placeControl c).hostData = s.hostData := rfl
@[simp] theorem placeControl_resets (s : State) (c : Nat) : (s.placeControl c).resets = s.resets := rfl

/-! ### recordOffsets -/

@[simp] theorem recordOffsets_cmd (s : State) (c e : Nat) : (s.recordOffsets c e).cmd = s.cmd := rfl
@[simp] theorem recordOffsets_arg0 (s : State) (c e : Nat) : (s.recordOffsets c e).arg0 = s.arg0 := rfl
@[simp] theorem recordOffsets_arg1 (s : State) (c e : Nat) : (s.recordOffsets c e).arg1 = s.arg1 := rfl
@[simp] theorem recordOffsets_code (s : State) (c e : Nat) : (s.recordOffsets c e).code = s.code := rfl
@[simp] theorem recordOffsets_fstate (s : State) (c e : Nat) : (s.recordOffsets c e).fstate = s.fstate := rfl
@[simp] theorem recordOffsets_readable (s : State) (c e : Nat) : (s.recordOffsets c e).readable = s.readable := rfl
@[simp] theorem recordOffsets_offv (s : State) (c e : Nat) : (s.recordOffsets c e).offv = true := rfl
@[simp] theorem recordOffsets_fcsv (s : State) (c e : Nat) : (s.recordOffsets c e).fcsv = true := rfl
@[simp] theorem recordOffsets_nrzst (s : State) (c e : Nat) : (s.recordOffsets c e).nrzst = s.nrzst := rfl
@[simp] theorem recordOffsets_syncEn (s : State) (c e : Nat) : (s.recordOffsets c e).syncEn = s.syncEn := rfl
@[simp] theorem recordOffsets_syncDet (s : State) (c e : Nat) : (s.recordOffsets c e).syncDet = s.syncDet := rfl
@[simp] theorem recordOffsets_res (s : State) (c e : Nat) : (s.recordOffsets c e).res = s.res := rfl
@[simp] theorem recordOffsets_len (s : State) (c e : Nat) : (s.recordOffsets c e).len = s.len := rfl
@[simp] theorem recordOffsets_bitlen (s : State) (c e : Nat) : (s.recordOffsets c e).bitlen = s.bitlen := rfl
@[simp] theorem recordOffsets_ctrlOff (s : State) (c e : Nat) : (s.recordOffsets c e).ctrlOff = BitVec.ofNat 16 c := rfl
@[simp] theorem recordOffsets_infoOff (s : State) (c e : Nat) : (s.recordOffsets c e).infoOff = BitVec.ofNat 16 (c + 2) := rfl
@[simp] theorem recordOffsets_fcsOff (s : State) (c e : Nat) : (s.recordOffsets c e).fcsOff = BitVec.ofNat 16 (e - 2) := rfl
@[simp] theorem recordOffsets_npaths (s : State) (c e : Nat) : (s.recordOffsets c e).npaths = s.npaths := rfl
@[simp] theorem recordOffsets_syncPat (s : State) (c e : Nat) : (s.recordOffsets c e).syncPat = s.syncPat := rfl
@[simp] theorem recordOffsets_syncSr (s : State) (c e : Nat) : (s.recordOffsets c e).syncSr = s.syncSr := rfl
@[simp] theorem recordOffsets_syncCnt (s : State) (c e : Nat) : (s.recordOffsets c e).syncCnt = s.syncCnt := rfl
@[simp] theorem recordOffsets_fb (s : State) (c e : Nat) : (s.recordOffsets c e).fb = s.fb := rfl
@[simp] theorem recordOffsets_ab (s : State) (c e : Nat) : (s.recordOffsets c e).ab = s.ab := rfl
@[simp] theorem recordOffsets_cfg (s : State) (c e : Nat) : (s.recordOffsets c e).cfg = s.cfg := rfl
@[simp] theorem recordOffsets_inputs (s : State) (c e : Nat) : (s.recordOffsets c e).inputs = s.inputs := rfl
@[simp] theorem recordOffsets_hostData (s : State) (c e : Nat) : (s.recordOffsets c e).hostData = s.hostData := rfl
@[simp] theorem recordOffsets_resets (s : State) (c e : Nat) : (s.recordOffsets c e).resets = s.resets := rfl

/-! ### invalidate -/

@[simp] theorem invalidate_cmd (s : State) (r : Word) : (s.invalidate r).cmd = s.cmd := rfl
@[simp] theorem invalidate_arg0 (s : State) (r : Word) : (s.invalidate r).arg0 = s.arg0 := rfl
@[simp] theorem invalidate_arg1 (s : State) (r : Word) : (s.invalidate r).arg1 = s.arg1 := rfl
@[simp] theorem invalidate_code (s : State) (r : Word) : (s.invalidate r).code = .invalid := rfl
@[simp] theorem invalidate_fstate (s : State) (r : Word) : (s.invalidate r).fstate = .invalid := rfl
@[simp] theorem invalidate_readable (s : State) (r : Word) : (s.invalidate r).readable = false := rfl
@[simp] theorem invalidate_offv (s : State) (r : Word) : (s.invalidate r).offv = false := rfl
@[simp] theorem invalidate_fcsv (s : State) (r : Word) : (s.invalidate r).fcsv = false := rfl
@[simp] theorem invalidate_nrzst (s : State) (r : Word) : (s.invalidate r).nrzst = s.nrzst := rfl
@[simp] theorem invalidate_syncEn (s : State) (r : Word) : (s.invalidate r).syncEn = s.syncEn := rfl
@[simp] theorem invalidate_syncDet (s : State) (r : Word) : (s.invalidate r).syncDet = s.syncDet := rfl
@[simp] theorem invalidate_res (s : State) (r : Word) : (s.invalidate r).res = r := rfl
@[simp] theorem invalidate_len (s : State) (r : Word) : (s.invalidate r).len = s.len := rfl
@[simp] theorem invalidate_bitlen (s : State) (r : Word) : (s.invalidate r).bitlen = s.bitlen := rfl
@[simp] theorem invalidate_ctrlOff (s : State) (r : Word) : (s.invalidate r).ctrlOff = s.ctrlOff := rfl
@[simp] theorem invalidate_infoOff (s : State) (r : Word) : (s.invalidate r).infoOff = s.infoOff := rfl
@[simp] theorem invalidate_fcsOff (s : State) (r : Word) : (s.invalidate r).fcsOff = s.fcsOff := rfl
@[simp] theorem invalidate_npaths (s : State) (r : Word) : (s.invalidate r).npaths = s.npaths := rfl
@[simp] theorem invalidate_syncPat (s : State) (r : Word) : (s.invalidate r).syncPat = s.syncPat := rfl
@[simp] theorem invalidate_syncSr (s : State) (r : Word) : (s.invalidate r).syncSr = s.syncSr := rfl
@[simp] theorem invalidate_syncCnt (s : State) (r : Word) : (s.invalidate r).syncCnt = s.syncCnt := rfl
@[simp] theorem invalidate_fb (s : State) (r : Word) : (s.invalidate r).fb = s.fb := rfl
@[simp] theorem invalidate_ab (s : State) (r : Word) : (s.invalidate r).ab = s.ab := rfl
@[simp] theorem invalidate_cfg (s : State) (r : Word) : (s.invalidate r).cfg = s.cfg := rfl
@[simp] theorem invalidate_inputs (s : State) (r : Word) : (s.invalidate r).inputs = s.inputs := rfl
@[simp] theorem invalidate_hostData (s : State) (r : Word) : (s.invalidate r).hostData = s.hostData := rfl
@[simp] theorem invalidate_resets (s : State) (r : Word) : (s.invalidate r).resets = s.resets := rfl

/-! ### clearFrame -/

@[simp] theorem clearFrame_cmd (s : State) : s.clearFrame.cmd = s.cmd := rfl
@[simp] theorem clearFrame_arg0 (s : State) : s.clearFrame.arg0 = s.arg0 := rfl
@[simp] theorem clearFrame_arg1 (s : State) : s.clearFrame.arg1 = s.arg1 := rfl
@[simp] theorem clearFrame_code (s : State) : s.clearFrame.code = s.code := rfl
@[simp] theorem clearFrame_fstate (s : State) : s.clearFrame.fstate = .empty := rfl
@[simp] theorem clearFrame_readable (s : State) : s.clearFrame.readable = false := rfl
@[simp] theorem clearFrame_offv (s : State) : s.clearFrame.offv = false := rfl
@[simp] theorem clearFrame_fcsv (s : State) : s.clearFrame.fcsv = false := rfl
@[simp] theorem clearFrame_nrzst (s : State) : s.clearFrame.nrzst = s.nrzst := rfl
@[simp] theorem clearFrame_syncEn (s : State) : s.clearFrame.syncEn = s.syncEn := rfl
@[simp] theorem clearFrame_syncDet (s : State) : s.clearFrame.syncDet = s.syncDet := rfl
@[simp] theorem clearFrame_res (s : State) : s.clearFrame.res = s.res := rfl
@[simp] theorem clearFrame_len (s : State) : s.clearFrame.len = 0#16 := rfl
@[simp] theorem clearFrame_bitlen (s : State) : s.clearFrame.bitlen = 0#20 := rfl
@[simp] theorem clearFrame_ctrlOff (s : State) : s.clearFrame.ctrlOff = 0#16 := rfl
@[simp] theorem clearFrame_infoOff (s : State) : s.clearFrame.infoOff = 0#16 := rfl
@[simp] theorem clearFrame_fcsOff (s : State) : s.clearFrame.fcsOff = 0#16 := rfl
@[simp] theorem clearFrame_npaths (s : State) : s.clearFrame.npaths = 0#4 := rfl
@[simp] theorem clearFrame_syncPat (s : State) : s.clearFrame.syncPat = s.syncPat := rfl
@[simp] theorem clearFrame_syncSr (s : State) : s.clearFrame.syncSr = s.syncSr := rfl
@[simp] theorem clearFrame_syncCnt (s : State) : s.clearFrame.syncCnt = s.syncCnt := rfl
@[simp] theorem clearFrame_fb (s : State) : s.clearFrame.fb = Memory.filled s.cfg.frameMax 0#8 := rfl
@[simp] theorem clearFrame_ab (s : State) : s.clearFrame.ab = s.ab := rfl
@[simp] theorem clearFrame_cfg (s : State) : s.clearFrame.cfg = s.cfg := rfl
@[simp] theorem clearFrame_inputs (s : State) : s.clearFrame.inputs = s.inputs := rfl
@[simp] theorem clearFrame_hostData (s : State) : s.clearFrame.hostData = s.hostData := rfl
@[simp] theorem clearFrame_resets (s : State) : s.clearFrame.resets = s.resets := rfl

end Sys2Proof.Machine
end

