-- ==== Sys2Proof/Laws/Buffers.lean ====
section
/-! SUPPORT. FB and AB by byte and by bit: what every write leaves to read, and the packing of bit sequences. -/

namespace Sys2Proof.Machine

/-! ### Bytes -/

@[simp] theorem fbByte_finish (s : State) (r : Word) (i : Nat) : (s.finish r).fbByte i = s.fbByte i := rfl
@[simp] theorem fbByte_raise (s : State) (c : Code) (r : Word) (i : Nat) : (s.raise c r).fbByte i = s.fbByte i := rfl
@[simp] theorem fbByte_enter (s : State) (f : FState) (i : Nat) : (s.enter f).fbByte i = s.fbByte i := rfl
@[simp] theorem fbByte_markRaw (s : State) (i : Nat) : s.markRaw.fbByte i = s.fbByte i := rfl
@[simp] theorem fbByte_setAb (s : State) (a : Nat) (bs : List Byte) (i : Nat) : (s.setAb a bs).fbByte i = s.fbByte i := rfl
@[simp] theorem fbByte_setLen (s : State) (v i : Nat) : (s.setLen v).fbByte i = s.fbByte i := rfl
@[simp] theorem fbByte_setBitlen (s : State) (m i : Nat) : (s.setBitlen m).fbByte i = s.fbByte i := rfl
@[simp] theorem fbByte_placeControl (s : State) (c i : Nat) : (s.placeControl c).fbByte i = s.fbByte i := rfl
@[simp] theorem fbByte_recordOffsets (s : State) (c e i : Nat) : (s.recordOffsets c e).fbByte i = s.fbByte i := rfl
@[simp] theorem fbByte_invalidate (s : State) (r : Word) (i : Nat) : (s.invalidate r).fbByte i = s.fbByte i := rfl

/-- FB[i] depends on nothing but the written bytes and the count of resets. -/
theorem fbByte_congr {s t : State} (hf : t.fb = s.fb) (hr : t.resets = s.resets) (i : Nat) :
    t.fbByte i = s.fbByte i := by simp only [State.fbByte, hf, hr]

/-- AB[i] depends on nothing but the written bytes and the count of resets. -/
theorem abByte_congr {s t : State} (ha : t.ab = s.ab) (hr : t.resets = s.resets) (i : Nat) :
    t.abByte i = s.abByte i := by simp only [State.abByte, ha, hr]

/-- FB after a write: the bytes written, every other byte as before. -/
theorem fbByte_setFb (s : State) (a : Nat) (bs : List Byte) (i : Nat) :
    (s.setFb a bs).fbByte i = if a ≤ i ∧ i < a + bs.length then bs.getD (i - a) 0#8 else s.fbByte i := by
  simp only [State.fbByte, setFb_fb, setFb_resets, Memory.read_writeBytes]
  split
  · rename_i h
    rw [List.getElem?_eq_getElem (by omega), List.getD_eq_getElem _ _ (by omega)]; rfl
  · rfl

/-- AB after a write: the bytes written, every other byte as before. -/
theorem abByte_setAb (s : State) (a : Nat) (bs : List Byte) (i : Nat) :
    (s.setAb a bs).abByte i = if a ≤ i ∧ i < a + bs.length then bs.getD (i - a) 0#8 else s.abByte i := by
  simp only [State.abByte, setAb_ab, setAb_resets, Memory.read_writeBytes]
  split
  · rename_i h
    rw [List.getElem?_eq_getElem (by omega), List.getD_eq_getElem _ _ (by omega)]; rfl
  · rfl

/-- ClearFrame() zeroes every byte of FB (42_frame_builder.md rule R163). -/
theorem fbByte_clearFrame (s : State) {i : Nat} (h : i < s.cfg.frameMax) : s.clearFrame.fbByte i = 0#8 := by
  simp [State.fbByte, Memory.read_filled, h]

@[simp] theorem length_fbBytes (s : State) (a n : Nat) : (s.fbBytes a n).length = n := by simp [State.fbBytes]
@[simp] theorem length_abBytes (s : State) (a n : Nat) : (s.abBytes a n).length = n := by simp [State.abBytes]

theorem getElem_fbBytes (s : State) (a n k : Nat) (h : k < (s.fbBytes a n).length) :
    (s.fbBytes a n)[k] = s.fbByte (a + k) := by simp [State.fbBytes]

theorem getElem_abBytes (s : State) (a n k : Nat) (h : k < (s.abBytes a n).length) :
    (s.abBytes a n)[k] = s.abByte (a + k) := by simp [State.abBytes]

theorem getD_fbBytes (s : State) (a : Nat) {n k : Nat} (h : k < n) : (s.fbBytes a n).getD k 0#8 = s.fbByte (a + k) := by
  rw [List.getD_eq_getElem _ _ (by simpa using h), getElem_fbBytes]

theorem getD_abBytes (s : State) (a : Nat) {n k : Nat} (h : k < n) : (s.abBytes a n).getD k 0#8 = s.abByte (a + k) := by
  rw [List.getD_eq_getElem _ _ (by simpa using h), getElem_abBytes]

theorem fbBytes_congr {s t : State} {a n : Nat} (h : ∀ i, a ≤ i → i < a + n → t.fbByte i = s.fbByte i) :
    t.fbBytes a n = s.fbBytes a n := by
  simp only [State.fbBytes]
  exact List.map_congr_left fun k hk => h _ (by omega) (by have := List.mem_range.mp hk; omega)

theorem fbBytes_append (s : State) (a m n : Nat) : s.fbBytes a (m + n) = s.fbBytes a m ++ s.fbBytes (a + m) n := by
  simp [State.fbBytes, List.range_add, Nat.add_assoc]

/-! ### Bits -/

@[simp] theorem length_bits (s : State) (a n : Nat) : (s.bits a n).length = n := by simp [State.bits]

theorem getElem_bits (s : State) (a n k : Nat) (h : k < (s.bits a n).length) : (s.bits a n)[k] = s.bit (a + k) := by
  simp [State.bits]

theorem getD_bits (s : State) (a : Nat) {n k : Nat} (h : k < n) : (s.bits a n).getD k false = s.bit (a + k) := by
  rw [List.getD_eq_getElem _ _ (by simpa using h), getElem_bits]

theorem bits_append (s : State) (a m n : Nat) : s.bits a (m + n) = s.bits a m ++ s.bits (a + m) n := by
  simp [State.bits, List.range_add, Nat.add_assoc]

theorem bit_congr {s t : State} {j : Nat} (h : t.fbByte (j / 8) = s.fbByte (j / 8)) : t.bit j = s.bit j := by
  simp only [State.bit, h]

theorem bits_congr {s t : State} {a n : Nat} (h : ∀ j, a ≤ j → j < a + n → t.bit j = s.bit j) :
    t.bits a n = s.bits a n := by
  simp only [State.bits]
  exact List.map_congr_left fun k hk => h _ (by omega) (by have := List.mem_range.mp hk; omega)

/-- A byte of FB is its eight bits of the bit view. -/
theorem fbByte_eq_of_bits {s t : State} {i i' : Nat} (h : ∀ k, k < 8 → t.bit (8 * i + k) = s.bit (8 * i' + k)) :
    t.fbByte i = s.fbByte i' := by
  refine BitVec.eq_of_getLsbD_eq fun k hk => ?_
  have := h (7 - k) (by omega)
  simp only [State.bit, show (8 * i + (7 - k)) / 8 = i by omega, show (8 * i' + (7 - k)) / 8 = i' by omega,
    show 7 - (8 * i + (7 - k)) % 8 = k by omega, show 7 - (8 * i' + (7 - k)) % 8 = k by omega] at this
  exact this

/-- Bit k of a packed byte, most significant first (20_memory.md rule R62). -/
theorem getLsbD_packedByte (S : Bits) (i : Nat) {k : Nat} (h : k < 8) :
    (packedByte S i).getLsbD (7 - k) = S.getD (8 * i + k) false := by
  have key : ∀ f : Fin 8 → Bool, ∀ k : Fin 8,
      (BitVec.ofNat 8 ((List.finRange 8).foldl (fun v j => 2 * v + (f j).toNat) 0)).getLsbD (7 - k.val) = f k := by decide +kernel
  have := key (fun j => S.getD (8 * i + j.val) false) ⟨k, h⟩
  rw [← this]
  rfl

@[simp] theorem length_packBits (S : Bits) : (packBits S).length = (S.length + 7) / 8 := by simp [packBits]

theorem getD_packBits (S : Bits) {i : Nat} (h : i < (S.length + 7) / 8) : (packBits S).getD i 0#8 = packedByte S i := by
  rw [List.getD_eq_getElem _ _ (by simpa using h)]; simp [packBits]

/-- The bit view after a packed sequence is written at a byte boundary: the sequence, then 0 pad bits; the rest as before. -/
theorem bit_setFb_packBits (s : State) (a : Nat) (S : Bits) (j : Nat) :
    (s.setFb a (packBits S)).bit j =
      if 8 * a ≤ j ∧ j < 8 * (a + (S.length + 7) / 8) then S.getD (j - 8 * a) false else s.bit j := by
  simp only [State.bit, fbByte_setFb, length_packBits]
  by_cases h : 8 * a ≤ j ∧ j < 8 * (a + (S.length + 7) / 8)
  · rw [if_pos h, if_pos (by omega), getD_packBits _ (by omega), getLsbD_packedByte _ _ (by omega)]
    congr 1; omega
  · rw [if_neg h, if_neg (by omega)]

/-- The stream after WriteStream(S) is S (20_memory.md rule R62). -/
theorem bits_setFb_packBits (s : State) (a : Nat) (S : Bits) :
    (s.setFb a (packBits S)).bits (8 * a) S.length = S := by
  refine List.ext_getElem (by simp) fun k h1 h2 => ?_
  rw [getElem_bits, bit_setFb_packBits, if_pos (by omega), List.getD_eq_getElem _ _ (by omega)]
  congr 1; omega

theorem getLsbD_putBit (x : Byte) {k : Nat} (hk : k < 8) (b : Bool) {i : Nat} (hi : i < 8) :
    (putBit x k b).getLsbD i = if i = k then b else x.getLsbD i := by
  have key : ∀ (k i : Fin 8) (b : Bool) (c : Bool),
      ((c && !(1#8 <<< k.val).getLsbD i.val) || (if b then 1#8 <<< k.val else 0#8).getLsbD i.val) = if i = k then b else c := by
    decide
  have := key ⟨k, hk⟩ ⟨i, hi⟩ b (x.getLsbD i)
  simp only [Fin.mk.injEq] at this
  rw [← this, putBit, BitVec.getLsbD_or, BitVec.getLsbD_and, BitVec.getLsbD_not]
  simp [hi]

/-- Bit(j) <- b changes no other bit. -/
theorem bit_setBit (s : State) (j : Nat) (b : Bool) (i : Nat) :
    (s.setBit j b).bit i = if i = j then b else s.bit i := by
  simp only [State.bit, State.setBit, fbByte_setFb, List.length_cons, List.length_nil, Nat.zero_add]
  by_cases h : i / 8 = j / 8
  · rw [if_pos (by omega), h, Nat.sub_self, List.getD_cons_zero, getLsbD_putBit _ (by omega) _ (by omega)]
    have : (7 - i % 8 = 7 - j % 8) ↔ i = j := by omega
    simp only [this]
  · rw [if_neg (by omega), if_neg (by rintro rfl; exact h rfl)]

/-- In-place writing of a bit sequence (41_bitcodec.md rule R139). -/
theorem bit_setBits (bs : Bits) (s : State) (a i : Nat) :
    (s.setBits a bs).bit i = if a ≤ i ∧ i < a + bs.length then bs.getD (i - a) false else s.bit i := by
  induction bs generalizing s a with
  | nil => rw [if_neg (by simp)]; rfl
  | cons b bs ih =>
    rw [State.setBits, ih, bit_setBit]
    by_cases h : i = a
    · subst h; simp
    · by_cases h2 : a + 1 ≤ i ∧ i < a + 1 + bs.length
      · rw [if_pos h2, if_pos (by simp; omega), show i - a = (i - (a + 1)) + 1 by omega, List.getD_cons_succ]
      · rw [if_neg h2, if_neg h, if_neg (by simp; omega)]

/-- In-place bit writes touch nothing but FB. -/
theorem setBits_eq (bs : Bits) (s : State) (a : Nat) : s.setBits a bs = { s with fb := (s.setBits a bs).fb } := by
  induction bs generalizing s a with
  | nil => rfl
  | cons b bs ih => rw [State.setBits, ih]; rfl

end Sys2Proof.Machine
end

