-- ==== Sys2Proof/Laws/Operations.lean ====
section
/-! SUPPORT. One lemma for each shared operation of the commands: the stream rewrite, the scans of the parser as least and
greatest indices, the stored FCS and the sync pattern as numbers, the lengths of what the builder writes. -/

namespace Sys2Proof.Machine

/-! ### Streams -/

/-- WriteStream(S) touches FB and the two length registers only. -/
theorem writeStream_eq (s : State) (S : Bits) :
    s.writeStream S = { s with
      fb := (s.writeStream S).fb, bitlen := BitVec.ofNat 20 S.length, len := BitVec.ofNat 16 ((S.length + 7) / 8) } := rfl

/-- The bits after WriteStream(S): S, then zeros to the end of its last byte, then what was there. -/
theorem bit_writeStream (s : State) (S : Bits) (j : Nat) :
    (s.writeStream S).bit j = if j < 8 * ((S.length + 7) / 8) then S.getD j false else s.bit j := by
  have h : (s.writeStream S).bit j = (s.setFb 0 (packBits S)).bit j := rfl
  rw [h, bit_setFb_packBits]
  simp

/-- The stream after WriteStream(S) is S. -/
theorem bits_writeStream (s : State) (S : Bits) : (s.writeStream S).bits 0 S.length = S :=
  bits_setFb_packBits s 0 S

theorem length_spliced (s : State) (T : Bits) (h : s.regionFits = true) :
    (s.spliced T).length + s.argCount = s.bitlen.toNat + T.length := by
  simp only [State.regionFits, decide_eq_true_eq] at h
  simp only [State.spliced, State.beforeRegion, State.afterRegion, List.length_append, length_bits]
  omega

theorem length_unstuffFrom_le (S : Bits) (ones : Nat) (skip : Bool) : (unstuffFrom ones skip S).length ≤ S.length := by
  induction S generalizing ones skip with
  | nil => cases skip <;> simp [unstuffFrom]
  | cons b S ih =>
    cases skip <;> cases b <;> simp only [unstuffFrom, List.length_cons]
    · have := ih 0 false; omega
    · have := ih (ones + 1) (decide (ones + 1 = 5)); omega
    · have := ih 0 false; omega
    · have := ih 0 false; omega

theorem length_unstuff_le (S : Bits) : (unstuff S).length ≤ S.length := length_unstuffFrom_le S 0 false

/-! ### The scans of the parser -/

/-- A forward scan of an interval finds its least index with the property. -/
theorem find_range'_eq_some {p : Nat → Bool} {a n i : Nat} :
    (List.range' a n).find? p = some i ↔ IsLeast {j | a ≤ j ∧ j < a + n ∧ p j = true} i := by
  rw [List.find?_range'_eq_some]
  simp only [IsLeast, lowerBounds, Set.mem_ofPred_eq]
  constructor
  · rintro ⟨hp, hm, hmin⟩
    have hm := List.mem_range'_1.mp hm
    refine ⟨⟨hm.1, hm.2, hp⟩, fun j hj => ?_⟩
    by_contra hlt
    have := hmin j hj.1 (by omega)
    simp [hj.2.2] at this
  · rintro ⟨⟨ha, hn, hp⟩, hmin⟩
    refine ⟨hp, List.mem_range'_1.mpr ⟨ha, hn⟩, fun j hj hlt => ?_⟩
    by_contra hpj
    have := @hmin j ⟨hj, by omega, by simpa using hpj⟩
    omega

theorem find_range'_eq_none {p : Nat → Bool} {a n : Nat} :
    (List.range' a n).find? p = none ↔ ∀ j, a ≤ j → j < a + n → p j = false := by
  rw [List.find?_eq_none]
  simp only [List.mem_range'_1]
  exact ⟨fun h j ha hn => by simpa using h j ⟨ha, hn⟩, fun h j hj => by simp [h j hj.1 hj.2]⟩

/-- A backward scan of an interval finds its greatest index with the property. -/
theorem find_reverse_range'_eq_some {p : Nat → Bool} {a n i : Nat} :
    (List.range' a n).reverse.find? p = some i ↔ IsGreatest {j | a ≤ j ∧ j < a + n ∧ p j = true} i := by
  induction n with
  | zero => simp [IsGreatest, upperBounds]; intro h1 h2; omega
  | succ n ih =>
    rw [List.range'_concat, List.reverse_append, List.reverse_singleton, List.singleton_append, List.find?_cons]
    simp only [Nat.one_mul]
    by_cases hp : p (a + n) = true
    · simp only [hp]
      constructor
      · rintro ⟨⟩
        exact ⟨⟨by omega, by omega, hp⟩, fun j hj => by have := hj.2.1; omega⟩
      · rintro ⟨⟨ha, hn, hi⟩, hmax⟩
        have := hmax (show a + n ∈ _ from ⟨by omega, by omega, hp⟩)
        rw [show i = a + n by omega]
    · simp only [Bool.not_eq_true] at hp
      simp only [hp, ih]
      have hset : {j | a ≤ j ∧ j < a + (n + 1) ∧ p j = true} = {j | a ≤ j ∧ j < a + n ∧ p j = true} := by
        ext j
        simp only [Set.mem_ofPred_eq]
        constructor
        · rintro ⟨h1, h2, h3⟩
          refine ⟨h1, ?_, h3⟩
          by_contra hlt
          rw [show j = a + n by omega, hp] at h3
          cases h3
        · rintro ⟨h1, h2, h3⟩; exact ⟨h1, by omega, h3⟩
      rw [hset]

theorem find_reverse_range'_eq_none {p : Nat → Bool} {a n : Nat} :
    (List.range' a n).reverse.find? p = none ↔ ∀ j, a ≤ j → j < a + n → p j = false := by
  rw [List.find?_eq_none]
  simp only [List.mem_reverse, List.mem_range'_1]
  exact ⟨fun h j ha hn => by simpa using h j ⟨ha, hn⟩, fun h j hj => by simp [h j hj.1 hj.2]⟩

/-- The control scan of ParseOffsets() (43_frame_parser.md rule R200). -/
theorem findControl_eq_some {s : State} {c : Nat} :
    s.findControl = some c ↔ IsLeast {i | 15 ≤ i ∧ i < s.len.toNat ∧ s.fbByte i = 0x03#8} c := by
  rw [State.findControl, find_range'_eq_some]
  have : {j | minHeader ≤ j ∧ j < minHeader + (s.len.toNat - minHeader) ∧ (s.fbByte j == ctrlUi) = true} =
      {i | 15 ≤ i ∧ i < s.len.toNat ∧ s.fbByte i = 0x03#8} := by
    ext j
    simp only [Set.mem_ofPred_eq, minHeader, ctrlUi, beq_iff_eq]
    constructor <;> rintro ⟨h1, h2, h3⟩ <;> exact ⟨h1, by omega, h3⟩
  rw [this]

theorem findControl_eq_none {s : State} :
    s.findControl = none ↔ ∀ i, 15 ≤ i → i < s.len.toNat → s.fbByte i ≠ 0x03#8 := by
  rw [State.findControl, find_range'_eq_none]
  simp only [minHeader, ctrlUi, beq_eq_false_iff_ne]
  exact ⟨fun h i h1 h2 => h i h1 (by omega), fun h i h1 h2 => h i h1 (by omega)⟩

/-- The flag scan of ParseOffsets() (43_frame_parser.md rule R200). -/
theorem findFlag_eq_some {s : State} {c e : Nat} :
    s.findFlag c = some e ↔ IsGreatest {i | c + 4 ≤ i ∧ i < s.len.toNat ∧ s.fbByte i = 0x7E#8} e := by
  rw [State.findFlag, find_reverse_range'_eq_some]
  have : {j | c + 4 ≤ j ∧ j < c + 4 + (s.len.toNat - (c + 4)) ∧ (s.fbByte j == flagByte) = true} =
      {i | c + 4 ≤ i ∧ i < s.len.toNat ∧ s.fbByte i = 0x7E#8} := by
    ext j
    simp only [Set.mem_ofPred_eq, flagByte, beq_iff_eq]
    constructor <;> rintro ⟨h1, h2, h3⟩ <;> exact ⟨h1, by omega, h3⟩
  rw [this]

theorem findFlag_eq_none {s : State} {c : Nat} :
    s.findFlag c = none ↔ ∀ i, c + 4 ≤ i → i < s.len.toNat → s.fbByte i ≠ 0x7E#8 := by
  rw [State.findFlag, find_reverse_range'_eq_none]
  simp only [flagByte, beq_eq_false_iff_ne]
  exact ⟨fun h i h1 h2 => h i h1 (by omega), fun h i h1 h2 => h i h1 (by omega)⟩

/-- FindEndFlag() (43_frame_parser.md rule R202). -/
theorem findEndFlag_eq_some {s : State} {p : Nat} :
    s.findEndFlag = some p ↔ IsLeast {j | 8 ≤ j ∧ j + 8 ≤ s.bitlen.toNat ∧ s.bits j 8 = flagBits} p := by
  rw [State.findEndFlag, find_range'_eq_some]
  have : {j | 8 ≤ j ∧ j < 8 + (s.bitlen.toNat - 15) ∧ (s.bits j 8 == flagBits) = true} =
      {j | 8 ≤ j ∧ j + 8 ≤ s.bitlen.toNat ∧ s.bits j 8 = flagBits} := by
    ext j
    simp only [Set.mem_ofPred_eq, beq_iff_eq]
    constructor <;> rintro ⟨h1, h2, h3⟩ <;> exact ⟨h1, by omega, h3⟩
  rw [this]

theorem findEndFlag_eq_none {s : State} :
    s.findEndFlag = none ↔ ∀ j, 8 ≤ j → j + 8 ≤ s.bitlen.toNat → s.bits j 8 ≠ flagBits := by
  rw [State.findEndFlag, find_range'_eq_none]
  simp only [beq_eq_false_iff_ne]
  exact ⟨fun h i h1 h2 => h i h1 (by omega), fun h i h1 h2 => h i h1 (by omega)⟩

/-! ### The stored FCS -/

/-- The FCS stored at i, low byte first (20_memory.md rule R63 (a)). -/
theorem toNat_storedFcs (s : State) (i : Nat) :
    (s.storedFcs i).toNat = (s.fbByte i).toNat + 256 * (s.fbByte (i + 1)).toNat := by
  have key : ∀ x y : Byte, x.setWidth 16 ||| (y.setWidth 16 <<< 8) = y ++ x := by
    intro x y
    refine BitVec.eq_of_getLsbD_eq fun k hk => ?_
    simp only [BitVec.getLsbD_or, BitVec.getLsbD_setWidth, BitVec.getLsbD_shiftLeft, BitVec.getLsbD_append]
    by_cases h : k < 8
    · simp [h, hk]
    · have : x.getLsbD k = false := BitVec.getLsbD_of_ge _ _ (by omega)
      simp [h, hk, this, show k - 8 < 16 by omega]
  rw [State.storedFcs, key, BitVec.toNat_append, Nat.shiftLeft_eq, Nat.mul_comm,
    ← Nat.two_pow_add_eq_or_of_lt (s.fbByte i).isLt]
  omega

/-- The two bytes of an FCS store its value. -/
theorem fcsBytes_eq (c : BitVec 16) : fcsBytes c = [BitVec.ofNat 8 c.toNat, BitVec.ofNat 8 (c.toNat / 256)] := by
  simp [fcsBytes, BitVec.extractLsb', Nat.shiftRight_eq_div_pow]

/-! ### The sync pattern -/

theorem toNat_syncMask (c : Config) : (syncMask c).toNat = 2 ^ c.syncBits - 1 := by
  rw [syncMask, BitVec.toNat_ushiftRight, BitVec.toNat_allOnes, Nat.shiftRight_eq_div_pow, Config.syncBits,
    Config.syncBytes]
  split <;> norm_num

theorem toNat_and_syncMask (c : Config) (x : Word) : (x &&& syncMask c).toNat = x.toNat % 2 ^ c.syncBits := by
  rw [BitVec.toNat_and, toNat_syncMask, Nat.and_two_pow_sub_one_eq_mod]

theorem syncBits_le (c : Config) : c.syncBits ≤ 32 := by
  rw [Config.syncBits, Config.syncBytes]; split <;> norm_num

@[simp] theorem length_patBytes (s : State) : s.patBytes.length = s.cfg.syncBytes := by simp [State.patBytes]

/-- SYNC_SR after one more bit, as a number (44_sync.md rule R232). -/
theorem toNat_shiftedSr (s : State) (b : Bool) :
    (s.shiftedSr b).toNat = (2 * s.syncSr.toNat + b.toNat) % 2 ^ s.cfg.syncBits := by
  have h : ((s.syncSr <<< 1) ||| (BitVec.ofBool b).setWidth 32).toNat = (2 * s.syncSr.toNat + b.toNat) % 2 ^ 32 := by
    have hb : ((BitVec.ofBool b).setWidth 32).toNat = b.toNat := by cases b <;> rfl
    have h1 : b.toNat < 2 ^ 1 := by cases b <;> decide
    rw [BitVec.toNat_or, hb, BitVec.toNat_shiftLeft, Nat.shiftLeft_eq,
      show s.syncSr.toNat * 2 ^ 1 % 2 ^ 32 = 2 ^ 1 * (s.syncSr.toNat % 2 ^ 31) by omega,
      ← Nat.two_pow_add_eq_or_of_lt h1]
    omega
  rw [State.shiftedSr, toNat_and_syncMask, h, Nat.mod_mod_of_dvd _ (Nat.pow_dvd_pow 2 (syncBits_le s.cfg))]

/-- LineBit touches the four fields of the sync unit only (44_sync.md rule R232, 20_memory.md rule R68). -/
theorem lineBit_eq (s : State) (b : Bool) :
    s.lineBit b = { s with
      syncSr := (s.lineBit b).syncSr, syncCnt := (s.lineBit b).syncCnt
      syncDet := (s.lineBit b).syncDet, syncEn := (s.lineBit b).syncEn } := by
  unfold State.lineBit; split <;> rfl

/-- What the copies-of-P loop answers, by the number of whole copies it may still remove (44_sync.md rule R235). -/
theorem stripFrom_eq (s : State) (q : Nat) : ∀ (fuel r : Nat), q ≤ fuel →
    (∀ k, k < q → r + (k + 1) * s.cfg.syncBytes ≤ s.bitlen.toNat / 8 ∧
      s.fbBytes (r + k * s.cfg.syncBytes) s.cfg.syncBytes = s.patBytes) →
    (q < fuel → ¬(r + q * s.cfg.syncBytes + s.cfg.syncBytes ≤ s.bitlen.toNat / 8 ∧
      s.fbBytes (r + q * s.cfg.syncBytes) s.cfg.syncBytes = s.patBytes)) →
    s.stripFrom fuel r = r + q * s.cfg.syncBytes := by
  induction q with
  | zero =>
    intro fuel r _ _ hstop
    cases fuel with
    | zero => simp [State.stripFrom]
    | succ fuel =>
      rw [State.stripFrom, if_neg (by simpa using hstop (by omega))]
      simp
  | succ q ih =>
    intro fuel r hf hcop hstop
    obtain ⟨fuel, rfl⟩ : ∃ f, fuel = f + 1 := ⟨fuel - 1, by omega⟩
    have h0 := hcop 0 (by omega)
    rw [State.stripFrom, if_pos (by simpa using h0), ih fuel (r + s.cfg.syncBytes) (by omega)]
    · rw [Nat.succ_mul]; omega
    · intro k hk
      have := hcop (k + 1) (by omega)
      rw [show r + s.cfg.syncBytes + (k + 1) * s.cfg.syncBytes = r + (k + 1 + 1) * s.cfg.syncBytes by
            rw [Nat.succ_mul (k + 1)]; omega,
        show r + s.cfg.syncBytes + k * s.cfg.syncBytes = r + (k + 1) * s.cfg.syncBytes by rw [Nat.succ_mul]; omega]
      exact this
    · intro hq
      have := hstop (by omega)
      rw [show r + s.cfg.syncBytes + q * s.cfg.syncBytes = r + (q + 1) * s.cfg.syncBytes by rw [Nat.succ_mul]; omega]
      exact this

/-! ### What the builder writes -/

@[simp] theorem length_addrField (C : List Byte) (ssid : BitVec 4) (ext : Bool) : (addrField C ssid ext).length = 7 := by
  simp [addrField, callsignSize]

theorem length_pathFields (Q : List (List Byte × BitVec 4)) : (pathFields Q).length = 7 * Q.length := by
  induction Q with
  | nil => rfl
  | cons p Q ih =>
    cases Q with
    | nil => simp [pathFields]
    | cons q Q => simp only [pathFields, List.length_append, length_addrField, ih, List.length_cons]; omega

/-- A path list has as many entries as were asked for. -/
theorem length_pathListAt (s : State) (k : Nat) : ∀ (p : Nat) (Q : List (List Byte × BitVec 4)),
    s.pathListAt k p = some Q → Q.length = k := by
  induction k with
  | zero => intro p Q h; simp only [State.pathListAt, Option.some.injEq] at h; simp [← h]
  | succ k ih =>
    intro p Q h
    rw [State.pathListAt] at h
    split at h
    · simp only [Option.bind_eq_some_iff, Option.map_eq_some_iff] at h
      obtain ⟨e, _, Q', hQ', rfl⟩ := h
      simp [ih _ _ hQ']
    · cases h

end Sys2Proof.Machine
end

