-- ==== Sys2Proof/Laws/PerInstr.lean ====
section
/-! SUPPORT. Statements made for each instruction as syntax: one lemma for each constructor of Instr. -/

namespace Sys2Proof.Laws

/-- Format F1 put together and taken apart (30_encoding.md rules R81, R82, R88). -/
theorem fields_wordF1 (op : BitVec 8) (s : Bool) :
    fieldOp (wordF1 (op.setWidth 32) s) = op ∧ wordF1 (op.setWidth 32) s &&& reservedF1 = 0#32 ∧
      fieldS (wordF1 (op.setWidth 32) s) = s := by
  refine ⟨?_, ?_, ?_⟩
  · refine BitVec.eq_of_getLsbD_eq fun i hi => ?_
    interval_cases i <;> simp [fieldOp, wordF1]
  · refine BitVec.eq_of_getLsbD_eq fun i hi => ?_
    interval_cases i <;> simp [wordF1, reservedF1]
  · simp [fieldS, wordF1]

/-- Format F2 put together and taken apart. -/
theorem fields_wordF2 (op : BitVec 8) (a : BitVec 16) :
    fieldOp (wordF2 (op.setWidth 32) a) = op ∧ wordF2 (op.setWidth 32) a &&& reservedF2 = 0#32 ∧
      fieldAoff (wordF2 (op.setWidth 32) a) = a := by
  refine ⟨?_, ?_, ?_⟩ <;>
    refine BitVec.eq_of_getLsbD_eq fun i hi => ?_ <;>
    interval_cases i <;> simp [fieldOp, fieldAoff, wordF2, reservedF2]

/-- Format F3 put together and taken apart. -/
theorem fields_wordF3 (op : BitVec 8) (a : BitVec 16) (n : BitVec 3) (s : BitVec 4) :
    fieldOp (wordF3 (op.setWidth 32) a n s) = op ∧ wordF3 (op.setWidth 32) a n s &&& reservedF3 = 0#32 ∧
      fieldAoff (wordF3 (op.setWidth 32) a n s) = a ∧ fieldClen (wordF3 (op.setWidth 32) a n s) = n ∧
      fieldSsid (wordF3 (op.setWidth 32) a n s) = s := by
  refine ⟨?_, ?_, ?_, ?_, ?_⟩ <;>
    refine BitVec.eq_of_getLsbD_eq fun i hi => ?_ <;>
    interval_cases i <;>
    simp [fieldOp, fieldAoff, fieldClen, fieldSsid, wordF3, reservedF3]

/-- Format F4 put together and taken apart. -/
theorem fields_wordF4 (op : BitVec 8) (a : BitVec 16) (k : BitVec 4) :
    fieldOp (wordF4 (op.setWidth 32) a k) = op ∧ wordF4 (op.setWidth 32) a k &&& reservedF4 = 0#32 ∧
      fieldAoff (wordF4 (op.setWidth 32) a k) = a ∧ fieldK (wordF4 (op.setWidth 32) a k) = k := by
  refine ⟨?_, ?_, ?_, ?_⟩ <;>
    refine BitVec.eq_of_getLsbD_eq fun i hi => ?_ <;>
    interval_cases i <;> simp [fieldOp, fieldAoff, fieldK, wordF4, reservedF4]

/-- Format F1 as its row of rule R82, field after field. -/
theorem wordF1_eq_append (op : BitVec 8) (s : Bool) : wordF1 (op.setWidth 32) s = 0#23 ++ BitVec.ofBool s ++ op := by
  refine BitVec.eq_of_getLsbD_eq fun i hi => ?_
  simp only [wordF1, BitVec.getLsbD_or, BitVec.getLsbD_setWidth, BitVec.getLsbD_shiftLeft, BitVec.getLsbD_append]
  interval_cases i <;> simp

/-- Format F2 as its row of rule R82. -/
theorem wordF2_eq_append (op : BitVec 8) (a : BitVec 16) : wordF2 (op.setWidth 32) a = a ++ 0#8 ++ op := by
  refine BitVec.eq_of_getLsbD_eq fun i hi => ?_
  simp only [wordF2, BitVec.getLsbD_or, BitVec.getLsbD_setWidth, BitVec.getLsbD_shiftLeft, BitVec.getLsbD_append]
  interval_cases i <;> simp

/-- Format F3 as its row of rule R82. -/
theorem wordF3_eq_append (op : BitVec 8) (a : BitVec 16) (n : BitVec 3) (s : BitVec 4) :
    wordF3 (op.setWidth 32) a n s = a ++ 0#1 ++ n ++ s ++ op := by
  refine BitVec.eq_of_getLsbD_eq fun i hi => ?_
  simp only [wordF3, BitVec.getLsbD_or, BitVec.getLsbD_setWidth, BitVec.getLsbD_shiftLeft, BitVec.getLsbD_append]
  interval_cases i <;> simp

/-- Format F4 as its row of rule R82. -/
theorem wordF4_eq_append (op : BitVec 8) (a : BitVec 16) (k : BitVec 4) :
    wordF4 (op.setWidth 32) a k = a ++ 0#4 ++ k ++ op := by
  refine BitVec.eq_of_getLsbD_eq fun i hi => ?_
  simp only [wordF4, BitVec.getLsbD_or, BitVec.getLsbD_setWidth, BitVec.getLsbD_shiftLeft, BitVec.getLsbD_append]
  interval_cases i <;> simp

end Sys2Proof.Laws

namespace Sys2Proof.Laws.RoundTrip

/-- Decoding an encoded well-formed command gives it back (30_encoding.md rules R82, R88, R90). -/
def Statement (i : Instr) : Prop := i.wf = true → decode (encode i) = .ok i

theorem crcCompute : Statement .crcCompute := fun _ => rfl

theorem crcCheck : Statement .crcCheck := fun _ => rfl

theorem fcsAppend : Statement .fcsAppend := fun _ => rfl

theorem stuff : Statement .stuff := fun _ => rfl

theorem unstuff : Statement .unstuff := fun _ => rfl

theorem nrziEnc (start : Bool) : Statement (.nrziEnc start) := fun _ => by cases start <;> rfl

theorem nrziDec (start : Bool) : Statement (.nrziDec start) := fun _ => by cases start <;> rfl

theorem fbClear : Statement .fbClear := fun _ => rfl

theorem insDest (aoff : BitVec 16) (clen : BitVec 3) (ssid : BitVec 4) : Statement (.insDest aoff clen ssid) := by
  intro h
  obtain ⟨h1, h2, h3, h4, h5⟩ := fields_wordF3 0x31#8 aoff clen ssid
  simp only [BitVec.reduceSetWidth] at h1 h2 h3 h4 h5
  simp only [Instr.wf] at h
  simp [decode, encode, decodeAddr, h1, h2, h3, h4, h5, h]

theorem insSrc (aoff : BitVec 16) (clen : BitVec 3) (ssid : BitVec 4) : Statement (.insSrc aoff clen ssid) := by
  intro h
  obtain ⟨h1, h2, h3, h4, h5⟩ := fields_wordF3 0x32#8 aoff clen ssid
  simp only [BitVec.reduceSetWidth] at h1 h2 h3 h4 h5
  simp only [Instr.wf] at h
  simp [decode, encode, decodeAddr, h1, h2, h3, h4, h5, h]

theorem insPaths (aoff : BitVec 16) (k : BitVec 4) : Statement (.insPaths aoff k) := by
  intro h
  obtain ⟨h1, h2, h3, h4⟩ := fields_wordF4 0x33#8 aoff k
  simp only [BitVec.reduceSetWidth] at h1 h2 h3 h4
  simp only [Instr.wf] at h
  simp [decode, encode, decodePaths, h1, h2, h3, h4, h]

theorem insInfo (aoff : BitVec 16) : Statement (.insInfo aoff) := by
  intro _
  obtain ⟨h1, h2, h3⟩ := fields_wordF2 0x34#8 aoff
  simp only [BitVec.reduceSetWidth] at h1 h2 h3
  simp [decode, encode, decodePlain, h1, h2, h3]

theorem flagAppend : Statement .flagAppend := fun _ => rfl

theorem parseOffsets : Statement .parseOffsets := fun _ => rfl

theorem validate : Statement .validate := fun _ => rfl

theorem getSource (aoff : BitVec 16) : Statement (.getSource aoff) := by
  intro _
  obtain ⟨h1, h2, h3⟩ := fields_wordF2 0x42#8 aoff
  simp only [BitVec.reduceSetWidth] at h1 h2 h3
  simp [decode, encode, decodePlain, h1, h2, h3]

theorem syncCtl (enable : Bool) : Statement (.syncCtl enable) := fun _ => by cases enable <;> rfl

theorem syncStrip : Statement .syncStrip := fun _ => rfl

theorem syncPreamble : Statement .syncPreamble := fun _ => rfl

end Sys2Proof.Laws.RoundTrip
end

