-- ==== Sys2Proof/Laws/Program.lean ====
section
/-! SUPPORT. The orders of a program and the end of its run. -/

namespace Sys2Proof.Machine

/-! ### Orders (30_encoding.md rule R89, 20_memory.md rule R68) -/

/-- A Host step placed among the Line's: some of the Line's steps come first. -/
theorem mem_placeHost {h : Input} {after : List Input → List (List Input)} {ls js : List Input} :
    js ∈ placeHost h after ls ↔ ∃ before rest js', ls = before ++ rest ∧ js = before ++ h :: js' ∧ js' ∈ after rest := by
  induction ls generalizing js with
  | nil =>
    simp only [placeHost, List.mem_map]
    constructor
    · rintro ⟨js', hj, rfl⟩; exact ⟨[], [], js', rfl, rfl, hj⟩
    · rintro ⟨before, rest, js', hl, rfl, hj⟩
      obtain ⟨rfl, rfl⟩ := List.append_eq_nil_iff.mp hl.symm
      exact ⟨js', hj, rfl⟩
  | cons l ls ih =>
    simp only [placeHost, List.mem_append, List.mem_map, ih]
    constructor
    · rintro (⟨js', hj, rfl⟩ | ⟨_, ⟨before, rest, js', rfl, rfl, hj⟩, rfl⟩)
      · exact ⟨[], l :: ls, js', rfl, rfl, hj⟩
      · exact ⟨l :: before, rest, js', rfl, rfl, hj⟩
    · rintro ⟨before, rest, js', hl, rfl, hj⟩
      cases before with
      | nil => exact .inl ⟨js', by rw [show l :: ls = rest from hl]; exact hj, rfl⟩
      | cons b before =>
        obtain ⟨rfl, rfl⟩ := List.cons.inj hl
        exact .inr ⟨_, ⟨before, rest, js', rfl, rfl, hj⟩, rfl⟩

/-- Steps none of which is the Host's keep nothing of the Host. -/
theorem filter_byHost_eq_nil {ls : List Input} (h : ∀ e ∈ ls, e.byHost = false) : ls.filter Input.byHost = [] := by
  simpa using h

/-- An interleaving is a list whose Host steps are the Host's and whose other steps are the Line's, each in order. -/
theorem mem_interleavings {hs ls js : List Input} (hh : ∀ e ∈ hs, e.byHost = true) (hl : ∀ e ∈ ls, e.byHost = false) :
    js ∈ interleavings hs ls ↔ js.filter Input.byHost = hs ∧ js.filter (fun e => !e.byHost) = ls := by
  induction hs generalizing ls js with
  | nil =>
    simp only [interleavings, List.mem_singleton]
    constructor
    · rintro rfl
      exact ⟨filter_byHost_eq_nil hl, List.filter_eq_self.mpr fun e he => by simp [hl e he]⟩
    · rintro ⟨h0, rfl⟩
      refine (List.filter_eq_self.mpr fun e he => ?_).symm
      simpa using List.filter_eq_nil_iff.mp h0 e he
  | cons h hs ih =>
    have hhb := hh h List.mem_cons_self
    have hhs := fun e he => hh e (List.mem_cons_of_mem h he)
    rw [interleavings, mem_placeHost]
    constructor
    · rintro ⟨before, rest, js', rfl, rfl, hj⟩
      obtain ⟨h1, h2⟩ := (ih hhs fun e he => hl e (List.mem_append_right _ he)).mp hj
      have hb := fun e he => hl e (List.mem_append_left rest he)
      constructor
      · simp [filter_byHost_eq_nil hb, hhb, h1]
      · have : before.filter (fun e => !e.byHost) = before := List.filter_eq_self.mpr fun e he => by simp [hb e he]
        simp [this, hhb, h2]
    · rintro ⟨h1, h2⟩
      obtain ⟨before, js', rfl, hb, _, h1⟩ := List.filter_eq_cons_iff.mp h1
      have hb : ∀ e ∈ before, e.byHost = false := fun e he => by simpa using hb e he
      have hbf : before.filter (fun e => !e.byHost) = before := List.filter_eq_self.mpr fun e he => by simp [hb e he]
      refine ⟨before, js'.filter (fun e => !e.byHost), js', ?_, rfl, ?_⟩
      · rw [← h2]; simp [hbf, hhb]
      · exact (ih hhs fun e he => by simpa using (List.mem_filter.mp he).2).mpr ⟨h1, rfl⟩

/-- The orders of lines whose interleaving is free: every list with the same Host steps and the same other steps. -/
theorem mem_freeOrders {is js : List Input} :
    js ∈ freeOrders is ↔ js.filter Input.byHost = is.filter Input.byHost ∧
      js.filter (fun e => !e.byHost) = is.filter (fun e => !e.byHost) :=
  mem_interleavings (fun _ he => (List.mem_filter.mp he).2) fun _ he => by simpa using (List.mem_filter.mp he).2

/-- The written order is always among the orders. -/
theorem self_mem_freeOrders (is : List Input) : is ∈ freeOrders is := mem_freeOrders.mpr ⟨rfl, rfl⟩

/-! ### The end of a run (70_reset_and_hazards.md rule R300) -/

theorem hostEnd_le (is : List Input) : hostEnd is ≤ is.length := by
  induction is with
  | nil => exact Nat.le_refl 0
  | cons e is ih => simp only [hostEnd, List.length_cons]; split <;> omega

/-- No Host access: the run is over before it begins. -/
theorem hostEnd_eq_zero {is : List Input} : hostEnd is = 0 ↔ ∀ e ∈ is, e.byHost = false := by
  induction is with
  | nil => simp [hostEnd]
  | cons e is ih =>
    simp only [hostEnd, List.forall_mem_cons, ← ih]
    cases e.byHost <;> simp [Nat.pos_iff_ne_zero]

/-- What is left after the end of the run holds no Host access. -/
theorem byHost_drop_hostEnd (is : List Input) : ∀ e ∈ is.drop (hostEnd is), e.byHost = false := by
  induction is with
  | nil => simp
  | cons e is ih =>
    rw [hostEnd]
    split
    · exact ih
    · rename_i h
      have h0 : hostEnd (e :: is) = 0 := by rw [hostEnd, if_neg h]
      exact hostEnd_eq_zero.mp h0

/-- Steps after the Host's last one do not move the end of the run. -/
theorem hostEnd_append {is js : List Input} (h : ∀ e ∈ js, e.byHost = false) : hostEnd (is ++ js) = hostEnd is := by
  induction is with
  | nil => simpa [hostEnd] using hostEnd_eq_zero.mpr h
  | cons e is ih => simp only [List.cons_append, hostEnd, ih]

end Sys2Proof.Machine
end

