-- ==== Sys2Proof/Laws/Step.lean ====
section
/-! SUPPORT. The step by its inputs, each access by its area, and what `rst` leaves: the equations proofs cite in place of
unfolding `step`. -/

namespace Sys2Proof.Machine

/-- With no input the block waits. -/
theorem takeInput_nil {s : State} (h : s.inputs = []) : s.takeInput = .next s := by
  simp only [State.takeInput, h]

/-- A step performs the first input and drops it from the list. -/
theorem step_cons {s : State} {e : Input} {rest : List Input} (h : s.inputs = e :: rest) :
    step s = { s with inputs := rest }.perform e := by
  simp only [step, State.takeInput, h]

theorem perform_lineBit (s : State) (b : Bool) : s.perform (.lineBit b) = .next (s.lineBit b) := rfl

theorem perform_rst (s : State) : s.perform .rst = .next s.assertReset := rfl

/-- An admitted read answers the value and changes nothing else. -/
theorem perform_hostRead {s : State} {off : BitVec 14} {n : Nat} (h : admitted off n = true) :
    s.perform (.hostRead off n) = .next { s with hostData := some (s.readValue off) } := by
  simp [State.perform, State.hostRead, h]

/-- An admitted write has the effect of its area. -/
theorem perform_hostWrite {s : State} {off : BitVec 14} {n : Nat} (v : Word) (h : admitted off n = true) :
    s.perform (.hostWrite off n v) = s.writeValue off v := by
  simp [State.perform, State.hostWrite, h]

/-- A refused access stops the machine. -/
theorem perform_refused {s : State} {e : Input} (h : e.hasStep = false) : s.perform e = .fault .hostStuck := by
  cases e <;> simp_all [Input.hasStep, State.perform, State.hostRead, State.hostWrite]

/-! ### The areas -/

theorem areaOf_reg {off : BitVec 14} (h : off.toNat < 0x1000) : areaOf off = .reg off.toNat := by
  simp [areaOf, h]

theorem areaOf_fbw {off : BitVec 14} {i : Nat} (h : off.toNat = 0x1000 + i) (hi : i < 0x1000) : areaOf off = .fbw i := by
  simp only [areaOf, h]
  rw [if_neg (by omega), if_pos (by omega), Nat.add_sub_cancel_left]

theorem areaOf_abw {off : BitVec 14} {i : Nat} (h : off.toNat = 0x2000 + i) (hi : i < 0x1000) : areaOf off = .abw i := by
  simp only [areaOf, h]
  rw [if_neg (by omega), if_neg (by omega), if_pos (by omega), Nat.add_sub_cancel_left]

theorem areaOf_reserved {off : BitVec 14} (h : 0x3000 ≤ off.toNat) : areaOf off = .reserved off.toNat := by
  simp only [areaOf]
  rw [if_neg (by omega), if_neg (by omega), if_neg (by omega)]

/-! ### The parameters -/

theorem frameMax_le (c : Config) : c.frameMax ≤ 4096 := by have := c.frameExtra.isLt; simp only [Config.frameMax]; omega

theorem le_frameMax (c : Config) : 20 ≤ c.frameMax := by simp only [Config.frameMax]; omega

theorem syncBytes_pos (c : Config) : 1 ≤ c.syncBytes := by unfold Config.syncBytes; split <;> decide

theorem syncBytes_le (c : Config) : c.syncBytes ≤ 4 := by unfold Config.syncBytes; split <;> decide

/-! ### After reset -/

@[simp] theorem assertReset_eq (s : State) : s.assertReset = State.afterReset s.cfg (s.resets + 1) s.inputs := rfl

/-- Reset memory has the canonical form. -/
theorem reset_memory_wf : State.reset.fb.wf = true ∧ State.reset.ab.wf = true := ⟨rfl, rfl⟩

/-- After `rst` every byte of FB is a free value. -/
theorem fbByte_afterReset (c : Config) (n : Nat) (is : List Input) (i : Nat) :
    (State.afterReset c n is).fbByte i = Config.freeFbByte n i := rfl

/-- After `rst` every byte of AB is a free value. -/
theorem abByte_afterReset (c : Config) (n : Nat) (is : List Input) (i : Nat) :
    (State.afterReset c n is).abByte i = Config.freeAbByte n i := rfl

end Sys2Proof.Machine
end

