-- ==== Sys2Proof/Tests/Slice0.lean ====
section
/-! SUPPORT. Tests: well-formedness, decoding of words written out from the formats, one-step tests with the expected
values of 95_test_vectors.md, and for each statement with hypotheses a state and operands that meet them. -/

namespace Sys2Proof.Tests

open Sys2Proof Sys2Proof.Machine

-- One theorem at a time: together their evaluations ask for more memory than there is.
set_option Elab.async false

/-! ### Well-formedness (30_encoding.md rule R85) -/

theorem test_wf_refuses_dest_clen7 : (Instr.insDest 0#16 7#3 0#4).wf = false := by decide
theorem test_wf_refuses_src_clen7 : (Instr.insSrc 0xFFFF#16 7#3 15#4).wf = false := by decide
theorem test_wf_refuses_paths_k9 : (Instr.insPaths 0#16 9#4).wf = false := by decide
theorem test_wf_refuses_paths_k15 : (Instr.insPaths 0#16 15#4).wf = false := by decide
theorem test_wf_accepts_limits :
    (Instr.insDest 0xFFFF#16 6#3 15#4).wf = true ∧ (Instr.insPaths 0xFFFF#16 8#4).wf = true := by decide

/-! ### Decoding: one word for each command, bit by bit from the formats of rule R82 (AOFF | 0 CLEN | SSID, K or S | OP) -/

theorem test_decode_crcCompute : decode 0b0000000000000000_0000_0000_00010000#32 = .ok .crcCompute := by decide
theorem test_decode_crcCheck : decode 0b0000000000000000_0000_0000_00010001#32 = .ok .crcCheck := by decide
theorem test_decode_fcsAppend : decode 0b0000000000000000_0000_0000_00010010#32 = .ok .fcsAppend := by decide
theorem test_decode_stuff : decode 0b0000000000000000_0000_0000_00100000#32 = .ok .stuff := by decide
theorem test_decode_unstuff : decode 0b0000000000000000_0000_0000_00100001#32 = .ok .unstuff := by decide
theorem test_decode_nrziEnc : decode 0b0000000000000000_0000_0001_00100010#32 = .ok (.nrziEnc true) := by decide
theorem test_decode_nrziDec : decode 0b0000000000000000_0000_0000_00100011#32 = .ok (.nrziDec false) := by decide
theorem test_decode_fbClear : decode 0b0000000000000000_0000_0000_00110000#32 = .ok .fbClear := by decide
theorem test_decode_insDest :
    decode 0b0000000000000000_0110_0000_00110001#32 = .ok (.insDest 0#16 6#3 0#4) := by decide
theorem test_decode_insSrc :
    decode 0b0000000000000110_0011_1101_00110010#32 = .ok (.insSrc 6#16 3#3 13#4) := by decide
theorem test_decode_insPaths :
    decode 0b0000000000100000_0000_0010_00110011#32 = .ok (.insPaths 0x20#16 2#4) := by decide
theorem test_decode_insInfo :
    decode 0b0000000001000000_0000_0000_00110100#32 = .ok (.insInfo 0x40#16) := by decide
theorem test_decode_flagAppend : decode 0b0000000000000000_0000_0000_00110101#32 = .ok .flagAppend := by decide
theorem test_decode_parseOffsets : decode 0b0000000000000000_0000_0000_01000000#32 = .ok .parseOffsets := by decide
theorem test_decode_validate : decode 0b0000000000000000_0000_0000_01000001#32 = .ok .validate := by decide
theorem test_decode_getSource :
    decode 0b1111111111111111_0000_0000_01000010#32 = .ok (.getSource 0xFFFF#16) := by decide
theorem test_decode_syncCtl : decode 0b0000000000000000_0000_0001_01010000#32 = .ok (.syncCtl true) := by decide
theorem test_decode_syncStrip : decode 0b0000000000000000_0000_0000_01010001#32 = .ok .syncStrip := by decide
theorem test_decode_syncPreamble : decode 0b0000000000000000_0000_0000_01010010#32 = .ok .syncPreamble := by decide

/-- V-E2, V-E4, V-E14, V-E15, V-E18, V-E20 of 95_test_vectors.md: each ground of rule R85. -/
theorem test_decode_illegal :
    decode 0x00000110#32 = .error .reservedBitSet ∧ decode 0x00000013#32 = .error .unassignedOpcode ∧
    decode 0x00007031#32 = .error .clenSeven ∧ decode 0x00008031#32 = .error .reservedBitSet ∧
    decode 0x00000933#32 = .error .kAboveEight ∧ decode 0x00001033#32 = .error .reservedBitSet := by decide

/-- The assembly examples after V-E20 of 95_test_vectors.md. -/
theorem test_encode_examples :
    encode (.insSrc 6#16 6#3 1#4) = 0x00066132#32 ∧ encode (.insPaths 0x20#16 2#4) = 0x00200233#32 ∧
    encode (.getSource 0x40#16) = 0x00400042#32 ∧ encode (.syncCtl true) = 0x00000150#32 := by decide

theorem test_decodeTableWord : decodeTableWord 32 0x00066132 = some (.insSrc 6#16 6#3 1#4) := by decide

/-! ### Small states -/

/-- FRAME_MAX = 44 and SYNC_BITS = 16: room for the frame of program P1, coded and with its preamble. -/
def testCfg : Config := ⟨24, .bits16, 0#32⟩

/-- The block after reset. -/
def blank : State := State.afterReset testCfg 0 []

/-- The state after a command. -/
def after (i : Instr) (s : State) : State :=
  match exec i s with
  | .next t => t
  | .fault _ => s
  | .refused _ => s

/-- The state after a list of commands. -/
def afterAll (is : List Instr) (s : State) : State := is.foldl (fun s i => after i s) s

theorem exec_after (i : Instr) (s : State) : exec i s = .next (after i s) := by cases i <;> rfl

/-- The arguments as the Host sets them. -/
def args (a n : Nat) (s : State) : State := { s with arg0 := BitVec.ofNat 32 a, arg1 := BitVec.ofNat 32 n }

/-- A stream of n bits in bytes the Host wrote. -/
def loaded (bs : List Byte) (n : Nat) : State := ((blank.setFb 0 bs).setBitlen n).markRaw

/-- An input before others. -/
def given (e : Input) (s : State) : State := { s with inputs := [e, .rst] }

/-- "APN000" and "N0CALL" at AB[0], ":HELLO{101}" at AB[12], and the path list "A", "B-1" at AB[30]. -/
def strings : State :=
  blank.setAb 0 ([0x41#8, 0x50#8, 0x4E#8, 0x30#8, 0x30#8, 0x30#8] ++ [0x4E#8, 0x30#8, 0x43#8, 0x41#8, 0x4C#8, 0x4C#8]
    ++ [0x3A#8, 0x48#8, 0x45#8, 0x4C#8, 0x4C#8, 0x4F#8, 0x7B#8, 0x31#8, 0x30#8, 0x31#8, 0x7D#8]
    ++ List.replicate 7 0#8 ++ [1#8, 0x41#8, 3#8, 0x42#8, 0x2D#8, 0x31#8])

/-- Program P1 of 95_test_vectors.md up to INS_DEST, INS_SRC, INS_INFO, FCS_APPEND and FLAG_APPEND. -/
def hasDest : State := after (.insDest 0#16 6#3 0#4) strings
def hasSrc : State := after (.insSrc 6#16 6#3 1#4) hasDest
def complete : State := after (.insInfo 12#16) (args 0 11 hasSrc)
def withFcs : State := after .fcsAppend complete
def closed : State := after .flagAppend withFcs
/-- The frame of P1 and the same stuffed between its flags, as 95_test_vectors.md prints them. -/
def frameBytes : List Byte :=
  [0x7E#8, 0x82#8, 0xA0#8, 0x9C#8, 0x60#8, 0x60#8, 0x60#8, 0x60#8, 0x9C#8, 0x60#8, 0x86#8, 0x82#8, 0x98#8, 0x98#8, 0x63#8,
    0x03#8] ++ [0xF0#8, 0x3A#8, 0x48#8, 0x45#8, 0x4C#8, 0x4C#8, 0x4F#8, 0x7B#8, 0x31#8, 0x30#8, 0x31#8, 0x7D#8, 0x29#8, 0x3C#8,
    0x7E#8]
def stuffedBytes : List Byte :=
  [0x7E#8, 0x82#8, 0xA0#8, 0x9C#8, 0x60#8, 0x60#8, 0x60#8, 0x60#8, 0x9C#8, 0x60#8, 0x86#8, 0x82#8, 0x98#8, 0x98#8, 0x63#8,
    0x03#8] ++ [0xE8#8, 0x1D#8, 0x24#8, 0x22#8, 0xA6#8, 0x26#8, 0x27#8, 0xBD#8, 0x98#8, 0x98#8, 0x18#8, 0xBE#8, 0x4A#8, 0x4F#8,
    0x1F#8, 0x80#8]
def plain : State := loaded frameBytes 248
def stuffed : State := loaded stuffedBytes 250
def valid : State := after .validate stuffed
/-- The frame of P1 after PARSE_OFFSETS would have found its offsets. -/
def parsed : State :=
  { plain with ctrlOff := 15#16, infoOff := 17#16, fcsOff := 28#16, offv := true, fcsv := true, fstate := .valid, readable := true }

/-! ### One step each, against 95_test_vectors.md -/

/-- V-C12. -/
theorem test_crcCompute :
    (after .crcCompute (args 0 9 (loaded [0x31#8, 0x32#8, 0x33#8, 0x34#8, 0x35#8, 0x36#8, 0x37#8, 0x38#8, 0x39#8] 72))).res
      = 0x906E#32 := by decide +kernel
/-- V-C16: no wrap. -/
theorem test_crcCompute_no_wrap : (after .crcCompute (args 0xFFFFFFFF 1 blank)).code = .badArg := by decide +kernel
/-- P1: CRC_CHECK of the built frame. -/
theorem test_crcCheck : (after .crcCheck parsed).code = .ok ∧ (after .crcCheck parsed).res = 1#32 := by decide +kernel
/-- V-C17. -/
theorem test_crcCheck_not_ready : (after .crcCheck blank).code = .notReady := by decide +kernel
/-- V-C20. -/
theorem test_fcsAppend :
    (after .fcsAppend (loaded frameBytes 224)).res = 0x3C29#32 ∧
    (after .fcsAppend (loaded frameBytes 224)).fbByte 29 = 0x3C#8 ∧ withFcs.fcsOff = 28#16 ∧
    withFcs.statusWord = 0x3B0#32 := by decide +kernel
/-- V-C18. -/
theorem test_fcsAppend_empty : (after .fcsAppend blank).code = .badArg := by decide +kernel
/-- V-SC2. -/
theorem test_stuff :
    (after .stuff (args 8 8 (loaded [0x7E#8, 0xFF#8, 0x7E#8] 24))).fbBytes 0 4 = [0x7E#8, 0xFB#8, 0xBF#8, 0x00#8] ∧
    (after .stuff (args 8 8 (loaded [0x7E#8, 0xFF#8, 0x7E#8] 24))).bitlen = 25#20 := by decide +kernel
/-- P1: the stuffed frame. -/
theorem test_stuff_frame :
    (after .stuff (args 8 232 plain)).fbBytes 0 32 = stuffedBytes ∧ (after .stuff (args 8 232 plain)).bitlen = 250#20 := by
  decide +kernel
/-- V-SC3. -/
theorem test_unstuff :
    (after .unstuff (args 8 9 (loaded [0x7E#8, 0xFB#8, 0xBF#8, 0x00#8] 25))).fbBytes 0 3 = [0x7E#8, 0xFF#8, 0x7E#8] ∧
    (after .unstuff (args 8 9 (loaded [0x7E#8, 0xFB#8, 0xBF#8, 0x00#8] 25))).res = 8#32 := by decide +kernel
/-- V-NE4. -/
theorem test_nrziEnc : (after (.nrziEnc false) (args 0 8 (loaded [0x7E#8] 8))).fbByte 0 = 0xFE#8 := by decide +kernel
/-- V-NC5: bits outside the region stay. -/
theorem test_nrziEnc_region : (after (.nrziEnc false) (args 2 4 (loaded [0xF0#8] 8))).fbByte 0 = 0xC8#8 := by decide +kernel
/-- V-ND5. -/
theorem test_nrziDec :
    (after (.nrziDec true) (args 0 8 (loaded [0x01#8] 8))).fbByte 0 = 0x7E#8 ∧
    (after (.nrziDec true) (args 0 8 (loaded [0x01#8] 8))).nrzst = true := by decide +kernel
/-- 42_frame_builder.md rule R163. -/
theorem test_fbClear : (after .fbClear closed).fbByte 43 = 0#8 ∧ (after .fbClear closed).fstate = .empty := by decide +kernel
/-- P1: the destination field. -/
theorem test_insDest :
    hasDest.fbBytes 0 9 = [0x7E#8, 0x82#8, 0xA0#8, 0x9C#8, 0x60#8, 0x60#8, 0x60#8, 0x60#8, 0x00#8] := by decide +kernel
/-- P1: the source field, the control byte and the PID. -/
theorem test_insSrc :
    hasSrc.fbBytes 8 9 = [0x9C#8, 0x60#8, 0x86#8, 0x82#8, 0x98#8, 0x98#8, 0x63#8, 0x03#8, 0xF0#8] := by decide +kernel
/-- V-E23: the range check comes after the state check. -/
theorem test_insSrc_range : (after (.insSrc 0xFFFF#16 6#3 0#4) hasDest).code = .badArg := by decide +kernel
/-- As V-B15: "A" and "B-1" after the source; only the last extension bit is set. -/
theorem test_insPaths :
    (after (.insPaths 30#16 2#4) hasSrc).fbBytes 14 17 =
      [0x62#8, 0x82#8, 0x40#8, 0x40#8, 0x40#8, 0x40#8, 0x40#8, 0x60#8, 0x84#8, 0x40#8, 0x40#8, 0x40#8, 0x40#8, 0x40#8, 0x63#8,
        0x03#8, 0xF0#8] := by decide +kernel
/-- P1 after INS_INFO. -/
theorem test_insInfo :
    complete.len = 28#16 ∧ complete.readable = true ∧ complete.fbByte 27 = 0x7D#8 := by decide +kernel
/-- As V-B9: one byte too many. -/
theorem test_insInfo_overflow : (after (.insInfo 0#16) (args 0 25 hasSrc)).code = .overflow := by decide +kernel
/-- P1 after FLAG_APPEND. -/
theorem test_flagAppend : closed.len = 31#16 ∧ closed.fbByte 30 = 0x7E#8 := by decide +kernel
/-- P1: PARSE_OFFSETS finds the builder's offsets. -/
theorem test_parseOffsets :
    (after .parseOffsets plain).ctrlOff = 15#16 ∧ (after .parseOffsets plain).fcsOff = 28#16 := by decide +kernel
/-- P1: VALIDATE of the stuffed frame. -/
theorem test_validate : valid.statusWord = 0x3C0#32 ∧ valid.len = 31#16 ∧ valid.fbBytes 0 31 = frameBytes := by
  decide +kernel
/-- V-V3. -/
theorem test_validate_empty_body :
    (after .validate (loaded [0x7E#8, 0x7E#8, 0x7E#8] 24)).res = 4#32 := by decide +kernel
/-- P1: GET_SOURCE answers "N0CALL-1". -/
theorem test_getSource :
    (after (.getSource 0x20#16) parsed).abBytes 0x20 8 = [0x4E#8, 0x30#8, 0x43#8, 0x41#8, 0x4C#8, 0x4C#8, 0x2D#8, 0x31#8] := by
  decide +kernel
/-- P4: SYNC_CTL 1 arms the unit. -/
theorem test_syncCtl : (after (.syncCtl true) blank).statusWord = 0x800#32 := by decide +kernel
/-- V-S6. -/
theorem test_syncStrip :
    (after .syncStrip { loaded [0xD3#8, 0x91#8, 0xD3#8, 0x91#8, 0xD3#8, 0x7E#8, 0x82#8] 56 with syncPat := 0xD391#32 }).fbBytes 0 3
      = [0xD3#8, 0x7E#8, 0x82#8] := by decide +kernel
/-- P3: the preamble before the stuffed frame. -/
theorem test_syncPreamble :
    (after .syncPreamble { stuffed with syncPat := 0xD391#32 }).fbBytes 0 5 = [0xD3#8, 0x91#8, 0xD3#8, 0x91#8, 0x7E#8] ∧
    (after .syncPreamble { stuffed with syncPat := 0xD391#32 }).bitlen = 282#20 := by decide +kernel
/-- V-S4: the last of 16 zero bits completes the pattern 0. -/
theorem test_lineBit :
    ((List.replicate 16 false).foldl State.lineBit (after (.syncCtl true) blank)).statusWord = 0x1000#32 := by decide +kernel

/-- 30_encoding.md rule R89: what the program does not fix may happen in each of the three orders, and as written in one. -/
theorem test_orders :
    Program.orders (Program.unordered [.command (.syncCtl true), .line [true, false]]) =
      some [[.hostWrite 0#14 4 0x150#32, .lineBit true, .lineBit false],
        [.lineBit true, .hostWrite 0#14 4 0x150#32, .lineBit false],
        [.lineBit true, .lineBit false, .hostWrite 0#14 4 0x150#32]] ∧
    Program.orders (Program.asWritten [.line [true], .command (.syncCtl true)]) =
      some [[.lineBit true, .hostWrite 0#14 4 0x150#32]] := by decide +kernel

/-- Rule R89: one length byte cannot hold 256. -/
theorem test_path_too_long : (Line.path 0 [List.replicate 256 0x41#8]).assemble = none := by decide +kernel

/-- 70_reset_and_hazards.md rule R300: line bits after the Host's last access are not part of the run. -/
theorem test_run_end :
    hostEnd [.lineBit true, .hostRead 0#14 4, .lineBit true, .rst] = 2 ∧ hostEnd [.lineBit true] = 0 := by decide

/-- The next step after reset runs the command placed before it, whatever the parameters. -/
theorem test_withFetchWord (t : State) (h : step (State.reset.withFetchWord 32 0x150) = .next t) :
    t.cmd = 0x150#32 ∧ t.syncEn = true := by
  have : step (State.reset.withFetchWord 32 0x150) =
    .next (after (.syncCtl true) { State.reset with cmd := 0x150#32 }) := by rfl
  rw [this] at h
  cases h
  exact ⟨rfl, rfl⟩

/-! ### The hypotheses of the statements can be met -/

theorem inv_complete : (args 0 11 hasSrc).Inv ∧ hasSrc.Inv := by
  constructor <;> constructor <;> decide +kernel

theorem inv_stuffed : stuffed.Inv := by constructor <;> decide +kernel

theorem inv_blank : blank.Inv := by constructor <;> decide +kernel

theorem header_hasSrc : (args 0 11 hasSrc).Header where
  flag := by decide +kernel
  ctrlOff := by decide +kernel
  infoOff := by decide +kernel
  address := by
    have h : ∀ i < 15, 1 ≤ i → (args 0 11 hasSrc).addressByte 14 i := by unfold State.addressByte; decide +kernel
    exact fun i h1 h2 => h i h2 h1
  control := by decide +kernel
  pid := by decide +kernel

theorem built_hasSrc : (args 0 11 hasSrc).Built where
  empty := by decide +kernel
  hasDest := fun h => by cases h
  hasSrc := fun _ => ⟨header_hasSrc, by decide +kernel⟩
  complete := fun h => by cases h

theorem witness_DecodeEncodeRoundTrip : (Instr.insPaths 0xFFFF#16 8#4).wf = true := by decide

theorem witness_EncodeInvertsDecode : decode 0xFFFF0833#32 = .ok (.insPaths 0xFFFF#16 8#4) := by decide

theorem witness_DecodeAgreesWithOpcodeTable :
    decode 0xFFFF0833#32 = .ok (.insPaths 0xFFFF#16 8#4) ∧ decode 0xFFFF0933#32 = .error .kAboveEight ∧
    (∃ r ∈ opcodeTable, r.covers 0xFFFF0833#32 = true) := by decide

theorem witness_CmdWriteRunsDecodedCommand :
    (given (.hostWrite 0#14 4 0x41#32) stuffed).inputs = .hostWrite 0x000#14 4 0x41#32 :: [.rst] ∧
    decode 0x41#32 = .ok .validate := by decide +kernel

theorem witness_IllegalWordRaisesIllegal :
    illegalNumber (0x933#32).toNat = true ∧ illegalNumber (0x833#32).toNat = false ∧
    (given (.hostWrite 0#14 4 0x933#32) hasSrc).inputs = .hostWrite 0x000#14 4 0x933#32 :: [.rst] := by decide +kernel

theorem witness_CommandsAlwaysComplete : Instr.validate ≠ .getSource 0#16 := by decide

theorem witness_RefusedAccessSticks :
    (given (.hostRead 0xFFC#14 4) blank).inputs = .hostRead 0xFFC#14 4 :: [.rst] ∧
    (4 = 4 ∧ (0xFFC#14).toNat % 4 = 0 ∧ (0xFFC#14).toNat < 0x1000) ∧
    ((0xFFD#14).toNat % 4 ≠ 0 ∧ (0xFFD#14).toNat < 0x1000) ∧
    (0x1000 ≤ (0x1000#14).toNat ∧ (0x2FFF#14).toNat < 0x3000 ∧ 4 ≠ 1) ∧
    (given (.hostWrite 0x2FFF#14 1 0#32) blank).inputs = .hostWrite 0x2FFF#14 1 0#32 :: [.rst] := by decide +kernel

theorem witness_HostReads :
    (given (.hostRead 0x02C#14 4) blank).inputs = .hostRead 0x02C#14 4 :: [.rst] ∧ 0#32 = blank.syncPat ∧
    ((0x102B#14).toNat = 0x1000 + 43 ∧ 43 < blank.cfg.frameMax) ∧ ((0x202B#14).toNat = 0x2000 + 43 ∧ 43 < blank.cfg.argMax) ∧
    ((0x102C#14).toNat = 0x1000 + 44 ∧ blank.cfg.frameMax ≤ 44) ∧ ((0x2FFF#14).toNat = 0x2000 + 0xFFF ∧ blank.cfg.argMax ≤ 0xFFF) ∧
    (0x030 ≤ (0xFFC#14).toNat ∧ (0xFFC#14).toNat ≤ 0xFFC) ∧ (0x3000 ≤ (0x3FFC#14).toNat ∧ (0x3FFC#14).toNat % 4 = 0) := by
  decide +kernel

theorem witness_HostWritesOfLenAndBitlen :
    (given (.hostWrite 0x014#14 4 300#32) complete).inputs = .hostWrite 0x014#14 4 300#32 :: [.rst] ∧
    (given (.hostWrite 0x018#14 4 9#32) complete).inputs = .hostWrite 0x018#14 4 9#32 :: [.rst] := by decide +kernel

theorem witness_HostStores :
    (given (.hostWrite 0x102B#14 1 0x41#32) complete).inputs = .hostWrite 0x102B#14 1 0x41#32 :: [.rst] ∧
    (0x102B#14).toNat = 0x1000 + 43 ∧ 43 < complete.cfg.frameMax ∧ (0x2000#14).toNat = 0x2000 + 0 ∧ 0 < complete.cfg.argMax ∧
    (given (.hostWrite 0x004#14 4 5#32) complete).inputs = .hostWrite 0x004#14 4 5#32 :: [.rst] ∧
    (given (.hostWrite 0x008#14 4 5#32) complete).inputs = .hostWrite 0x008#14 4 5#32 :: [.rst] ∧
    (given (.hostWrite 0x02C#14 4 5#32) complete).inputs = .hostWrite 0x02C#14 4 5#32 :: [.rst] := by decide +kernel

theorem witness_IgnoredWrites :
    (given (.hostWrite 0x010#14 4 5#32) complete).inputs = .hostWrite 0x010#14 4 5#32 :: [.rst] ∧
    (0x028#14).toNat ∈ [0x00C, 0x010, 0x01C, 0x020, 0x024, 0x028] ∧
    (0x030 ≤ (0x030#14).toNat ∧ (0x030#14).toNat % 4 = 0) ∧
    (0x1000 + complete.cfg.frameMax ≤ (0x102C#14).toNat ∧ (0x102C#14).toNat < 0x2000) ∧
    (0x2000 + complete.cfg.argMax ≤ (0x2FFF#14).toNat ∧ (0x2FFF#14).toNat < 0x3000) ∧
    (0x3000 ≤ (0x3000#14).toNat ∧ (0x3000#14).toNat % 4 = 0) := by decide +kernel

/-- The unit one bit before the pattern 0, and before another pattern. -/
def armed (pat : Word) : State := { after (.syncCtl true) blank with syncPat := pat, syncCnt := 15, syncSr := 0x7FFF#32 }

theorem witness_LineBitStep :
    (given (.lineBit true) (armed 0xFFFF#32)).inputs = .lineBit true :: [.rst] ∧ blank.syncEn = false ∧
    (armed 0xFFFF#32).syncEn = true ∧
    (min ((armed 0xFFFF#32).syncCnt + 1) 16 = (armed 0xFFFF#32).cfg.syncBits ∧
      (2 * (armed 0xFFFF#32).syncSr.toNat + 1) % 2 ^ 16 = (armed 0xFFFF#32).syncPat.toNat % 2 ^ 16) ∧
    (2 * (armed 0xFFFE#32).syncSr.toNat + 1) % 2 ^ 16 ≠ (armed 0xFFFE#32).syncPat.toNat % 2 ^ 16 := by decide +kernel

theorem witness_ResetValues : (given .rst complete).inputs = .rst :: [.rst] := by decide +kernel

theorem witness_StepStopsOnlyAtRefusedAccess :
    Input.hasStep (.hostRead 0x3FFF#14 1) = true ∧ Input.hasStep (.hostRead 0x3000#14 2) = false ∧
    (∃ e rest, (given (.hostRead 0x001#14 4) blank).inputs = e :: rest ∧ e.hasStep = false) ∧ blank.inputs = [] :=
  ⟨by decide, by decide, ⟨_, _, rfl, by decide⟩, rfl⟩

/-- A Host access at a reserved offset, then a line bit after the end of the run. -/
theorem witness_SafeRunReachesItsEnd :
    ({ complete with inputs := [.hostRead 0x3000#14 4, .lineBit true] } : State).safe = true ∧
    hostEnd [.hostRead 0x3000#14 4, .lineBit true] = 1 := by decide +kernel

theorem witness_CrcIsLinear : [0x01#8, 0x80#8].length = [0xFF#8, 0x7E#8].length := by decide

theorem witness_CrcComputeEffect :
    (args 44 0 blank).arg0.toNat + (args 44 0 blank).arg1.toNat ≤ blank.cfg.frameMax ∧
    blank.cfg.frameMax < (args 44 1 blank).arg0.toNat + (args 44 1 blank).arg1.toNat := by decide +kernel

theorem witness_CrcCheckEffect : complete.fcsv = false ∧ parsed.fcsv = true := by decide +kernel

theorem witness_FcsAppendEffect :
    hasDest.fstate = .hasDest ∧ hasSrc.fstate = .hasSrc ∧
    (blank.fstate ≠ .hasDest ∧ blank.fstate ≠ .hasSrc ∧ blank.len.toNat = 0) ∧
    ((loaded [] 344).fstate = .raw ∧ 1 ≤ (loaded [] 344).len.toNat ∧ blank.cfg.frameMax < (loaded [] 344).len.toNat + 2) ∧
    (1 ≤ (loaded [] 336).len.toNat ∧ (loaded [] 336).len.toNat + 2 ≤ blank.cfg.frameMax) ∧
    (1 ≤ (loaded [] 8).len.toNat ∧ (loaded [] 8).len.toNat + 2 ≤ blank.cfg.frameMax) := by decide +kernel

theorem witness_AppendedFcsChecks : exec .fcsAppend complete = .next withFcs ∧ withFcs.code = .ok :=
  ⟨exec_after _ _, by decide +kernel⟩

/-- The built frame with one bit of FB[29] complemented. -/
def flipped : State := withFcs.setFb 29 [withFcs.fbByte 29 ^^^ (1#8 <<< 7)]

theorem witness_SingleBitErrorIsDetected :
    exec .fcsAppend complete = .next withFcs ∧ withFcs.code = .ok ∧ 1 ≤ 29 ∧ 29 ≤ withFcs.fcsOff.toNat + 1 ∧ 7 < 8 ∧
    flipped = { withFcs with fb := flipped.fb } ∧
    (∀ j, flipped.fbByte j = if j = 29 then withFcs.fbByte 29 ^^^ (1#8 <<< 7) else withFcs.fbByte j) := by
  refine ⟨exec_after _ _, by decide +kernel, by decide, by decide +kernel, by decide, rfl, fun j => ?_⟩
  rw [flipped, fbByte_setFb]
  by_cases h : j = 29
  · subst h; rfl
  · rw [if_neg (by simp; omega), if_neg h]

theorem witness_StufferLaws :
    ¬ List.replicate 5 true <:+: [true, true, true, true, false, true] ∧
    (∀ T : Bits, [true, false].getLast? = some false ∧ T = T) := by
  refine ⟨by decide, fun T => ⟨by decide, rfl⟩⟩

theorem witness_NrziLaws :
    exec (.nrziEnc true) (args 0 8 (loaded [0x7E#8] 8)) = .next (after (.nrziEnc true) (args 0 8 (loaded [0x7E#8] 8))) ∧
    exec (.nrziDec false) (args 0 8 (loaded [0x7E#8] 8)) = .next (after (.nrziDec false) (args 0 8 (loaded [0x7E#8] 8))) :=
  ⟨exec_after _ _, exec_after _ _⟩

theorem witness_StuffEffect :
    (loaded [] 16).bitlen.toNat < (args 8 9 (loaded [] 16)).arg0.toNat + (args 8 9 (loaded [] 16)).arg1.toNat ∧
    (args 8 232 plain).arg0.toNat + (args 8 232 plain).arg1.toNat ≤ plain.bitlen.toNat ∧
    ((args 8 232 plain).spliced (stuff (args 8 232 plain).region)).length ≤ 8 * plain.cfg.frameMax ∧
    8 * plain.cfg.frameMax <
      ((args 0 352 (loaded (List.replicate 44 0xFF#8) 352)).spliced
        (stuff (args 0 352 (loaded (List.replicate 44 0xFF#8) 352)).region)).length := by decide +kernel

theorem witness_UnstuffEffect :
    (loaded [] 16).bitlen.toNat < (args 8 9 (loaded [] 16)).arg0.toNat + (args 8 9 (loaded [] 16)).arg1.toNat ∧
    (args 8 8 (loaded [] 16)).arg0.toNat + (args 8 8 (loaded [] 16)).arg1.toNat ≤ (loaded [] 16).bitlen.toNat := by
  decide +kernel

theorem witness_NrziEffects :
    (loaded [] 16).bitlen.toNat < (args 8 9 (loaded [] 16)).arg0.toNat + (args 8 9 (loaded [] 16)).arg1.toNat ∧
    (args 3 0 (loaded [0xA5#8] 8)).arg0.toNat + (args 3 0 (loaded [0xA5#8] 8)).arg1.toNat ≤ (loaded [0xA5#8] 8).bitlen.toNat ∧
    (Instr.nrziEnc true = .nrziEnc true ∧
      (nrziEncode ((loaded [0xA5#8] 8).bits 3 0) true) = nrziEncode ((loaded [0xA5#8] 8).bits 3 0) true) := by
  decide +kernel

theorem witness_AddressFieldBytes : [0x41#8, 0x42#8, 0x43#8, 0x44#8, 0x45#8, 0x46#8].length ≤ 6 := by decide

theorem witness_PathListLayout : 1 ≤ 2 ∧ (strings.pathListAt 2 30).isSome = true := by decide +kernel

theorem witness_InsDestEffect :
    strings.cfg.argMax < (39#16).toNat + (6#3).toNat ∧ (38#16).toNat + (6#3).toNat ≤ strings.cfg.argMax := by decide +kernel

theorem witness_InsSrcEffect :
    hasSrc.fstate ≠ .hasDest ∧ (hasDest.fstate = .hasDest ∧ hasDest.cfg.argMax < (39#16).toNat + (6#3).toNat) ∧
    (38#16).toNat + (6#3).toNat ≤ hasDest.cfg.argMax := by decide +kernel

/-- HAS_SRC with eight paths recorded, and with offsets too high for another path. -/
def fullPaths : State := { hasSrc with npaths := 8#4 }
def highCtrl : State := { hasSrc with ctrlOff := 36#16 }

theorem witness_InsPathsEffect :
    complete.fstate ≠ .hasSrc ∧ hasSrc.fstate = .hasSrc ∧ 1#4 ≠ 0#4 ∧ hasSrc.pathListAt (1#4).toNat 0 = none ∧
    (hasSrc.pathListAt (1#4).toNat 30 = some [([0x41#8], 0#4)] ∧
      [([0x41#8], 0#4)].zipIdx.flatMap (fun e => addrField e.1.1 e.1.2 (e.2 + 1 == (1#4).toNat)) ++ [0x03#8, 0xF0#8] =
        [0x82#8, 0x40#8, 0x40#8, 0x40#8, 0x40#8, 0x40#8, 0x61#8, 0x03#8, 0xF0#8]) ∧
    (fullPaths.pathListAt (1#4).toNat 30 = some [([0x41#8], 0#4)] ∧ 8 < fullPaths.npaths.toNat + (1#4).toNat) ∧
    (highCtrl.pathListAt (1#4).toNat 30 = some [([0x41#8], 0#4)] ∧ highCtrl.npaths.toNat + (1#4).toNat ≤ 8 ∧
      highCtrl.cfg.frameMax < highCtrl.ctrlOff.toNat + 7 * (1#4).toNat + 2) ∧
    (hasSrc.npaths.toNat + (1#4).toNat ≤ 8 ∧ hasSrc.ctrlOff.toNat + 7 * (1#4).toNat + 2 ≤ hasSrc.cfg.frameMax) := by
  decide +kernel

theorem witness_InsInfoEffect :
    (hasDest.fstate ≠ .hasSrc ∧ hasDest.fstate ≠ .complete) ∧ hasSrc.fstate = .hasSrc ∧
    hasSrc.cfg.argMax < (21#16).toNat + (args 0 24 hasSrc).arg1.toNat ∧
    ((19#16).toNat + (args 0 25 hasSrc).arg1.toNat ≤ hasSrc.cfg.argMax ∧
      hasSrc.cfg.frameMax < hasSrc.infoOff.toNat + (args 0 25 hasSrc).arg1.toNat + 3) ∧
    ((20#16).toNat + (args 0 24 hasSrc).arg1.toNat ≤ hasSrc.cfg.argMax ∧
      hasSrc.infoOff.toNat + (args 0 24 hasSrc).arg1.toNat + 3 ≤ hasSrc.cfg.frameMax) := by decide +kernel

theorem witness_FlagAppendEffect :
    hasSrc.fstate = .hasSrc ∧ (complete.fstate ≠ .empty ∧ complete.fstate ≠ .hasDest ∧ complete.fstate ≠ .hasSrc) ∧
    complete.cfg.frameMax < (loaded [] 352).len.toNat + 1 ∧ (loaded [] 344).len.toNat + 1 ≤ complete.cfg.frameMax := by
  decide +kernel

theorem witness_FrameStateTable :
    exec (.insSrc 6#16 6#3 1#4) hasSrc = .next (after (.insSrc 6#16 6#3 1#4) hasSrc) ∧
    notReadyIn (.insSrc 6#16 6#3 1#4) hasSrc.fstate = true ∧ hasSrc.code = .ok ∧
    (after .validate (loaded [0#8] 8)).code ≠ .ok := ⟨exec_after _ _, by decide +kernel⟩

theorem witness_ReadableFrameCanBeClosed :
    (args 0 11 hasSrc).Inv ∧ exec (.insInfo 12#16) (args 0 11 hasSrc) = .next complete ∧ complete.code = .ok :=
  ⟨inv_complete.1, exec_after _ _, by decide +kernel⟩

theorem witness_ParseOffsetsEffect :
    (∀ i, 15 ≤ i → i < hasDest.len.toNat → hasDest.fbByte i ≠ 0x03#8) ∧
    IsLeast {i | 15 ≤ i ∧ i < plain.len.toNat ∧ plain.fbByte i = 0x03#8} 15 ∧
    (IsLeast {i | 15 ≤ i ∧ i < complete.len.toNat ∧ complete.fbByte i = 0x03#8} 15 ∧
      ∀ i, 15 + 4 ≤ i → i < complete.len.toNat → complete.fbByte i ≠ 0x7E#8) ∧
    IsGreatest {i | 15 + 4 ≤ i ∧ i < plain.len.toNat ∧ plain.fbByte i = 0x7E#8} 30 :=
  ⟨findControl_eq_none.mp (by decide +kernel), findControl_eq_some.mp (by decide +kernel),
    ⟨findControl_eq_some.mp (by decide +kernel), findFlag_eq_none.mp (by decide +kernel)⟩,
    findFlag_eq_some.mp (by decide +kernel)⟩

/-- Streams that VALIDATE refuses for reasons 1 (twice), 2 and 3. -/
def unframed : State := loaded [0x7E#8, 0x00#8] 16
def oddBody : State := loaded [0x7E#8, 0xAF#8, 0xC0#8] 19

theorem witness_ValidateRejectsUnframedStream :
    (loaded [0x7E#8] 7).bitlen.toNat < 8 ∧ (loaded [0x00#8] 8).fbByte 0 ≠ 0x7E#8 ∧
    (8 ≤ unframed.bitlen.toNat ∧ unframed.fbByte 0 = 0x7E#8 ∧
      ∀ j, 8 ≤ j → j + 8 ≤ unframed.bitlen.toNat → unframed.bits j 8 ≠ flagBits) ∧
    (oddBody.fbByte 0 = 0x7E#8 ∧ IsLeast {j | 8 ≤ j ∧ j + 8 ≤ oddBody.bitlen.toNat ∧ oddBody.bits j 8 = flagBits} 11 ∧
      (unstuff (oddBody.bits 8 (11 - 8))).length % 8 ≠ 0) :=
  ⟨by decide +kernel, by decide +kernel,
    ⟨by decide +kernel, by decide +kernel, findEndFlag_eq_none.mp (by decide +kernel)⟩,
    ⟨by decide +kernel, findEndFlag_eq_some.mp (by decide +kernel), by decide +kernel⟩⟩

/-- Unstuffed frames as VALIDATE's last checks see them: no control byte (V-V3), no trailing flag (as V-V6), a wrong FCS
(as V-V7). -/
def noControl : State := loaded [0x7E#8, 0x7E#8, 0x7E#8] 24
def shortBody : State := loaded ([0x7E#8] ++ List.replicate 14 0x40#8 ++ [0x03#8, 0x00#8, 0x11#8, 0x7E#8]) 152
def wrongFcs : State := loaded ([0x7E#8] ++ List.replicate 14 0x40#8 ++ [0x03#8, 0x00#8, 0x11#8, 0x22#8, 0x7E#8]) 160

/-- The common premises, with m = 0 and for a whole frame, and each of the four endings. -/
theorem witness_ValidateUnstuffsAndChecks :
    (noControl.bitlen.toNat ≤ 8 * noControl.cfg.frameMax ∧ noControl.fbByte 0 = 0x7E#8 ∧
      IsLeast {j | 8 ≤ j ∧ j + 8 ≤ noControl.bitlen.toNat ∧ noControl.bits j 8 = flagBits} 8 ∧
      (unstuff (noControl.bits 8 (8 - 8))).length = 8 * 0 ∧ (after .validate noControl).res = 4#32) ∧
    (shortBody.bitlen.toNat ≤ 8 * shortBody.cfg.frameMax ∧ shortBody.fbByte 0 = 0x7E#8 ∧
      IsLeast {j | 8 ≤ j ∧ j + 8 ≤ shortBody.bitlen.toNat ∧ shortBody.bits j 8 = flagBits} 144 ∧
      (unstuff (shortBody.bits 8 (144 - 8))).length = 8 * 17 ∧ (after .validate shortBody).res = 5#32) ∧
    (wrongFcs.bitlen.toNat ≤ 8 * wrongFcs.cfg.frameMax ∧ wrongFcs.fbByte 0 = 0x7E#8 ∧
      IsLeast {j | 8 ≤ j ∧ j + 8 ≤ wrongFcs.bitlen.toNat ∧ wrongFcs.bits j 8 = flagBits} 152 ∧
      (unstuff (wrongFcs.bits 8 (152 - 8))).length = 8 * 18 ∧ (after .validate wrongFcs).res = 6#32) ∧
    (stuffed.bitlen.toNat ≤ 8 * stuffed.cfg.frameMax ∧ stuffed.fbByte 0 = 0x7E#8 ∧
      IsLeast {j | 8 ≤ j ∧ j + 8 ≤ stuffed.bitlen.toNat ∧ stuffed.bits j 8 = flagBits} 242 ∧
      (unstuff (stuffed.bits 8 (242 - 8))).length = 8 * 29 ∧ (after .validate stuffed).code = .ok) :=
  ⟨⟨by decide +kernel, by decide +kernel, findEndFlag_eq_some.mp (by decide +kernel), by decide +kernel, by decide +kernel⟩,
    ⟨by decide +kernel, by decide +kernel, findEndFlag_eq_some.mp (by decide +kernel), by decide +kernel, by decide +kernel⟩,
    ⟨by decide +kernel, by decide +kernel, findEndFlag_eq_some.mp (by decide +kernel), by decide +kernel, by decide +kernel⟩,
    ⟨by decide +kernel, by decide +kernel, findEndFlag_eq_some.mp (by decide +kernel), by decide +kernel, by decide +kernel⟩⟩

theorem witness_ValidFrameShape : stuffed.Inv ∧ exec .validate stuffed = .next valid ∧ valid.code = .ok :=
  ⟨inv_stuffed, exec_after _ _, by decide +kernel⟩

/-- "N0CALL-1" at the end of AB, one byte beyond it, and a state without a source. -/
theorem witness_GetSourceEffect :
    (parsed.fbBytes 8 6).map (fun x : Byte => BitVec.ofNat 8 (x.toNat / 2)) =
      [0x4E#8, 0x30#8, 0x43#8, 0x41#8, 0x4C#8, 0x4C#8] ++ List.replicate 0 0x20#8 ∧
    [0x4E#8, 0x30#8, 0x43#8, 0x41#8, 0x4C#8, 0x4C#8].getLast? ≠ some 0x20#8 ∧ 1 = (parsed.fbByte 14).toNat / 2 % 16 ∧
    parsed.fstate = .valid ∧ (36#16).toNat + 8 ≤ parsed.cfg.argMax ∧ parsed.cfg.argMax < (37#16).toNat + 8 ∧
    (hasDest.fstate ≠ .hasSrc ∧ hasDest.fstate ≠ .complete ∧ hasDest.fstate ≠ .valid) := by decide +kernel

theorem witness_AddressRoundTrip :
    exec (.insDest 0#16 6#3 0#4) strings = .next hasDest ∧ hasDest.code = .ok ∧
    exec (.insSrc 6#16 6#3 1#4) hasDest = .next hasSrc ∧ hasSrc.code = .ok ∧
    [0x4E#8, 0x30#8, 0x43#8, 0x41#8, 0x4C#8, 0x4C#8] = strings.abBytes (6#16).toNat (6#3).toNat ∧
    (∀ b ∈ [0x4E#8, 0x30#8, 0x43#8, 0x41#8, 0x4C#8, 0x4C#8], b.toNat < 0x80) ∧
    [0x4E#8, 0x30#8, 0x43#8, 0x41#8, 0x4C#8, 0x4C#8].getLast? = some 0x4C#8 ∧ 0x4C#8 ≠ 0x20#8 ∧
    (36#16).toNat + 8 ≤ strings.cfg.argMax :=
  ⟨exec_after _ _, by decide +kernel, exec_after _ _, by decide +kernel⟩

/-- The frame stuffed between its flags by the builder's block. -/
def sent : State := after .stuff { closed with arg0 := 8#32, arg1 := BitVec.ofNat 32 (closed.bitlen.toNat - 16) }

theorem witness_BuiltFrameValidates :
    (args 0 11 hasSrc).Inv ∧ (args 0 11 hasSrc).Built ∧ (args 0 11 hasSrc).fstate = .hasSrc ∧
    exec (.insInfo 12#16) (args 0 11 hasSrc) = .next complete ∧ complete.code = .ok ∧
    exec .fcsAppend complete = .next withFcs ∧ exec .flagAppend withFcs = .next closed ∧
    exec .stuff { closed with arg0 := 8#32, arg1 := BitVec.ofNat 32 (closed.bitlen.toNat - 16) } = .next sent ∧
    sent.code = .ok :=
  ⟨inv_complete.1, built_hasSrc, by decide +kernel, exec_after _ _, by decide +kernel, exec_after _ _, exec_after _ _,
    exec_after _ _, by decide +kernel⟩

/-- The same frame on the line, and the block that receives it (the sender itself, its BITLEN rounded up to whole bytes). -/
def preambled : State := after .syncPreamble sent
def coded : State := after (.nrziEnc false) { preambled with arg0 := 0#32, arg1 := BitVec.ofNat 32 preambled.bitlen.toNat }
def roundUp (s : State) : State := { s with bitlen := BitVec.ofNat 20 (8 * s.len.toNat) }
def received : State := roundUp coded
def decoded : State := after (.nrziDec false) { received with arg0 := 0#32, arg1 := BitVec.ofNat 32 received.bitlen.toNat }

theorem roundUp_meets (s : State) :
    (roundUp s).cfg = s.cfg ∧ (roundUp s).syncPat = s.syncPat ∧ (roundUp s).len = s.len ∧
    (roundUp s).bitlen = BitVec.ofNat 20 (8 * s.len.toNat) ∧ ∀ i, i < s.len.toNat → (roundUp s).fbByte i = s.fbByte i :=
  ⟨rfl, rfl, rfl, rfl, fun _ _ => rfl⟩

theorem witness_BuiltFrameValidatesOverTheLine :
    ((args 0 11 hasSrc).Inv ∧ (args 0 11 hasSrc).Built ∧ (args 0 11 hasSrc).fstate = .hasSrc ∧
      exec (.insInfo 12#16) (args 0 11 hasSrc) = .next complete ∧ complete.code = .ok ∧
      exec .fcsAppend complete = .next withFcs ∧ exec .flagAppend withFcs = .next closed ∧
      exec .stuff { closed with arg0 := 8#32, arg1 := BitVec.ofNat 32 (closed.bitlen.toNat - 16) } = .next sent ∧
      sent.code = .ok) ∧
    sent.patBytes.head? ≠ some 0x7E#8 ∧ exec .syncPreamble sent = .next preambled ∧ preambled.code = .ok ∧
    exec (.nrziEnc false) { preambled with arg0 := 0#32, arg1 := BitVec.ofNat 32 preambled.bitlen.toNat } = .next coded ∧
    (received.cfg = coded.cfg ∧ received.syncPat = coded.syncPat ∧ received.len = coded.len ∧
      received.bitlen = BitVec.ofNat 20 (8 * coded.len.toNat) ∧
      ∀ i, i < coded.len.toNat → received.fbByte i = coded.fbByte i) ∧
    exec (.nrziDec false) { received with arg0 := 0#32, arg1 := BitVec.ofNat 32 received.bitlen.toNat } = .next decoded ∧
    exec .syncStrip decoded = .next (after .syncStrip decoded) :=
  ⟨witness_BuiltFrameValidates, by decide +kernel, exec_after _ _, by decide +kernel, exec_after _ _,
    roundUp_meets coded, exec_after _ _, exec_after _ _⟩

theorem witness_PatternByteForm : 1 < blank.cfg.syncBytes := by decide +kernel

/-- P = D3 91; two copies and a part of a third (V-S6), and no copy at all. -/
def stripped : State := { loaded [0xD3#8, 0x91#8, 0xD3#8, 0x91#8, 0xD3#8, 0x7E#8, 0x82#8] 56 with syncPat := 0xD391#32 }

theorem witness_SyncStripEffect :
    stripped.len.toNat = (stripped.bitlen.toNat + 7) / 8 ∧ 4 = 2 * stripped.cfg.syncBytes ∧ 4 ≤ stripped.bitlen.toNat / 8 ∧
    (∀ k, k < 2 → stripped.fbBytes (k * stripped.cfg.syncBytes) stripped.cfg.syncBytes = stripped.patBytes) ∧
    ¬(4 + stripped.cfg.syncBytes ≤ stripped.bitlen.toNat / 8 ∧
      stripped.fbBytes 4 stripped.cfg.syncBytes = stripped.patBytes) := by decide +kernel

theorem witness_SyncPreambleEffect :
    2 = blank.cfg.syncBytes ∧ blank.cfg.frameMax < (loaded [] 328).len.toNat + 2 * 2 ∧
    (loaded [] 320).len.toNat + 2 * 2 ≤ blank.cfg.frameMax := by decide +kernel

theorem witness_StripUndoesPreamble :
    stuffed.Inv ∧ ¬(stuffed.cfg.syncBytes ≤ stuffed.bitlen.toNat / 8 ∧
      stuffed.fbBytes 0 stuffed.cfg.syncBytes = stuffed.patBytes) ∧
    exec .syncPreamble stuffed = .next (after .syncPreamble stuffed) ∧ (after .syncPreamble stuffed).code = .ok ∧
    exec .syncStrip (after .syncPreamble stuffed) = .next (after .syncStrip (after .syncPreamble stuffed)) :=
  ⟨inv_stuffed, by decide +kernel, exec_after _ _, by decide +kernel, exec_after _ _⟩

theorem witness_DetectorFindsExactlyThePattern :
    exec (.syncCtl true) blank = .next (after (.syncCtl true) blank) ∧
    ((List.replicate 16 false).foldl State.lineBit (after (.syncCtl true) blank)).syncDet = true ∧
    ((List.replicate 15 false).foldl State.lineBit (after (.syncCtl true) blank)).syncDet = false :=
  ⟨exec_after _ _, by decide +kernel⟩

theorem witness_FailureChangesOnlyCodeAndRes :
    exec .crcCheck blank = .next (after .crcCheck blank) ∧ (after .crcCheck blank).code ≠ .ok ∧ Instr.crcCheck ≠ .validate ∧
    exec .validate unframed = .next (after .validate unframed) ∧ (after .validate unframed).code ≠ .ok ∧
    (after .validate unframed).res.toNat ≤ 3 :=
  ⟨exec_after _ _, by decide +kernel, by decide, exec_after _ _, by decide +kernel⟩

theorem witness_StepKeepsInv : stuffed.Inv ∧ step stuffed = .next stuffed ∧
    step (given (.lineBit true) blank) = .next { blank with inputs := [.rst] } := ⟨inv_stuffed, rfl, rfl⟩

theorem witness_StepKeepsBuiltFrame :
    (args 0 11 hasSrc).Inv ∧ (args 0 11 hasSrc).Built ∧
    (∀ e rest, (args 0 11 hasSrc).inputs = e :: rest → e.writesFb = false) ∧
    (Input.hostWrite 0#14 4 0x000C0034#32).writesFb = false ∧
    step (args 0 11 hasSrc) = .next (args 0 11 hasSrc) := by
  refine ⟨inv_complete.1, built_hasSrc, fun e rest h => ?_, by decide, rfl⟩
  have : (args 0 11 hasSrc).inputs = [] := by decide +kernel
  rw [this] at h
  cases h

theorem witness_LineBitCommutesWithCommands :
    (∀ en, Instr.validate ≠ .syncCtl en) ∧ exec .validate { stuffed with syncEn := true } =
      .next (after .validate { stuffed with syncEn := true }) := ⟨by decide, exec_after _ _⟩

end Sys2Proof.Tests
end

section
/-! SUPPORT. What a step can do, said once: the endings of every command and the effects of every input, each with the
guards under which the model reaches it. The invariants are proved by cases on these. -/

namespace Sys2Proof.Machine

variable {s t : State}

/-! ### The search of ParseOffsets() -/

theorem parse_eq_found {c e : Nat} : s.parse = .found c e ↔ s.findControl = some c ∧ s.findFlag c = some e := by
  unfold State.parse
  cases s.findControl with
  | none => simp
  | some c' =>
    cases hf : s.findFlag c' with
    | none =>
      simp only [hf, reduceCtorEq, Option.some.injEq, false_iff]
      rintro ⟨rfl, he⟩
      rw [hf] at he
      cases he
    | some e' =>
      simp only [hf, Parse.found.injEq, Option.some.injEq]
      constructor
      · rintro ⟨rfl, rfl⟩; exact ⟨rfl, hf⟩
      · rintro ⟨rfl, he⟩; exact ⟨rfl, Option.some.inj (hf.symm.trans he)⟩

/-- What ParseOffsets() finds lies inside the stream, behind the two address fields (43_frame_parser.md rule R200). -/
theorem parse_found_bounds {c e : Nat} (h : s.parse = .found c e) : 15 ≤ c ∧ c + 4 ≤ e ∧ e < s.len.toNat := by
  obtain ⟨hc, he⟩ := parse_eq_found.mp h
  exact ⟨(findControl_eq_some.mp hc).1.1, (findFlag_eq_some.mp he).1.1, (findFlag_eq_some.mp he).1.2.1⟩

/-! ### The endings of the commands -/

/-- `s.Runs i t`: command `i` may end in `t`. One constructor for each successful ending, with the checks that lead to it,
one for the failures that change only CODE and RES, and three for those of VALIDATE. -/
inductive State.Runs (s : State) : Instr → State → Prop where
  | failed (i : Instr) (c : Code) (r : Word) (hc : c ≠ .ok) (hi : i ≠ .validate) : s.Runs i (s.raise c r)
  | crcCompute (hm : s.argStart + s.argCount ≤ s.cfg.frameMax) :
      s.Runs .crcCompute (s.finish ((fcs (s.fbBytes s.argStart s.argCount)).setWidth 32))
  | crcCheck (hv : s.fcsv = true) : s.Runs .crcCheck (s.finish ((BitVec.ofBool s.fcsMatches).setWidth 32))
  | fcsAppend (hd : s.fstate ≠ .hasDest) (hs : s.fstate ≠ .hasSrc) (hl : 1 ≤ s.len.toNat)
      (hm : s.len.toNat + 2 ≤ s.cfg.frameMax) : s.Runs .fcsAppend s.appendFcs
  | stuff (hr : s.regionFits = true) (hm : (s.spliced (stuff s.region)).length ≤ 8 * s.cfg.frameMax) :
      s.Runs .stuff (s.replaceRegion (stuff s.region))
  | unstuff (hr : s.regionFits = true) : s.Runs .unstuff (s.replaceRegion (unstuff s.region))
  | nrziEnc (start : Bool) (hr : s.regionFits = true) :
      s.Runs (.nrziEnc start) (s.codeRegion (nrziEncode s.region start))
  | nrziDec (start : Bool) (hr : s.regionFits = true) :
      s.Runs (.nrziDec start) (s.codeRegion (nrziDecode s.region start))
  | fbClear : s.Runs .fbClear (s.clearFrame.finish 0#32)
  | insDest (a : BitVec 16) (n : BitVec 3) (ssid : BitVec 4) (hi : s.inAb a.toNat n.toNat = true) :
      s.Runs (.insDest a n ssid) (s.insertDest (s.abBytes a.toNat n.toNat) ssid)
  | insSrc (a : BitVec 16) (n : BitVec 3) (ssid : BitVec 4) (hf : s.fstate = .hasDest)
      (hi : s.inAb a.toNat n.toNat = true) :
      s.Runs (.insSrc a n ssid) (s.insertSrc (s.abBytes a.toNat n.toNat) ssid)
  | noPaths (a : BitVec 16) (hf : s.fstate = .hasSrc) : s.Runs (.insPaths a 0#4) (s.finish 0#32)
  | insPaths (a : BitVec 16) (k : BitVec 4) (Q : List (List Byte × BitVec 4)) (hf : s.fstate = .hasSrc) (hk : k ≠ 0#4)
      (hQ : s.pathListAt k.toNat a.toNat = some Q) (hn : s.npaths.toNat + Q.length ≤ 8)
      (hm : s.ctrlOff.toNat + 7 * Q.length + 2 ≤ s.cfg.frameMax) : s.Runs (.insPaths a k) (s.insertPaths Q)
  | insInfo (a : BitVec 16) (hf : s.fstate = .hasSrc ∨ s.fstate = .complete) (hi : s.inAb a.toNat s.argCount = true)
      (hm : s.infoOff.toNat + s.argCount + 3 ≤ s.cfg.frameMax) :
      s.Runs (.insInfo a) (s.insertInfo (s.abBytes a.toNat s.argCount))
  | flagAppend (he : s.fstate ≠ .empty) (hd : s.fstate ≠ .hasDest) (hs : s.fstate ≠ .hasSrc)
      (hm : s.len.toNat + 1 ≤ s.cfg.frameMax) : s.Runs .flagAppend s.appendFlag
  | parseOffsets (c e : Nat) (hp : s.parse = .found c e) : s.Runs .parseOffsets ((s.recordOffsets c e).finish 0#32)
  | rejected (r : Word) : s.Runs .validate (s.invalidate r)
  | rejectedBody (p : Nat) (r : Word) (hp : s.findEndFlag = some p) (hB : (s.body p).length % 8 = 0) :
      s.Runs .validate ((s.putBody (s.body p)).invalidate r)
  | rejectedFcs (p c e : Nat) (hp : s.findEndFlag = some p) (hB : (s.body p).length % 8 = 0)
      (hce : (s.putBody (s.body p)).parse = .found c e) :
      s.Runs .validate (((s.putBody (s.body p)).recordOffsets c e).invalidate 6#32)
  | validated (p c e : Nat) (h0 : s.fbByte 0 = flagByte) (hp : s.findEndFlag = some p)
      (hB : (s.body p).length % 8 = 0) (hce : (s.putBody (s.body p)).parse = .found c e)
      (hm : ((s.putBody (s.body p)).recordOffsets c e).fcsMatches = true) :
      s.Runs .validate ((((s.putBody (s.body p)).recordOffsets c e).enter .valid).finish 0#32)
  | getSource (a : BitVec 16) (hf : s.fstate = .hasSrc ∨ s.fstate = .complete ∨ s.fstate = .valid)
      (hi : s.inAb a.toNat s.sourceText.length = true) :
      s.Runs (.getSource a) ((s.setAb a.toNat s.sourceText).finish (BitVec.ofNat 32 s.sourceText.length))
  | arm : s.Runs (.syncCtl true) ({ s with syncSr := 0#32, syncCnt := 0, syncDet := false, syncEn := true }.finish 0#32)
  | disarm : s.Runs (.syncCtl false) ({ s with syncEn := false, syncDet := false }.finish 0#32)
  | syncStrip :
      s.Runs .syncStrip ((s.dropBytes s.stripLength).markRaw.finish (BitVec.ofNat 32 s.stripLength))
  | syncPreamble (hm : s.len.toNat + 2 * s.cfg.syncBytes ≤ s.cfg.frameMax) : s.Runs .syncPreamble s.addPreamble

/-- INS_PATHS with a well-formed list ends as rule R168 of 42_frame_builder.md says. -/
theorem runs_checkPaths {a : BitVec 16} {k : BitVec 4} {Q : List (List Byte × BitVec 4)} (hf : s.fstate = .hasSrc)
    (hk : k ≠ 0#4) (hQ : s.pathListAt k.toNat a.toNat = some Q) : s.Runs (.insPaths a k) (s.checkPaths Q) := by
  unfold State.checkPaths
  split
  · exact .failed _ _ _ nofun nofun
  next hn =>
    split
    · exact .failed _ _ _ nofun nofun
    next hm => exact .insPaths a k Q hf hk hQ (Nat.le_of_not_lt hn) (Nat.le_of_not_lt hm)

/-- VALIDATE from its rewrite of FB on ends as rule R203 of 43_frame_parser.md says. -/
theorem runs_acceptBody {p : Nat} (h0 : s.fbByte 0 = flagByte) (hp : s.findEndFlag = some p)
    (hB : (s.body p).length % 8 = 0) : s.Runs .validate (s.putBody (s.body p)).acceptBody := by
  unfold State.acceptBody
  split
  · exact .rejectedBody p _ hp hB
  · exact .rejectedBody p _ hp hB
  next c e hce =>
    split
    next hm => exact .validated p c e h0 hp hB hce hm
    next => exact .rejectedFcs p c e hp hB hce

/-- VALIDATE (43_frame_parser.md rule R203). -/
theorem runs_execValidate (s : State) : ∃ t, execValidate s = .next t ∧ s.Runs .validate t := by
  refine ⟨_, rfl, ?_⟩
  split
  · exact .rejected _
  next h =>
    have h0 : s.fbByte 0 = flagByte := not_not.mp (not_or.mp h).2
    cases hp : s.findEndFlag with
    | none => exact .rejected _
    | some p =>
      change s.Runs .validate (s.validateBody p)
      unfold State.validateBody
      split
      · exact .rejected _
      next hB => exact runs_acceptBody h0 hp (by simpa using hB)

/-- INS_PATHS (42_frame_builder.md rule R168). -/
theorem runs_execInsPaths (a : BitVec 16) (k : BitVec 4) (s : State) :
    ∃ t, execInsPaths a k s = .next t ∧ s.Runs (.insPaths a k) t := by
  refine ⟨_, rfl, ?_⟩
  split
  · exact .failed _ _ _ nofun nofun
  next hf =>
    have hf : s.fstate = .hasSrc := by simpa using hf
    split
    next hk => subst hk; exact .noPaths a hf
    next hk =>
      cases hQ : s.pathListAt k.toNat a.toNat with
      | none => exact .failed _ _ _ nofun nofun
      | some Q => exact runs_checkPaths hf hk hQ

/-- Every command ends, and in one of its endings. -/
theorem exists_exec_runs (i : Instr) (s : State) : ∃ t, exec i s = .next t ∧ s.Runs i t := by
  cases i with
  | crcCompute =>
    refine ⟨_, rfl, ?_⟩
    split
    next hm => exact .crcCompute hm
    next => exact .failed _ _ _ nofun nofun
  | crcCheck =>
    refine ⟨_, rfl, ?_⟩
    split
    next hv => exact .crcCheck hv
    next => exact .failed _ _ _ nofun nofun
  | fcsAppend =>
    refine ⟨_, rfl, ?_⟩
    split
    · exact .failed _ _ _ nofun nofun
    next hf =>
      obtain ⟨hd, hs⟩ := not_or.mp hf
      split
      · exact .failed _ _ _ nofun nofun
      · split
        · exact .failed _ _ _ nofun nofun
        · exact .fcsAppend hd hs (by omega) (by omega)
  | stuff =>
    refine ⟨_, rfl, ?_⟩
    split
    next hr =>
      split
      · exact .failed _ _ _ nofun nofun
      next hm => exact .stuff hr (Nat.le_of_not_lt hm)
    next => exact .failed _ _ _ nofun nofun
  | unstuff =>
    refine ⟨_, rfl, ?_⟩
    split
    next hr => exact .unstuff hr
    next => exact .failed _ _ _ nofun nofun
  | nrziEnc start =>
    refine ⟨_, rfl, ?_⟩
    split
    next hr => exact .nrziEnc start hr
    next => exact .failed _ _ _ nofun nofun
  | nrziDec start =>
    refine ⟨_, rfl, ?_⟩
    split
    next hr => exact .nrziDec start hr
    next => exact .failed _ _ _ nofun nofun
  | fbClear => exact ⟨_, rfl, .fbClear⟩
  | insDest a n ssid =>
    refine ⟨_, rfl, ?_⟩
    split
    next hi => exact .insDest a n ssid hi
    next => exact .failed _ _ _ nofun nofun
  | insSrc a n ssid =>
    refine ⟨_, rfl, ?_⟩
    split
    · exact .failed _ _ _ nofun nofun
    next hf =>
      split
      next hi => exact .insSrc a n ssid (by simpa using hf) hi
      next => exact .failed _ _ _ nofun nofun
  | insPaths a k => exact runs_execInsPaths a k s
  | insInfo a =>
    refine ⟨_, rfl, ?_⟩
    split
    · exact .failed _ _ _ nofun nofun
    next hf =>
      split
      next hi =>
        split
        · exact .failed _ _ _ nofun nofun
        next hm => exact .insInfo a (by tauto) hi (Nat.le_of_not_lt hm)
      next => exact .failed _ _ _ nofun nofun
  | flagAppend =>
    refine ⟨_, rfl, ?_⟩
    split
    · exact .failed _ _ _ nofun nofun
    next hf =>
      simp only [not_or] at hf
      obtain ⟨he, hd, hs⟩ := hf
      split
      · exact .failed _ _ _ nofun nofun
      next hm => exact .flagAppend he hd hs (Nat.le_of_not_lt hm)
  | parseOffsets =>
    refine ⟨_, rfl, ?_⟩
    split
    next c e hp => exact .parseOffsets c e hp
    · exact .failed _ _ _ nofun nofun
    · exact .failed _ _ _ nofun nofun
  | validate => exact runs_execValidate s
  | getSource a =>
    refine ⟨_, rfl, ?_⟩
    split
    · exact .failed _ _ _ nofun nofun
    next hf =>
      split
      next hi => exact .getSource a (by tauto) hi
      next => exact .failed _ _ _ nofun nofun
  | syncCtl enable =>
    cases enable with
    | true => exact ⟨_, rfl, .arm⟩
    | false => exact ⟨_, rfl, .disarm⟩
  | syncStrip => exact ⟨_, rfl, .syncStrip⟩
  | syncPreamble =>
    refine ⟨_, rfl, ?_⟩
    split
    · exact .failed _ _ _ nofun nofun
    next hm => exact .syncPreamble (Nat.le_of_not_lt hm)

/-- A command that answers `t` ends in one of its endings. -/
theorem runs_of_exec {i : Instr} (h : exec i s = .next t) : s.Runs i t := by
  obtain ⟨u, hu, hr⟩ := exists_exec_runs i s
  rw [h] at hu
  cases hu
  exact hr

/-! ### The effects of the inputs -/

theorem areaOf_eq_fbw {off : BitVec 14} {i : Nat} (h : areaOf off = .fbw i) : off.toNat = 0x1000 + i ∧ i < 0x1000 := by
  simp only [areaOf] at h
  split_ifs at h
  have hi := Area.fbw.inj h
  omega

/-- `s.Effect e t`: input `e` may take `s` to `t`. One constructor for each thing an access, a line bit or `rst` can do;
which register a write reaches is left open. -/
inductive State.Effect (s : State) : Input → State → Prop where
  | read (off : BitVec 14) (n : Nat) : s.Effect (.hostRead off n) { s with hostData := some (s.readValue off) }
  | ignored (off : BitVec 14) (n : Nat) (v : Word) : s.Effect (.hostWrite off n v) s
  | command (off : BitVec 14) (n : Nat) (w : Word) (i : Instr) (t : State) (hw : decode w = .ok i)
      (hx : { s with cmd := w }.Runs i t) : s.Effect (.hostWrite off n w) t
  | illegal (off : BitVec 14) (n : Nat) (w : Word) :
      s.Effect (.hostWrite off n w) ({ s with cmd := w }.raise .illegal 0#32)
  | arg0 (off : BitVec 14) (n : Nat) (w : Word) : s.Effect (.hostWrite off n w) { s with arg0 := w }
  | arg1 (off : BitVec 14) (n : Nat) (w : Word) : s.Effect (.hostWrite off n w) { s with arg1 := w }
  | syncPat (off : BitVec 14) (n : Nat) (w : Word) : s.Effect (.hostWrite off n w) { s with syncPat := w }
  | len (off : BitVec 14) (n : Nat) (w : Word) : s.Effect (.hostWrite off n w) (s.hostSetLen w)
  | bitlen (off : BitVec 14) (n : Nat) (w : Word) : s.Effect (.hostWrite off n w) (s.hostSetBitlen w)
  | storeFb (off : BitVec 14) (n : Nat) (v : Word) (i : Nat) (ho : off.toNat = 0x1000 + i) (hw : i < 0x1000)
      (hi : i < s.cfg.frameMax) : s.Effect (.hostWrite off n v) (s.setFb i [v.extractLsb' 0 8])
  | storeAb (off : BitVec 14) (n : Nat) (v : Word) (i : Nat) (hi : i < s.cfg.argMax) :
      s.Effect (.hostWrite off n v) (s.setAb i [v.extractLsb' 0 8])
  | lineBit (b : Bool) : s.Effect (.lineBit b) (s.lineBit b)
  | rst : s.Effect .rst s.assertReset

/-- A write of CMD (30_encoding.md rule R90). -/
theorem effect_issue {off : BitVec 14} {n : Nat} {w : Word} (h : s.issue w = .next t) :
    s.Effect (.hostWrite off n w) t := by
  unfold State.issue at h
  split at h
  next i hw => exact .command off n w i t hw (runs_of_exec h)
  next => cases h; exact .illegal off n w

/-- A write of a register (10_state.md rule R23). -/
theorem effect_writeReg {off : BitVec 14} {n : Nat} {w : Word} {r : Reg} (h : s.writeReg r w = .next t) :
    s.Effect (.hostWrite off n w) t := by
  cases r <;> simp only [State.writeReg] at h
  case cmd => exact effect_issue h
  case arg0 => cases h; exact .arg0 off n w
  case arg1 => cases h; exact .arg1 off n w
  case len => cases h; exact .len off n w
  case bitlen => cases h; exact .bitlen off n w
  case syncPat => cases h; exact .syncPat off n w
  all_goals cases h; exact .ignored off n w

/-- An admitted write (20_memory.md rules R65 and R66). -/
theorem effect_writeValue {off : BitVec 14} {n : Nat} {v : Word} (h : s.writeValue off v = .next t) :
    s.Effect (.hostWrite off n v) t := by
  unfold State.writeValue at h
  split at h
  next o _ =>
    cases hr : regAt o with
    | none => simp only [hr] at h; cases h; exact .ignored off n v
    | some r => simp only [hr] at h; exact effect_writeReg h
  next i ha =>
    cases h
    split
    next hi => exact .storeFb off n v i (areaOf_eq_fbw ha).1 (areaOf_eq_fbw ha).2 hi
    next => exact .ignored off n v
  next i _ =>
    cases h
    split
    next hi => exact .storeAb off n v i hi
    next => exact .ignored off n v
  next => cases h; exact .ignored off n v

/-- An input that has a step has one of its effects. -/
theorem effect_of_perform {e : Input} (h : s.perform e = .next t) : s.Effect e t := by
  cases e with
  | hostRead off n =>
    simp only [State.perform, State.hostRead] at h
    split at h
    · cases h; exact .read off n
    · cases h
  | hostWrite off n v =>
    simp only [State.perform, State.hostWrite] at h
    split at h
    · exact effect_writeValue h
    · cases h
  | lineBit b => cases h; exact .lineBit b
  | rst => cases h; exact .rst

/-- A step waits when no input is left, and else has the effect of the next input. -/
theorem step_cases (h : step s = .next t) :
    t = s ∨ ∃ e rest, s.inputs = e :: rest ∧ { s with inputs := rest }.Effect e t := by
  cases hin : s.inputs with
  | nil =>
    rw [step, takeInput_nil hin] at h
    cases h
    exact .inl rfl
  | cons e rest =>
    rw [step_cons hin] at h
    exact .inr ⟨e, rest, rfl, effect_of_perform h⟩

end Sys2Proof.Machine
end

section
/-! SUPPORT. The invariant `State.Inv`, kept by every shared operation, every command and every input. -/

namespace Sys2Proof.Machine

variable {s t : State}

/-! ### What INS_SRC and INS_PATHS write but FB -/

@[simp] theorem insertSrc_cfg (s : State) (C : List Byte) (ssid : BitVec 4) :
    (s.insertSrc C ssid).cfg = s.cfg := by simp [State.insertSrc]
@[simp] theorem insertSrc_ctrlOff (s : State) (C : List Byte) (ssid : BitVec 4) :
    (s.insertSrc C ssid).ctrlOff = 15#16 := by simp [State.insertSrc]
@[simp] theorem insertSrc_infoOff (s : State) (C : List Byte) (ssid : BitVec 4) :
    (s.insertSrc C ssid).infoOff = 17#16 := by simp [State.insertSrc]
@[simp] theorem insertSrc_len (s : State) (C : List Byte) (ssid : BitVec 4) :
    (s.insertSrc C ssid).len = 17#16 := by simp [State.insertSrc]
@[simp] theorem insertSrc_npaths (s : State) (C : List Byte) (ssid : BitVec 4) :
    (s.insertSrc C ssid).npaths = s.npaths := by simp [State.insertSrc]

@[simp] theorem insertPaths_cfg (s : State) (Q : List (List Byte × BitVec 4)) :
    (s.insertPaths Q).cfg = s.cfg := by simp [State.insertPaths]
@[simp] theorem insertPaths_fstate (s : State) (Q : List (List Byte × BitVec 4)) :
    (s.insertPaths Q).fstate = s.fstate := by simp [State.insertPaths]
@[simp] theorem insertPaths_readable (s : State) (Q : List (List Byte × BitVec 4)) :
    (s.insertPaths Q).readable = s.readable := by simp [State.insertPaths]
@[simp] theorem insertPaths_offv (s : State) (Q : List (List Byte × BitVec 4)) :
    (s.insertPaths Q).offv = s.offv := by simp [State.insertPaths]
@[simp] theorem insertPaths_fcsv (s : State) (Q : List (List Byte × BitVec 4)) :
    (s.insertPaths Q).fcsv = false := by simp [State.insertPaths]
@[simp] theorem insertPaths_ctrlOff (s : State) (Q : List (List Byte × BitVec 4)) :
    (s.insertPaths Q).ctrlOff = BitVec.ofNat 16 (s.ctrlOff.toNat + 7 * Q.length) := by simp [State.insertPaths]
@[simp] theorem insertPaths_infoOff (s : State) (Q : List (List Byte × BitVec 4)) :
    (s.insertPaths Q).infoOff = BitVec.ofNat 16 (s.ctrlOff.toNat + 7 * Q.length + 2) := by simp [State.insertPaths]
@[simp] theorem insertPaths_len (s : State) (Q : List (List Byte × BitVec 4)) :
    (s.insertPaths Q).len = BitVec.ofNat 16 (s.ctrlOff.toNat + 7 * Q.length + 2) := by simp [State.insertPaths]
@[simp] theorem insertPaths_npaths (s : State) (Q : List (List Byte × BitVec 4)) :
    (s.insertPaths Q).npaths = BitVec.ofNat 4 (s.npaths.toNat + Q.length) := by simp [State.insertPaths]

/-! ### The bounds, which no update of the frame state can break -/

/-- The part of `State.Inv` that speaks of neither FSTATE nor the offset flags: what fits where, and the sync unit. -/
structure State.Bounded (s : State) : Prop where
  fb_wf : s.fb.wf = true
  fb_below : s.fb.below s.cfg.frameMax = true
  ab_wf : s.ab.wf = true
  ab_below : s.ab.below s.cfg.argMax = true
  len_eq : s.len.toNat = (s.bitlen.toNat + 7) / 8
  bitlen_le : s.bitlen.toNat ≤ 8 * s.cfg.frameMax
  npaths_le : s.npaths.toNat ≤ 8
  syncSr_lt : s.syncSr.toNat < 2 ^ s.cfg.syncBits
  syncCnt_le : s.syncCnt ≤ s.cfg.syncBits
  sync_disarmed : s.syncDet = true → s.syncEn = false

theorem State.Inv.bounded (h : s.Inv) : s.Bounded := { h with }

/-- A byte count inside FB fits LEN (10_state.md rule R33). -/
theorem toNat_ofNat_of_le_frameMax {c : Config} {v : Nat} (h : v ≤ c.frameMax) : (BitVec.ofNat 16 v).toNat = v := by
  have := frameMax_le c
  rw [BitVec.toNat_ofNat, Nat.mod_eq_of_lt (by omega)]

/-- A bit count inside FB fits BITLEN (10_state.md rule R34). -/
theorem toNat_ofNat_of_le_frameBits {c : Config} {m : Nat} (h : m ≤ 8 * c.frameMax) : (BitVec.ofNat 20 m).toNat = m := by
  have := frameMax_le c
  rw [BitVec.toNat_ofNat, Nat.mod_eq_of_lt (by omega)]

namespace State.Bounded

/-- LEN <= FRAME_MAX, since BITLEN <= 8 * FRAME_MAX. -/
theorem len_le (h : s.Bounded) : s.len.toNat ≤ s.cfg.frameMax := by
  have := h.len_eq
  have := h.bitlen_le
  omega

theorem finish (h : s.Bounded) (r : Word) : (s.finish r).Bounded := { h with }

theorem enter (h : s.Bounded) (f : FState) : (s.enter f).Bounded := { h with }

theorem setFb (h : s.Bounded) {a : Nat} {bs : List Byte} (ha : a + bs.length ≤ s.cfg.frameMax) :
    (s.setFb a bs).Bounded :=
  { h with fb_wf := Memory.wf_writeBytes bs h.fb_wf a, fb_below := Memory.below_writeBytes bs h.fb_below ha }

theorem setAb (h : s.Bounded) {a : Nat} {bs : List Byte} (ha : a + bs.length ≤ s.cfg.argMax) :
    (s.setAb a bs).Bounded :=
  { h with ab_wf := Memory.wf_writeBytes bs h.ab_wf a, ab_below := Memory.below_writeBytes bs h.ab_below ha }

theorem setBitlen (h : s.Bounded) {m : Nat} (hm : m ≤ 8 * s.cfg.frameMax) : (s.setBitlen m).Bounded :=
  { h with
    len_eq := by
      rw [setBitlen_len, setBitlen_bitlen, toNat_ofNat_of_le_frameBits hm,
        toNat_ofNat_of_le_frameMax (c := s.cfg) (by omega)]
    bitlen_le := by rw [setBitlen_bitlen, toNat_ofNat_of_le_frameBits hm]; exact hm }

/-- Setting LEN to v is setting BITLEN to 8v (10_state.md rule R36). -/
theorem setLen (h : s.Bounded) {v : Nat} (hv : v ≤ s.cfg.frameMax) : (s.setLen v).Bounded := by
  have heq : s.setLen v = s.setBitlen (8 * v) := by
    rw [State.setLen, State.setBitlen, show (8 * v + 7) / 8 = v by omega]
  rw [heq]
  exact h.setBitlen (by omega)

theorem setBit (h : s.Bounded) {j : Nat} (hj : j < 8 * s.cfg.frameMax) (b : Bool) : (s.setBit j b).Bounded :=
  h.setFb (show j / 8 + 1 ≤ _ by omega)

theorem setBits (bs : Bits) (h : s.Bounded) {a : Nat} (ha : a + bs.length ≤ 8 * s.cfg.frameMax) :
    (s.setBits a bs).Bounded := by
  induction bs generalizing s a with
  | nil => exact h
  | cons b bs ih =>
    rw [List.length_cons] at ha
    exact ih (h.setBit (by omega) b) (show a + 1 + bs.length ≤ 8 * s.cfg.frameMax by omega)

theorem writeStream (h : s.Bounded) {S : Bits} (hS : S.length ≤ 8 * s.cfg.frameMax) : (s.writeStream S).Bounded :=
  (h.setFb (by rw [length_packBits]; omega)).setBitlen hS

theorem placeControl (h : s.Bounded) {c : Nat} (hc : c + 2 ≤ s.cfg.frameMax) : (s.placeControl c).Bounded :=
  { h.setLen hc with }

theorem countPaths (h : s.Bounded) {n : Nat} (hn : n ≤ 8) (offv : Bool) :
    State.Bounded { s with offv := offv, npaths := BitVec.ofNat 4 n } :=
  { h with npaths_le := by rw [BitVec.toNat_ofNat, Nat.mod_eq_of_lt (by omega)]; exact hn }

/-- FB, LEN, BITLEN and NPATHS are zero; the rest is as before. -/
theorem clearFrame (h : s.Bounded) : s.clearFrame.Bounded :=
  { h with
    fb_wf := Memory.wf_filled _ _
    fb_below := Memory.below_filled _ _
    len_eq := by simp
    bitlen_le := Nat.zero_le _
    npaths_le := Nat.zero_le _ }

/-- VALIDATE's rewrite in place stays inside the stream it unstuffs (43_frame_parser.md rule R203). -/
theorem putBody (h : s.Bounded) {p : Nat} (hp : s.findEndFlag = some p) (hB : (s.body p).length % 8 = 0) :
    (s.body p).length / 8 + 2 ≤ s.cfg.frameMax ∧ (s.putBody (s.body p)).Bounded := by
  obtain ⟨hp8, hpb, -⟩ := (findEndFlag_eq_some.mp hp).1
  have hlen : (s.body p).length ≤ p - 8 := by simpa [State.body] using length_unstuff_le (s.bits 8 (p - 8))
  have hbit := h.bitlen_le
  refine ⟨by omega, (h.setFb ?_).setLen (show _ ≤ s.cfg.frameMax by omega)⟩
  rw [List.length_append, length_packBits, List.length_singleton]
  omega

/-- The offsets that ParseOffsets() records lie inside the stream (43_frame_parser.md rule R200). -/
theorem recordOffsets_bounds (h : s.Bounded) {c e : Nat} (hp : s.parse = .found c e) :
    (15 ≤ (s.recordOffsets c e).ctrlOff.toNat ∧
      (s.recordOffsets c e).infoOff.toNat = (s.recordOffsets c e).ctrlOff.toNat + 2 ∧
      (s.recordOffsets c e).infoOff.toNat ≤ s.cfg.frameMax) ∧
    1 ≤ (s.recordOffsets c e).fcsOff.toNat ∧ (s.recordOffsets c e).fcsOff.toNat + 2 ≤ s.cfg.frameMax := by
  obtain ⟨hc, hce, hel⟩ := parse_found_bounds hp
  have hlen := h.len_le
  rw [recordOffsets_ctrlOff, recordOffsets_infoOff, recordOffsets_fcsOff,
    toNat_ofNat_of_le_frameMax (c := s.cfg) (v := c) (by omega),
    toNat_ofNat_of_le_frameMax (c := s.cfg) (v := c + 2) (by omega),
    toNat_ofNat_of_le_frameMax (c := s.cfg) (v := e - 2) (by omega)]
  omega

/-! ### From the bounds to the invariant, in the frame states that promise no offsets -/

/-- RAW promises only READABLE = 0, with both offset flags down (10_state.md rules R28 and R35). -/
theorem markRaw_inv (h : s.Bounded) : s.markRaw.Inv :=
  { h with
    readable_eq := rfl
    offv_offsets := nofun
    fcsv_offset := nofun
    empty_row := nofun
    hasDest_row := nofun
    built_offv := by simp
    valid_flags := nofun }

/-- INVALID promises as little (43_frame_parser.md rule R203). -/
theorem invalidate_inv (h : s.Bounded) (r : Word) : (s.invalidate r).Inv :=
  { h with
    readable_eq := rfl
    offv_offsets := nofun
    fcsv_offset := nofun
    empty_row := nofun
    hasDest_row := nofun
    built_offv := by simp
    valid_flags := nofun }

/-- VALID has both flags up and the offsets of the parse (43_frame_parser.md rule R203). -/
theorem enter_valid_recordOffsets (h : s.Bounded) {c e : Nat} (hp : s.parse = .found c e) :
    ((s.recordOffsets c e).enter .valid).Inv := by
  obtain ⟨hoffs, hfcs⟩ := h.recordOffsets_bounds hp
  exact
    { h with
      readable_eq := rfl
      offv_offsets := fun _ => hoffs
      fcsv_offset := fun _ => hfcs
      empty_row := nofun
      hasDest_row := nofun
      built_offv := fun _ => rfl
      valid_flags := fun _ => ⟨rfl, rfl⟩ }

end State.Bounded

/-! ### The invariant, kept by each operation -/

namespace State.Inv

theorem raise (h : s.Inv) (c : Code) (r : Word) : (s.raise c r).Inv := { h with }

theorem finish (h : s.Inv) (r : Word) : (s.finish r).Inv := { h with }

theorem setFb (h : s.Inv) {a : Nat} {bs : List Byte} (ha : a + bs.length ≤ s.cfg.frameMax) : (s.setFb a bs).Inv :=
  { h.bounded.setFb ha, h with }

theorem setAb (h : s.Inv) {a : Nat} {bs : List Byte} (ha : a + bs.length ≤ s.cfg.argMax) : (s.setAb a bs).Inv :=
  { h.bounded.setAb ha, h with }

theorem clearFrame (h : s.Inv) : s.clearFrame.Inv :=
  { h.bounded.clearFrame with
    readable_eq := rfl
    offv_offsets := nofun
    fcsv_offset := nofun
    empty_row := fun _ => ⟨rfl, rfl, rfl, rfl, rfl⟩
    hasDest_row := nofun
    built_offv := by simp
    valid_flags := nofun }

/-- FCS_APPEND: LEN is not 0, so the frame is not EMPTY, and the two bytes it adds are the FCS (40_crc.md rule R115). -/
theorem appendFcs (h : s.Inv) (hd : s.fstate ≠ .hasDest) (hl : 1 ≤ s.len.toNat)
    (hm : s.len.toNat + 2 ≤ s.cfg.frameMax) : s.appendFcs.Inv :=
  { (h.bounded.setFb (bs := fcsBytes (s.frameFcs s.len.toNat)) hm).setLen hm, h with
    fcsv_offset := fun _ => ⟨hl, hm⟩
    empty_row := fun he => by simp [(h.empty_row he).1] at hl
    hasDest_row := fun he => absurd he hd
    valid_flags := fun hv => ⟨(h.valid_flags hv).1, rfl⟩ }

theorem replaceRegion (h : s.Inv) {T : Bits} (hT : (s.spliced T).length ≤ 8 * s.cfg.frameMax) :
    (s.replaceRegion T).Inv :=
  (h.bounded.writeStream hT).markRaw_inv.finish _

/-- A region of the valid stream lies inside FB, since BITLEN does (41_bitcodec.md rule R136). -/
theorem codeRegion (h : s.Inv) (hr : s.regionFits = true) {r : Bits × Bool} (hl : r.1.length = s.argCount) :
    (s.codeRegion r).Inv := by
  simp only [State.regionFits, decide_eq_true_eq] at hr
  have hbit := h.bitlen_le
  have hraw : (s.setBits s.argStart r.1).markRaw.Inv := (h.bounded.setBits r.1 (by omega)).markRaw_inv
  exact { hraw with }

theorem insertDest (h : s.Inv) (C : List Byte) (ssid : BitVec 4) : (s.insertDest C ssid).Inv := by
  have hmax := le_frameMax s.cfg
  have hb : (s.insertDest C ssid).Bounded :=
    (((h.bounded.clearFrame.setFb (by simp; omega)).setLen (by simp; omega)).enter _).finish _
  exact
    { hb with
      readable_eq := rfl
      offv_offsets := nofun
      fcsv_offset := nofun
      empty_row := nofun
      hasDest_row := fun _ => ⟨rfl, rfl, rfl, rfl, rfl⟩
      built_offv := by simp [State.insertDest]
      valid_flags := nofun }

theorem insertSrc (h : s.Inv) (C : List Byte) (ssid : BitVec 4) : (s.insertSrc C ssid).Inv := by
  have hmax := le_frameMax s.cfg
  have hb : (s.insertSrc C ssid).Bounded :=
    (((h.bounded.setFb (by simp; omega)).placeControl (show 15 + 2 ≤ s.cfg.frameMax by omega)).enter _).finish _
  exact
    { hb with
      readable_eq := rfl
      offv_offsets := fun _ => by simp; omega
      fcsv_offset := nofun
      empty_row := nofun
      hasDest_row := nofun
      built_offv := fun _ => rfl
      valid_flags := nofun }

/-- INS_PATHS moves CTRL_OFF up, still inside FB, and counts its fields in NPATHS (42_frame_builder.md rule R168). -/
theorem insertPaths (h : s.Inv) (hf : s.fstate = .hasSrc) {Q : List (List Byte × BitVec 4)}
    (hn : s.npaths.toNat + Q.length ≤ 8) (hm : s.ctrlOff.toNat + 7 * Q.length + 2 ≤ s.cfg.frameMax) :
    (s.insertPaths Q).Inv := by
  obtain ⟨hc, -, -⟩ := h.offv_offsets (h.built_offv (.inl hf))
  have hb : (s.insertPaths Q).Bounded :=
    ((((h.bounded.setFb (by simp; omega)).setFb (by simp [length_pathFields]; omega)).placeControl hm).countPaths
      hn s.offv).finish _
  have hctrl : (s.insertPaths Q).ctrlOff.toNat = s.ctrlOff.toNat + 7 * Q.length := by
    rw [insertPaths_ctrlOff, toNat_ofNat_of_le_frameMax (c := s.cfg) (by omega)]
  have hinfo : (s.insertPaths Q).infoOff.toNat = s.ctrlOff.toNat + 7 * Q.length + 2 := by
    rw [insertPaths_infoOff, toNat_ofNat_of_le_frameMax (c := s.cfg) hm]
  exact
    { hb with
      readable_eq := by simpa using h.readable_eq
      offv_offsets := fun _ => ⟨by omega, by omega, by rw [hinfo, insertPaths_cfg]; exact hm⟩
      fcsv_offset := by simp
      empty_row := by simp [hf]
      hasDest_row := by simp [hf]
      built_offv := by simpa using h.built_offv
      valid_flags := by simp [hf] }

/-- INS_INFO makes a frame COMPLETE, whose offsets were valid before it (42_frame_builder.md rule R169). -/
theorem insertInfo (h : s.Inv) (hf : s.fstate = .hasSrc ∨ s.fstate = .complete) {bs : List Byte}
    (hm : s.infoOff.toNat + bs.length + 3 ≤ s.cfg.frameMax) : (s.insertInfo bs).Inv := by
  have hb : ((s.setFb s.infoOff.toNat bs).setLen (s.infoOff.toNat + bs.length)).Bounded :=
    (h.bounded.setFb (by omega)).setLen (show _ ≤ s.cfg.frameMax by omega)
  exact
    { hb, h with
      readable_eq := rfl
      fcsv_offset := nofun
      empty_row := nofun
      hasDest_row := nofun
      built_offv := fun _ => h.built_offv hf
      valid_flags := nofun }

theorem appendFlag (h : s.Inv) (he : s.fstate ≠ .empty) (hd : s.fstate ≠ .hasDest)
    (hm : s.len.toNat + 1 ≤ s.cfg.frameMax) : s.appendFlag.Inv :=
  { (h.bounded.setFb (bs := [flagByte]) hm).setLen hm, h with
    empty_row := fun hf => absurd hf he
    hasDest_row := fun hf => absurd hf hd }

/-- PARSE_OFFSETS finds nothing in the short frames of EMPTY and HAS_DEST (43_frame_parser.md rule R201). -/
theorem recordOffsets (h : s.Inv) {c e : Nat} (hp : s.parse = .found c e) : (s.recordOffsets c e).Inv := by
  obtain ⟨hoffs, hfcs⟩ := h.bounded.recordOffsets_bounds hp
  obtain ⟨hc, hce, hel⟩ := parse_found_bounds hp
  exact
    { h with
      offv_offsets := fun _ => hoffs
      fcsv_offset := fun _ => hfcs
      empty_row := fun he => by simp [(h.empty_row he).1] at hel
      hasDest_row := fun hd => by simp [(h.hasDest_row hd).1] at hel; omega
      built_offv := fun _ => rfl
      valid_flags := fun _ => ⟨rfl, rfl⟩ }

end State.Inv

/-! ### The sync unit -/

/-- The copies of P that SYNC_STRIP removes lie in the stream (44_sync.md rule R235). -/
theorem stripFrom_le (fuel : Nat) {r : Nat} (hr : r ≤ s.bitlen.toNat / 8) : s.stripFrom fuel r ≤ s.bitlen.toNat / 8 := by
  induction fuel generalizing r with
  | zero => exact hr
  | succ fuel ih =>
    rw [State.stripFrom]
    split
    next hcopy => exact ih hcopy.1
    next => exact hr

theorem State.Bounded.dropBytes (h : s.Bounded) (r : Nat) : (s.dropBytes r).Bounded := by
  have hlen := h.len_le
  have hbit := h.bitlen_le
  unfold State.dropBytes
  split
  · exact h
  · exact (h.setFb (by rw [length_fbBytes]; omega)).setBitlen (show _ ≤ 8 * s.cfg.frameMax by omega)

/-- SYNC_PREAMBLE adds 2 * SYNC_BYTES whole bytes, so LEN stays the ceiling of BITLEN / 8 (44_sync.md rule R236). -/
theorem State.Inv.addPreamble (h : s.Inv) (hm : s.len.toNat + 2 * s.cfg.syncBytes ≤ s.cfg.frameMax) :
    s.addPreamble.Inv := by
  have hlen := h.len_eq
  have hb := (h.bounded.setFb (a := 0) (bs := s.patBytes ++ s.patBytes ++ s.fbBytes 0 s.len.toNat)
    (by simp; omega)).setBitlen (m := s.bitlen.toNat + 16 * s.cfg.syncBytes) (show _ ≤ 8 * s.cfg.frameMax by omega)
  have heq : s.addPreamble = ((s.setFb 0 (s.patBytes ++ s.patBytes ++ s.fbBytes 0 s.len.toNat)).setBitlen
      (s.bitlen.toNat + 16 * s.cfg.syncBytes)).markRaw.finish (BitVec.ofNat 32 (2 * s.cfg.syncBytes)) := by
    rw [State.addPreamble, State.setBitlen,
      show (s.bitlen.toNat + 16 * s.cfg.syncBytes + 7) / 8 = s.len.toNat + 2 * s.cfg.syncBytes by omega]
  rw [heq]
  exact hb.markRaw_inv.finish _

/-- The Line masks SYNC_SR, caps SYNC_CNT, and disarms with the detection (44_sync.md rule R232). -/
theorem State.Inv.lineBit (h : s.Inv) (b : Bool) : (s.lineBit b).Inv := by
  unfold State.lineBit
  split
  next hen =>
    have hdet : s.syncDet = false := by
      by_contra hd
      simp [h.sync_disarmed (by simpa using hd)] at hen
    exact
      { h with
        syncSr_lt := by rw [toNat_shiftedSr]; exact Nat.mod_lt _ (Nat.two_pow_pos _)
        syncCnt_le := Nat.min_le_right _ _
        sync_disarmed := by simp [hdet] }
  next => exact h

theorem inv_afterReset (c : Config) (n : Nat) (is : List Input) : (State.afterReset c n is).Inv where
  fb_wf := rfl
  fb_below := rfl
  ab_wf := rfl
  ab_below := rfl
  len_eq := by simp [State.afterReset]
  bitlen_le := Nat.zero_le _
  readable_eq := rfl
  offv_offsets := nofun
  fcsv_offset := nofun
  npaths_le := Nat.zero_le _
  syncSr_lt := Nat.two_pow_pos _
  syncCnt_le := Nat.zero_le _
  sync_disarmed := fun _ => rfl
  empty_row := fun _ => ⟨rfl, rfl, rfl, rfl, rfl⟩
  hasDest_row := nofun
  built_offv := nofun
  valid_flags := nofun

/-! ### Commands, inputs and steps -/

theorem length_nrziEncode (S : Bits) (st : Bool) : (nrziEncode S st).1.length = S.length := by
  induction S generalizing st with
  | nil => rfl
  | cons b S ih => simp only [nrziEncode, List.length_cons, ih]

theorem length_nrziDecode (S : Bits) (prev : Bool) : (nrziDecode S prev).1.length = S.length := by
  induction S generalizing prev with
  | nil => rfl
  | cons b S ih => simp only [nrziDecode, List.length_cons, ih]

/-- Every ending of a command keeps the invariant. -/
theorem State.Inv.runs {i : Instr} (h : s.Inv) (hx : s.Runs i t) : t.Inv := by
  cases hx with
  | failed i c r _ _ => exact h.raise c r
  | crcCompute _ => exact h.finish _
  | crcCheck _ => exact h.finish _
  | fcsAppend hd _ hl hm => exact h.appendFcs hd hl hm
  | stuff _ hm => exact h.replaceRegion hm
  | unstuff hr =>
    have hsplice := length_spliced s (Machine.unstuff s.region) hr
    have hle := length_unstuff_le s.region
    have hbit := h.bitlen_le
    rw [State.region, length_bits] at hle
    exact h.replaceRegion (by rw [State.region] at *; omega)
  | nrziEnc start hr => exact h.codeRegion hr (by rw [length_nrziEncode, State.region, length_bits])
  | nrziDec start hr => exact h.codeRegion hr (by rw [length_nrziDecode, State.region, length_bits])
  | fbClear => exact h.clearFrame.finish _
  | insDest a n ssid _ => exact h.insertDest _ ssid
  | insSrc a n ssid _ _ => exact h.insertSrc _ ssid
  | noPaths a _ => exact h.finish _
  | insPaths a k Q hf _ _ hn hm => exact h.insertPaths hf hn hm
  | insInfo a hf _ hm => exact h.insertInfo hf (by rw [length_abBytes]; exact hm)
  | flagAppend he hd _ hm => exact h.appendFlag he hd hm
  | parseOffsets c e hp => exact (h.recordOffsets hp).finish _
  | rejected r => exact h.bounded.invalidate_inv r
  | rejectedBody p r hp hB => exact (h.bounded.putBody hp hB).2.invalidate_inv r
  | rejectedFcs p c e hp hB _ =>
    have hrec : ((s.putBody (s.body p)).recordOffsets c e).Bounded := { (h.bounded.putBody hp hB).2 with }
    exact hrec.invalidate_inv _
  | validated p c e _ hp hB hce _ =>
    exact ((h.bounded.putBody hp hB).2.enter_valid_recordOffsets hce).finish _
  | getSource a _ hi => exact (h.setAb (by simpa [State.inAb] using hi)).finish _
  | arm =>
    exact { h with syncSr_lt := Nat.two_pow_pos _, syncCnt_le := Nat.zero_le _, sync_disarmed := nofun }
  | disarm => exact { h with sync_disarmed := nofun }
  | syncStrip => exact (h.bounded.dropBytes _).markRaw_inv.finish _
  | syncPreamble hm => exact h.addPreamble hm

/-- Every effect of an input keeps the invariant. -/
theorem State.Inv.effect {e : Input} (h : s.Inv) (he : s.Effect e t) : t.Inv := by
  cases he with
  | read off n => exact { h with }
  | ignored off n v => exact h
  | command off n w i t _ hx => 
    have hcmd : State.Inv { s with cmd := w } := { h with }
    exact hcmd.runs hx
  | illegal off n w => exact { h with }
  | arg0 off n w => exact { h with }
  | arg1 off n w => exact { h with }
  | syncPat off n w => exact { h with }
  | len off n w => exact (h.bounded.setLen (Nat.min_le_right _ _)).markRaw_inv
  | bitlen off n w => exact (h.bounded.setBitlen (Nat.min_le_right _ _)).markRaw_inv
  | storeFb off n v i _ _ hi => exact h.setFb hi
  | storeAb off n v i hi => exact h.setAb hi
  | lineBit b => exact h.lineBit b
  | rst => exact inv_afterReset _ _ _

/-- Settles O57: the invariant is kept by each effect a step can have. -/
theorem stepKeepsInv : Obligations.StepKeepsInv := by
  intro s t h hstep
  obtain rfl | ⟨e, rest, -, he⟩ := step_cases hstep
  · exact h
  · have hin : State.Inv { s with inputs := rest } := { h with }
    exact hin.effect he

end Sys2Proof.Machine
end

section
/-! SUPPORT. The built frame `State.Built`, kept by every command and by every input but a Host write into FB. -/

namespace Sys2Proof.Machine

variable {s t : State}

/-! ### The bytes of address fields -/

/-- The SSID byte has 0b011 on top and the extension bit below (42_frame_builder.md rule R162). -/
theorem ssidByte_bits (ssid : BitVec 4) (ext : Bool) :
    ssidByte ssid ext >>> 5 = 3#8 ∧ (ssidByte ssid ext).getLsbD 0 = ext := by
  revert ssid ext
  decide

/-- The bytes of a callsign are even (42_frame_builder.md rule R161). -/
theorem callByte_even (C : List Byte) (i : Nat) : (callByte C i).getLsbD 0 = false := by
  unfold callByte
  split
  · simp
  · rfl

/-- The seven bytes of an address field: characters, then the SSID byte (42_frame_builder.md rule R161). -/
theorem addrField_getD (C : List Byte) (ssid : BitVec 4) (ext : Bool) {j : Nat} (hj : j < 7) :
    (j = 6 → (addrField C ssid ext).getD j 0#8 >>> 5 = 3#8 ∧ ((addrField C ssid ext).getD j 0#8).getLsbD 0 = ext) ∧
    (j ≠ 6 → ((addrField C ssid ext).getD j 0#8).getLsbD 0 = false) := by
  constructor
  · rintro rfl
    have hget : (addrField C ssid ext).getD 6 0#8 = ssidByte ssid ext := by simp [addrField, callsignSize, List.getD]
    rw [hget]
    exact ssidByte_bits ssid ext
  · intro h6
    have hget : (addrField C ssid ext).getD j 0#8 = callByte C j := by
      rw [List.getD_eq_getElem _ _ (by simpa using hj)]
      simp [addrField, callsignSize, show j < 6 by omega]
    rw [hget]
    exact callByte_even C j

/-- Among the bytes of a path list only the SSID bytes may be odd, and only the last of them is (42_frame_builder.md rule
R168). -/
theorem pathFields_getD {Q : List (List Byte × BitVec 4)} {j : Nat} (hj : j < 7 * Q.length) :
    (j % 7 = 6 → (pathFields Q).getD j 0#8 >>> 5 = 3#8 ∧
      (((pathFields Q).getD j 0#8).getLsbD 0 = true ↔ j + 1 = 7 * Q.length)) ∧
    (j % 7 ≠ 6 → ((pathFields Q).getD j 0#8).getLsbD 0 = false) := by
  induction Q using pathFields.induct generalizing j with
  | case1 => simp at hj
  | case2 p =>
    rw [List.length_singleton] at hj ⊢
    obtain ⟨hssid, hchar⟩ := addrField_getD p.1 p.2 true (j := j) (by omega)
    refine ⟨fun h6 => ?_, fun h6 => hchar (by omega)⟩
    obtain ⟨htop, hext⟩ := hssid (by omega)
    exact ⟨htop, iff_of_true hext (by omega)⟩
  | case3 p q ps ih =>
    rw [List.length_cons] at hj ⊢
    rw [pathFields]
    by_cases hfirst : j < 7
    · rw [List.getD_append _ _ _ _ (by simpa using hfirst)]
      obtain ⟨hssid, hchar⟩ := addrField_getD p.1 p.2 false hfirst
      refine ⟨fun h6 => ?_, fun h6 => hchar (by omega)⟩
      obtain ⟨htop, hext⟩ := hssid (by omega)
      exact ⟨htop, iff_of_false (Bool.eq_false_iff.mp hext) (by simp; omega)⟩
    · rw [List.getD_append_right _ _ _ _ (by simpa using hfirst), length_addrField]
      obtain ⟨hssid, hchar⟩ := ih (j := j - 7) (by omega)
      refine ⟨fun h6 => ?_, fun h6 => hchar (by omega)⟩
      obtain ⟨htop, hext⟩ := hssid (by omega)
      exact ⟨htop, hext.trans (by omega)⟩

/-! ### The header -/

theorem addressByte_iff {last i : Nat} : s.addressByte last i ↔
    (i % 7 = 0 → s.fbByte i >>> 5 = 3#8 ∧ ((s.fbByte i).getLsbD 0 = true ↔ i = last)) ∧
    (i % 7 ≠ 0 → (s.fbByte i).getLsbD 0 = false) := by
  rw [State.addressByte]
  split <;> simp [*]

theorem addressByte_congr {last i : Nat} (hf : t.fbByte i = s.fbByte i) (h : s.addressByte last i) :
    t.addressByte last i := by
  rwa [State.addressByte, hf]

/-- Two indices that are not the last one ask the same of a byte. -/
theorem addressByte_change_last {last last' i : Nat} (hl : i ≠ last) (hl' : i ≠ last') (h : s.addressByte last i) :
    s.addressByte last' i := by
  simpa only [State.addressByte, hl, hl'] using h

/-- The header depends on FB below INFO_OFF, on CTRL_OFF, INFO_OFF and NPATHS. -/
theorem State.Header.congr (h : s.Header) (hf : ∀ i, i < s.infoOff.toNat → t.fbByte i = s.fbByte i)
    (hc : t.ctrlOff = s.ctrlOff) (hi : t.infoOff = s.infoOff) (hn : t.npaths = s.npaths) : t.Header := by
  have hctrl := h.ctrlOff
  have hinfo := h.infoOff
  exact
    { flag := (hf 0 (by omega)).trans h.flag
      ctrlOff := by rw [hc, hn]; exact hctrl
      infoOff := by rw [hc, hi]; exact hinfo
      address := fun i h1 h2 => by
        rw [hc] at h2 ⊢
        exact addressByte_congr (hf i (by omega)) (h.address i h1 h2)
      control := by rw [hc, hf _ (by omega)]; exact h.control
      pid := by rw [hc, hf _ (by omega)]; exact h.pid }

/-- The byte that loses its extension bit in INS_PATHS is otherwise unchanged (42_frame_builder.md rule R168). -/
theorem clear_extension (x : Byte) : (x &&& 0xFE#8) >>> 5 = x >>> 5 ∧ (x &&& 0xFE#8).getLsbD 0 = false := by
  revert x
  decide

/-- Address bytes without an extension bit, and a path list, the control byte and the PID written behind them, make a
header: how INS_SRC (with a list of one) and INS_PATHS build one (42_frame_builder.md rules R165 and R168). -/
theorem header_of_pathFields {u : State} {c : Nat} {Q : List (List Byte × BitVec 4)} (hQ : 1 ≤ Q.length)
    (hc : c % 7 = 1) (h0 : u.fbByte 0 = 0x7E#8) (haddr : ∀ i, 1 ≤ i → i < c → u.addressByte 0 i)
    (hfb : ∀ i, t.fbByte i = (u.setFb c (pathFields Q ++ [ctrlUi, pidNl3])).fbByte i)
    (hctrl : t.ctrlOff.toNat = c + 7 * Q.length) (hinfo : t.infoOff.toNat = c + 7 * Q.length + 2)
    (hn : c + 7 * Q.length = 15 + 7 * t.npaths.toNat) : t.Header := by
  have hbelow : ∀ i, i < c → t.fbByte i = u.fbByte i := fun i hi => by
    rw [hfb, fbByte_setFb, if_neg (by omega)]
  have hwritten : ∀ j, j < 7 * Q.length + 2 → t.fbByte (c + j) = (pathFields Q ++ [ctrlUi, pidNl3]).getD j 0#8 :=
    fun j hj => by
      rw [hfb, fbByte_setFb, if_pos (by simp [length_pathFields]; omega), Nat.add_sub_cancel_left]
  exact
    { flag := by rw [hbelow 0 (by omega), h0]
      ctrlOff := by omega
      infoOff := by omega
      address := fun i h1 h2 => by
        rw [hctrl] at h2 ⊢
        by_cases hi : i < c
        · exact addressByte_change_last (by omega) (by omega) (addressByte_congr (hbelow i hi) (haddr i h1 hi))
        · obtain ⟨j, rfl⟩ := Nat.exists_eq_add_of_le (Nat.le_of_not_lt hi)
          have hj : j < 7 * Q.length := by omega
          obtain ⟨hssid, hchar⟩ := pathFields_getD hj
          rw [addressByte_iff, hwritten j (by omega), List.getD_append _ _ _ _ (by rw [length_pathFields]; exact hj)]
          refine ⟨fun h7 => ?_, fun h7 => hchar (by omega)⟩
          obtain ⟨htop, hext⟩ := hssid (by omega)
          exact ⟨htop, hext.trans (by omega)⟩
      control := by
        rw [hctrl, hwritten _ (by omega), List.getD_append_right _ _ _ _ (by rw [length_pathFields]), length_pathFields]
        simp
      pid := by
        rw [hctrl, Nat.add_assoc, hwritten _ (by omega),
          List.getD_append_right _ _ _ _ (by rw [length_pathFields]; omega), length_pathFields]
        simp }

/-- No address byte is CTRL_UI, so ParseOffsets() finds the control byte the builder placed (43_frame_parser.md rule
R200). -/
theorem State.Header.findControl (h : s.Header) (hl : s.ctrlOff.toNat < s.len.toNat) :
    s.findControl = some s.ctrlOff.toNat := by
  have hctrl := h.ctrlOff
  refine findControl_eq_some.mpr ⟨⟨by omega, hl, h.control⟩, fun i hi => ?_⟩
  obtain ⟨h15, -, h3⟩ := hi
  by_contra hlt
  obtain ⟨hssid, hchar⟩ := addressByte_iff.mp (h.address i (by omega) (by omega))
  rw [h3] at hssid hchar
  by_cases h7 : i % 7 = 0
  · exact absurd (hssid h7).1 (by decide)
  · exact absurd (hchar h7) (by decide)

/-! ### The built frame, kept by each operation -/

/-- Nothing is said of a frame that is RAW, VALID or INVALID. -/
theorem built_of_fstate (h : s.fstate = .raw ∨ s.fstate = .valid ∨ s.fstate = .invalid) : s.Built where
  empty hf := by simp [hf] at h
  hasDest hf := by simp [hf] at h
  hasSrc hf := by simp [hf] at h
  complete hf := by simp [hf] at h

theorem built_of_hasSrc (hf : s.fstate = .hasSrc) (h : s.Header) (hl : s.len.toNat = s.infoOff.toNat) : s.Built where
  empty he := by simp [hf] at he
  hasDest hd := by simp [hf] at hd
  hasSrc _ := ⟨h, hl⟩
  complete hc := by simp [hf] at hc

theorem built_of_complete (hf : s.fstate = .complete) (h : s.Header) (hl : s.infoOff.toNat ≤ s.len.toNat) : s.Built where
  empty he := by simp [hf] at he
  hasDest hd := by simp [hf] at hd
  hasSrc hs := by simp [hf] at hs
  complete _ := ⟨h, hl⟩

theorem built_clearFrame (s : State) : s.clearFrame.Built where
  empty _ := rfl
  hasDest := nofun
  hasSrc := nofun
  complete := nofun

/-- All that `State.Built` reads of a state. -/
def State.frame (s : State) : FState × BitVec 4 × BitVec 16 × BitVec 16 × BitVec 16 × Memory × Nat :=
  (s.fstate, s.npaths, s.ctrlOff, s.infoOff, s.len, s.fb, s.resets)

namespace State.Built

/-- A step that touches nothing of the frame keeps it built. -/
theorem congr (h : s.Built) (hst : t.frame = s.frame) : t.Built := by
  simp only [State.frame, Prod.mk.injEq] at hst
  obtain ⟨hf, hn, hc, hi, hl, hfb, hr⟩ := hst
  have hbyte := fbByte_congr hfb hr
  exact
    { empty := fun he => hn.trans (h.empty (hf ▸ he))
      hasDest := fun hd => by
        obtain ⟨hn0, h0, haddr⟩ := h.hasDest (hf ▸ hd)
        exact ⟨hn.trans hn0, (hbyte 0).trans h0, fun i h1 h2 => addressByte_congr (hbyte i) (haddr i h1 h2)⟩
      hasSrc := fun hs => by
        obtain ⟨hdr, hlen⟩ := h.hasSrc (hf ▸ hs)
        exact ⟨hdr.congr (fun i _ => hbyte i) hc hi hn, by rw [hl, hi]; exact hlen⟩
      complete := fun hcomp => by
        obtain ⟨hdr, hlen⟩ := h.complete (hf ▸ hcomp)
        exact ⟨hdr.congr (fun i _ => hbyte i) hc hi hn, by rw [hl, hi]; exact hlen⟩ }

theorem finish (h : s.Built) (r : Word) : (s.finish r).Built := h.congr rfl

theorem setAb (h : s.Built) (a : Nat) (bs : List Byte) : (s.setAb a bs).Built := h.congr rfl

/-- What FCS_APPEND and FLAG_APPEND have in common: they write at LEN or above, behind the header. -/
theorem append (h : s.Built) (hd : s.fstate ≠ .hasDest) (hs : s.fstate ≠ .hasSrc) (hf : t.fstate = s.fstate)
    (hc : t.ctrlOff = s.ctrlOff) (hi : t.infoOff = s.infoOff) (hn : t.npaths = s.npaths)
    (hl : s.len.toNat ≤ t.len.toNat) (hfb : ∀ i, i < s.len.toNat → t.fbByte i = s.fbByte i) : t.Built where
  empty he := hn.trans (h.empty (hf ▸ he))
  hasDest hd' := absurd (hf ▸ hd') hd
  hasSrc hs' := absurd (hf ▸ hs') hs
  complete hcomp := by
    obtain ⟨hdr, hle⟩ := h.complete (hf ▸ hcomp)
    exact ⟨hdr.congr (fun i hlt => hfb i (by omega)) hc hi hn, by rw [hi]; omega⟩

theorem appendFcs (h : s.Built) (hd : s.fstate ≠ .hasDest) (hs : s.fstate ≠ .hasSrc)
    (hm : s.len.toNat + 2 ≤ s.cfg.frameMax) : s.appendFcs.Built := by
  have hlen : s.appendFcs.len.toNat = s.len.toNat + 2 := by
    rw [show s.appendFcs.len = BitVec.ofNat 16 (s.len.toNat + 2) from rfl, toNat_ofNat_of_le_frameMax hm]
  refine h.append hd hs rfl rfl rfl rfl (by omega) fun i hi => ?_
  change (s.setFb s.len.toNat (fcsBytes (s.frameFcs s.len.toNat))).fbByte i = s.fbByte i
  rw [fbByte_setFb, if_neg (by omega)]

theorem appendFlag (h : s.Built) (hd : s.fstate ≠ .hasDest) (hs : s.fstate ≠ .hasSrc)
    (hm : s.len.toNat + 1 ≤ s.cfg.frameMax) : s.appendFlag.Built := by
  have hlen : s.appendFlag.len.toNat = s.len.toNat + 1 := by
    rw [show s.appendFlag.len = BitVec.ofNat 16 (s.len.toNat + 1) from rfl, toNat_ofNat_of_le_frameMax hm]
  refine h.append hd hs rfl rfl rfl rfl (by omega) fun i hi => ?_
  change (s.setFb s.len.toNat [flagByte]).fbByte i = s.fbByte i
  rw [fbByte_setFb, if_neg (by omega)]

/-- INS_INFO writes at INFO_OFF or above, behind the header (42_frame_builder.md rule R169). -/
theorem insertInfo (h : s.Built) (hf : s.fstate = .hasSrc ∨ s.fstate = .complete) {bs : List Byte}
    (hm : s.infoOff.toNat + bs.length + 3 ≤ s.cfg.frameMax) : (s.insertInfo bs).Built := by
  have hdr : s.Header := hf.elim (fun hs => (h.hasSrc hs).1) fun hc => (h.complete hc).1
  have hlen : (s.insertInfo bs).len.toNat = s.infoOff.toNat + bs.length := by
    rw [show (s.insertInfo bs).len = BitVec.ofNat 16 (s.infoOff.toNat + bs.length) from rfl,
      toNat_ofNat_of_le_frameMax (c := s.cfg) (by omega)]
  refine built_of_complete rfl (hdr.congr (fun i hi => ?_) rfl rfl rfl) (by rw [hlen]; exact Nat.le_add_right _ _)
  have hset : (s.insertInfo bs).fbByte i = (s.setFb s.infoOff.toNat bs).fbByte i :=
    fbByte_congr (by simp [State.insertInfo]) (by simp [State.insertInfo]) i
  rw [hset, fbByte_setFb, if_neg (by omega)]

/-- PARSE_OFFSETS records in a built frame the offsets it had (43_frame_parser.md rule R201). -/
theorem recordOffsets (h : s.Built) {c e : Nat} (hp : s.parse = .found c e) : (s.recordOffsets c e).Built := by
  have hkeep : s.Header → s.ctrlOff.toNat < s.len.toNat →
      (s.recordOffsets c e).Header ∧ (s.recordOffsets c e).infoOff = s.infoOff := fun hdr hlt => by
    have hc : c = s.ctrlOff.toNat := Option.some.inj ((parse_eq_found.mp hp).1.symm.trans (hdr.findControl hlt))
    have hctrl : (s.recordOffsets c e).ctrlOff = s.ctrlOff := by
      rw [recordOffsets_ctrlOff, hc, BitVec.ofNat_toNat, BitVec.setWidth_eq]
    have hinfo : (s.recordOffsets c e).infoOff = s.infoOff := by
      rw [recordOffsets_infoOff, hc, ← hdr.infoOff, BitVec.ofNat_toNat, BitVec.setWidth_eq]
    exact ⟨hdr.congr (fun _ _ => rfl) hctrl hinfo rfl, hinfo⟩
  exact
    { h with
      hasSrc := fun hf => by
        obtain ⟨hdr, hlen⟩ := h.hasSrc hf
        obtain ⟨hdr', hinfo⟩ := hkeep hdr (by have := hdr.infoOff; omega)
        exact ⟨hdr', by rw [hinfo]; exact hlen⟩
      complete := fun hf => by
        obtain ⟨hdr, hlen⟩ := h.complete hf
        obtain ⟨hdr', hinfo⟩ := hkeep hdr (by have := hdr.infoOff; omega)
        exact ⟨hdr', by rw [hinfo]; exact hlen⟩ }

end State.Built

/-- INS_DEST leaves the flag and one address field with no extension bit (42_frame_builder.md rule R164). -/
theorem built_insertDest (s : State) (C : List Byte) (ssid : BitVec 4) : (s.insertDest C ssid).Built where
  empty := nofun
  hasDest _ := by
    have hfb : ∀ i, i < 8 → (s.insertDest C ssid).fbByte i = (flagByte :: addrField C ssid false).getD i 0#8 :=
      fun i hi => by
        simp only [State.insertDest, fbByte_finish, fbByte_enter, fbByte_setLen]
        rw [fbByte_setFb, if_pos (by simpa using hi), Nat.sub_zero]
    refine ⟨by simp [State.insertDest], by simp [hfb], fun i h1 h2 => ?_⟩
    obtain ⟨j, rfl⟩ : ∃ j, i = j + 1 := ⟨i - 1, by omega⟩
    obtain ⟨hssid, hchar⟩ := addrField_getD C ssid false (j := j) (by omega)
    rw [addressByte_iff, hfb _ h2, List.getD_cons_succ]
    refine ⟨fun h7 => ?_, fun h7 => hchar (by omega)⟩
    obtain ⟨htop, hext⟩ := hssid (by omega)
    exact ⟨htop, iff_of_false (Bool.eq_false_iff.mp hext) (by omega)⟩
  hasSrc := nofun
  complete := nofun

/-- INS_SRC appends a list of one field to the destination (42_frame_builder.md rule R165). -/
theorem State.Built.insertSrc (h : s.Built) (hf : s.fstate = .hasDest) (C : List Byte) (ssid : BitVec 4) :
    (s.insertSrc C ssid).Built := by
  obtain ⟨hn, h0, haddr⟩ := h.hasDest hf
  have hdr : (s.insertSrc C ssid).Header :=
    header_of_pathFields (c := 8) (Q := [(C, ssid)]) (Nat.le_refl 1) rfl h0 haddr
      (fun i => by simp [State.insertSrc, pathFields]) (by simp) (by simp) (by simp [hn])
  exact built_of_hasSrc (by simp [State.insertSrc]) hdr (by simp)

/-- INS_PATHS takes the extension bit off the last field and appends its own (42_frame_builder.md rule R168). -/
theorem State.Built.insertPaths (h : s.Built) (hf : s.fstate = .hasSrc) {Q : List (List Byte × BitVec 4)}
    (hQ : 1 ≤ Q.length) (hnp : s.npaths.toNat + Q.length ≤ 8)
    (hm : s.ctrlOff.toNat + 7 * Q.length + 2 ≤ s.cfg.frameMax) : (s.insertPaths Q).Built := by
  obtain ⟨hdr, -⟩ := h.hasSrc hf
  have hctrl := hdr.ctrlOff
  have hopen : ∀ i, 1 ≤ i → i < s.ctrlOff.toNat →
      (s.setFb (s.ctrlOff.toNat - 1) [s.fbByte (s.ctrlOff.toNat - 1) &&& 0xFE#8]).addressByte 0 i := fun i h1 h2 => by
    have haddr := hdr.address i h1 h2
    by_cases hlast : i = s.ctrlOff.toNat - 1
    · obtain ⟨htop, -⟩ := (addressByte_iff.mp haddr).1 (by omega)
      rw [addressByte_iff, fbByte_setFb, if_pos (by simp; omega), hlast, Nat.sub_self, List.getD_cons_zero,
        (clear_extension _).1, (clear_extension _).2, ← hlast]
      exact ⟨fun _ => ⟨htop, iff_of_false (by simp) (by omega)⟩, fun _ => rfl⟩
    · exact addressByte_change_last hlast (by omega)
        (addressByte_congr (by rw [fbByte_setFb, if_neg (by simp; omega)]) haddr)
  have hinfo : (s.insertPaths Q).infoOff.toNat = s.ctrlOff.toNat + 7 * Q.length + 2 := by
    rw [insertPaths_infoOff, toNat_ofNat_of_le_frameMax hm]
  have hdr' : (s.insertPaths Q).Header :=
    header_of_pathFields (c := s.ctrlOff.toNat) hQ (by omega)
      (by rw [fbByte_setFb, if_neg (by omega)]; exact hdr.flag) hopen
      (fbByte_congr (by simp [State.insertPaths]) (by simp [State.insertPaths]))
      (by rw [insertPaths_ctrlOff, toNat_ofNat_of_le_frameMax (c := s.cfg) (by omega)]) hinfo
      (by rw [insertPaths_npaths, BitVec.toNat_ofNat, Nat.mod_eq_of_lt (by omega)]; omega)
  exact built_of_hasSrc (by rw [insertPaths_fstate, hf]) hdr' (by rw [insertPaths_len, insertPaths_infoOff])

/-! ### Commands, inputs and steps -/

/-- Every ending of a command keeps the built frame. -/
theorem State.Built.runs {i : Instr} (h : s.Built) (hx : s.Runs i t) : t.Built := by
  cases hx with
  | failed i c r _ _ => exact h.congr rfl
  | crcCompute _ => exact h.finish _
  | crcCheck _ => exact h.finish _
  | fcsAppend hd hs _ hm => exact h.appendFcs hd hs hm
  | stuff _ _ => exact built_of_fstate (.inl rfl)
  | unstuff _ => exact built_of_fstate (.inl rfl)
  | nrziEnc start _ => exact built_of_fstate (.inl rfl)
  | nrziDec start _ => exact built_of_fstate (.inl rfl)
  | fbClear => exact (built_clearFrame s).finish _
  | insDest a n ssid _ => exact built_insertDest s _ ssid
  | insSrc a n ssid hf _ => exact h.insertSrc hf _ ssid
  | noPaths a _ => exact h.finish _
  | insPaths a k Q hf hk hQ hn hm =>
    have hlen : Q.length = k.toNat := length_pathListAt s _ _ Q hQ
    have hpos : k.toNat ≠ 0 := fun h0 => hk (BitVec.eq_of_toNat_eq h0)
    exact h.insertPaths hf (by omega) hn hm
  | insInfo a hf _ hm => exact h.insertInfo hf (by rw [length_abBytes]; exact hm)
  | flagAppend _ hd hs hm => exact h.appendFlag hd hs hm
  | parseOffsets c e hp => exact (h.recordOffsets hp).finish _
  | rejected r => exact built_of_fstate (.inr (.inr rfl))
  | rejectedBody p r _ _ => exact built_of_fstate (.inr (.inr rfl))
  | rejectedFcs p c e _ _ _ => exact built_of_fstate (.inr (.inr rfl))
  | validated p c e _ _ _ _ _ => exact built_of_fstate (.inr (.inl (by simp)))
  | getSource a _ _ => exact (h.setAb _ _).finish _
  | arm => exact h.congr rfl
  | disarm => exact h.congr rfl
  | syncStrip => exact built_of_fstate (.inl rfl)
  | syncPreamble _ => exact built_of_fstate (.inl (by simp [State.addPreamble]))

theorem State.Built.lineBit (h : s.Built) (b : Bool) : (s.lineBit b).Built := by
  unfold State.lineBit
  split
  · exact h.congr rfl
  · exact h

/-- Every effect of an input but a write into FB keeps the built frame. -/
theorem State.Built.effect {e : Input} (h : s.Built) (hw : e.writesFb = false) (he : s.Effect e t) : t.Built := by
  cases he with
  | read off n => exact h.congr rfl
  | ignored off n v => exact h
  | command off n w i t _ hx =>
    have hcmd : State.Built { s with cmd := w } := h.congr rfl
    exact hcmd.runs hx
  | illegal off n w => exact h.congr rfl
  | arg0 off n w => exact h.congr rfl
  | arg1 off n w => exact h.congr rfl
  | syncPat off n w => exact h.congr rfl
  | len off n w => exact built_of_fstate (.inl rfl)
  | bitlen off n w => exact built_of_fstate (.inl rfl)
  | storeFb off n v i ho hi _ =>
    simp only [Input.writesFb, decide_eq_false_iff_not] at hw
    omega
  | storeAb off n v i _ => exact h.setAb _ _
  | lineBit b => exact h.lineBit b
  | rst => exact { empty := fun _ => rfl, hasDest := nofun, hasSrc := nofun, complete := nofun }

/-- Settles O59: the built frame is kept by each effect a step can have but a write into FB. -/
theorem stepKeepsBuiltFrame : Obligations.StepKeepsBuiltFrame := by
  intro s t _ h hw hstep
  obtain rfl | ⟨e, rest, hin, he⟩ := step_cases hstep
  · exact h
  · have h' : State.Built { s with inputs := rest } := h.congr rfl
    exact h'.effect (hw e rest hin) he

end Sys2Proof.Machine
end

section
/-! SUPPORT. The frame that VALIDATE accepts (10_state.md rule R45, its last sentence). -/

namespace Sys2Proof.Machine

variable {s t : State}

/-- VALIDATE's rewrite leaves FB[0] alone and ends the new stream with the flag (43_frame_parser.md rule R203). -/
theorem fbByte_putBody {B : Bits} (hB : B.length % 8 = 0) :
    (s.putBody B).fbByte 0 = s.fbByte 0 ∧ (s.putBody B).fbByte (B.length / 8 + 1) = flagByte := by
  have hlen : (B.length + 7) / 8 = B.length / 8 := by omega
  constructor
  · rw [State.putBody, fbByte_setLen, fbByte_setFb, if_neg (by omega)]
  · rw [State.putBody, fbByte_setLen, fbByte_setFb, if_pos (by simp [hlen]), Nat.add_sub_cancel,
      List.getD_append_right _ _ _ _ (by simp [hlen]), length_packBits, hlen, Nat.sub_self]
    rfl

/-- With a flag in the last byte of the stream, the trailing flag of ParseOffsets() is that byte, since it is the greatest
(43_frame_parser.md rule R200). -/
theorem parse_flag_eq_last {c e : Nat} (hp : s.parse = .found c e) (hlast : s.fbByte (s.len.toNat - 1) = flagByte) :
    e + 1 = s.len.toNat := by
  obtain ⟨-, hce, hel⟩ := parse_found_bounds hp
  have hmax := (findFlag_eq_some.mp (parse_eq_found.mp hp).2).2
  have hle : s.len.toNat - 1 ≤ e := hmax ⟨by omega, by omega, hlast⟩
  omega

/-- CRC_CHECK on a frame whose FCS matches (40_crc.md rule R114). -/
theorem exec_crcCheck_of_fcsMatches (hv : s.fcsv = true) (hm : s.fcsMatches = true) :
    exec .crcCheck s = .next { s with code := .ok, res := 1#32 } := by
  rw [exec, execCrcCheck, if_pos hv, hm]
  rfl

/-- Settles O45: the endings of VALIDATE but one raise INVALID, and that one is a parse whose trailing flag is the byte
VALIDATE wrote last. -/
theorem validFrameShape : Obligations.ValidFrameShape := by
  intro s t h hx hcode
  cases runs_of_exec hx with
  | failed i c r hc _ => exact absurd hcode hc
  | rejected r => cases hcode
  | rejectedBody p r _ _ => cases hcode
  | rejectedFcs p c e _ _ _ => cases hcode
  | validated p c e h0 hp hB hce hm =>
    obtain ⟨hfit, hbounded⟩ := h.bounded.putBody hp hB
    obtain ⟨hfirst, hlast⟩ := fbByte_putBody (s := s) hB
    have hlen : (s.putBody (s.body p)).len.toNat = (s.body p).length / 8 + 2 := by
      rw [State.putBody, setLen_len, toNat_ofNat_of_le_frameMax hfit]
    have hend : (s.putBody (s.body p)).fbByte ((s.putBody (s.body p)).len.toNat - 1) = flagByte := by
      rw [hlen]; exact hlast
    have he := parse_flag_eq_last hce hend
    obtain ⟨-, hce4, -⟩ := parse_found_bounds hce
    refine ⟨by simpa [hfirst] using h0, by simpa using hend, by simp, by simp, ?_,
      exec_crcCheck_of_fcsMatches (by simp) hm⟩
    rw [finish_fcsOff, enter_fcsOff, recordOffsets_fcsOff, finish_len, enter_len, recordOffsets_len,
      toNat_ofNat_of_le_frameMax (c := s.cfg) (by omega)]
    omega

end Sys2Proof.Machine
end

section
/-! SUPPORT. The register map and the windows as the Host sees them (10_state.md rules R23 to R39, 20_memory.md rules R60
to R66). -/

namespace Sys2Proof.Machine

variable {s t : State}

/-! ### Issue of a command -/

/-- Settles O5: CMD is at offset 0, and issuing a word that decodes is running its command (10_state.md rule R24). -/
theorem cmdWriteRunsDecodedCommand : Obligations.CmdWriteRunsDecodedCommand := by
  intro s w i rest hin hw
  rw [step_cons hin, perform_hostWrite w rfl]
  change State.issue { s with inputs := rest } w = _
  simp only [State.issue, hw]

/-! ### Reads -/

/-- The words of REG above the last register are reserved (10_state.md rule R23). -/
theorem regAt_eq_none {o : Nat} (h : 0x030 ≤ o) : regAt o = none := by
  unfold regAt
  split
  case h_13 => rfl
  all_goals omega

theorem readValue_reg {off : BitVec 14} (h : off.toNat < 0x1000) :
    s.readValue off = ((regAt off.toNat).map s.readReg).getD 0#32 := by
  rw [State.readValue, areaOf_reg h]

theorem readValue_fbw {off : BitVec 14} {i : Nat} (h : off.toNat = 0x1000 + i) (hi : i < 0x1000) :
    s.readValue off = if i < s.cfg.frameMax then (s.fbByte i).setWidth 32 else 0#32 := by
  rw [State.readValue, areaOf_fbw h hi]

theorem readValue_abw {off : BitVec 14} {i : Nat} (h : off.toNat = 0x2000 + i) (hi : i < 0x1000) :
    s.readValue off = if i < s.cfg.argMax then (s.abByte i).setWidth 32 else 0#32 := by
  rw [State.readValue, areaOf_abw h hi]

theorem readValue_reserved {off : BitVec 14} (h : 0x3000 ≤ off.toNat) : s.readValue off = 0#32 := by
  rw [State.readValue, areaOf_reserved h]

theorem admitted_reg {off : BitVec 14} (h : off.toNat < 0x1000) (h4 : off.toNat % 4 = 0) : admitted off 4 = true := by
  simp [admitted, areaOf_reg h, h4]

theorem admitted_fbw {off : BitVec 14} {i : Nat} (h : off.toNat = 0x1000 + i) (hi : i < 0x1000) :
    admitted off 1 = true := by
  simp [admitted, areaOf_fbw h hi]

theorem admitted_abw {off : BitVec 14} {i : Nat} (h : off.toNat = 0x2000 + i) (hi : i < 0x1000) :
    admitted off 1 = true := by
  simp [admitted, areaOf_abw h hi]

theorem admitted_reserved {off : BitVec 14} (h : 0x3000 ≤ off.toNat) (h4 : off.toNat % 4 = 0) :
    admitted off 4 = true := by
  simp [admitted, areaOf_reserved h, h4]

/-- A word whose number is that of a narrower field is the field with zeros above it (10_state.md rule R23). -/
theorem setWidth_eq_of_toNat_eq {n : Nat} {x : BitVec n} {v : Word} (hn : n ≤ 32) (h : v.toNat = x.toNat) :
    x.setWidth 32 = v := by
  refine BitVec.eq_of_toNat_eq ?_
  rw [BitVec.toNat_setWidth_of_le hn, h]

/-- An admitted read of a place that holds `v` answers `v`. -/
theorem step_hostRead {rest : List Input} {off : BitVec 14} {n : Nat} {v : Word} (hin : s.inputs = .hostRead off n :: rest)
    (ha : admitted off n = true) (hv : s.readValue off = v) :
    step s = .next { s with inputs := rest, hostData := some v } := by
  rw [step_cons hin, perform_hostRead ha]
  change Host.Outcome.next { s with inputs := rest, hostData := some (s.readValue off) } = _
  rw [hv]

/-- A 32-bit read at a register's offset answers the register. -/
theorem step_readReg {rest : List Input} {v : Word} (r : Reg) (hin : s.inputs = .hostRead r.offset 4 :: rest)
    (hv : s.readReg r = v) : step s = .next { s with inputs := rest, hostData := some v } :=
  step_hostRead hin (by cases r <;> rfl) (by subst hv; cases r <;> rfl)

/-- Settles O9: each place of the map has its area, and the area its value. -/
theorem hostReads : Obligations.HostReads := by
  intro s rest off n v hin hplace
  have hmax := frameMax_le s.cfg
  have hmax' : s.cfg.argMax ≤ 4096 := hmax
  rcases hplace with ⟨rfl, hreg⟩ | ⟨rfl, i, ho, hi, hv⟩ | ⟨rfl, i, ho, hi, hv⟩ | ⟨rfl, i, ho, hi, hw, rfl⟩ |
    ⟨rfl, i, ho, hi, hw, rfl⟩ | ⟨rfl, hlo, hhi, h4, rfl⟩ | ⟨rfl, hlo, h4, rfl⟩
  · rcases hreg with ⟨rfl, rfl⟩ | ⟨rfl, rfl⟩ | ⟨rfl, rfl⟩ | ⟨rfl, rfl⟩ | ⟨rfl, rfl⟩ | ⟨rfl, hv⟩ | ⟨rfl, hv⟩ | ⟨rfl, hv⟩ |
      ⟨rfl, hv⟩ | ⟨rfl, hv⟩ | ⟨rfl, hv⟩ | ⟨rfl, rfl⟩
    · exact step_readReg .cmd hin rfl
    · exact step_readReg .arg0 hin rfl
    · exact step_readReg .arg1 hin rfl
    · exact step_readReg .status hin rfl
    · exact step_readReg .res hin rfl
    · exact step_readReg .len hin (setWidth_eq_of_toNat_eq (by decide) hv)
    · exact step_readReg .bitlen hin (setWidth_eq_of_toNat_eq (by decide) hv)
    · exact step_readReg .ctrlOff hin (setWidth_eq_of_toNat_eq (by decide) hv)
    · exact step_readReg .infoOff hin (setWidth_eq_of_toNat_eq (by decide) hv)
    · exact step_readReg .fcsOff hin (setWidth_eq_of_toNat_eq (by decide) hv)
    · exact step_readReg .npaths hin (setWidth_eq_of_toNat_eq (by decide) hv)
    · exact step_readReg .syncPat hin rfl
  · refine step_hostRead hin (admitted_fbw ho (by omega)) ?_
    rw [readValue_fbw ho (by omega), if_pos hi, setWidth_eq_of_toNat_eq (by decide) hv]
  · refine step_hostRead hin (admitted_abw ho (by omega)) ?_
    rw [readValue_abw ho (by omega), if_pos hi, setWidth_eq_of_toNat_eq (by decide) hv]
  · refine step_hostRead hin (admitted_fbw ho hw) ?_
    rw [readValue_fbw ho hw, if_neg (by omega)]
  · refine step_hostRead hin (admitted_abw ho hw) ?_
    rw [readValue_abw ho hw, if_neg (by omega)]
  · refine step_hostRead hin (admitted_reg (by omega) h4) ?_
    rw [readValue_reg (by omega), regAt_eq_none hlo]
    rfl
  · exact step_hostRead hin (admitted_reserved hlo h4) (readValue_reserved hlo)

/-! ### STATUS -/

theorem Code.number_lt (c : Code) : c.number < 16 := by cases c <;> decide

theorem FState.number_lt (f : FState) : f.number < 8 := by cases f <;> decide

/-- STATUS as a number: its fields fit, so nothing is carried or cut off (10_state.md rule R26). -/
theorem toNat_statusWord (s : State) :
    s.statusWord.toNat = s.code.number + 16 * s.fstate.number + 128 * s.readable.toNat + 256 * s.offv.toNat
      + 512 * s.fcsv.toNat + 1024 * s.nrzst.toNat + 2048 * s.syncEn.toNat + 4096 * s.syncDet.toNat ∧
    s.statusWord.toNat < 2 ^ 13 := by
  have hc := s.code.number_lt
  have hf := s.fstate.number_lt
  have h7 := s.readable.toNat_le
  have h8 := s.offv.toNat_le
  have h9 := s.fcsv.toNat_le
  have h10 := s.nrzst.toNat_le
  have h11 := s.syncEn.toNat_le
  have h12 := s.syncDet.toNat_le
  rw [State.statusWord, BitVec.toNat_ofNat, Nat.mod_eq_of_lt (by omega)]
  omega

/-- A bit of a word, read off its number split at that bit. -/
theorem getLsbD_eq_of_toNat {w : Word} {k lo hi : Nat} {b : Bool} (hw : w.toNat = lo + 2 ^ k * (b.toNat + 2 * hi))
    (hlo : lo < 2 ^ k) : w.getLsbD k = b := by
  rw [← BitVec.testBit_toNat, Nat.testBit_eq_decide_div_mod_eq, hw, Nat.add_mul_div_left _ _ (Nat.two_pow_pos k),
    Nat.div_eq_of_lt hlo, Nat.zero_add, Nat.add_mul_mod_self_left]
  cases b <;> rfl

/-- Settles O10: STATUS is a number in mixed radix, whose digits are its fields. -/
theorem statusLayout : Obligations.StatusLayout := by
  intro s
  obtain ⟨hsum, hlt⟩ := toNat_statusWord s
  have hc := s.code.number_lt
  have hf := s.fstate.number_lt
  have h7 := s.readable.toNat_le
  have h8 := s.offv.toNat_le
  have h9 := s.fcsv.toNat_le
  have h10 := s.nrzst.toNat_le
  have h11 := s.syncEn.toNat_le
  have hcode : s.statusWord.toNat % 16 = s.code.number := by omega
  have hfstate : s.statusWord.toNat / 16 % 8 = s.fstate.number := by omega
  refine ⟨hcode.trans ?_, hfstate.trans ?_, ?_, ?_, ?_, ?_, ?_, ?_, hlt, rfl⟩
  · cases s.code <;> rfl
  · cases s.fstate <;> rfl
  · exact getLsbD_eq_of_toNat (lo := s.code.number + 16 * s.fstate.number)
      (hi := s.offv.toNat + 2 * s.fcsv.toNat + 4 * s.nrzst.toNat + 8 * s.syncEn.toNat + 16 * s.syncDet.toNat)
      (by omega) (by omega)
  · exact getLsbD_eq_of_toNat (lo := s.code.number + 16 * s.fstate.number + 128 * s.readable.toNat)
      (hi := s.fcsv.toNat + 2 * s.nrzst.toNat + 4 * s.syncEn.toNat + 8 * s.syncDet.toNat) (by omega) (by omega)
  · exact getLsbD_eq_of_toNat
      (lo := s.code.number + 16 * s.fstate.number + 128 * s.readable.toNat + 256 * s.offv.toNat)
      (hi := s.nrzst.toNat + 2 * s.syncEn.toNat + 4 * s.syncDet.toNat) (by omega) (by omega)
  · exact getLsbD_eq_of_toNat
      (lo := s.code.number + 16 * s.fstate.number + 128 * s.readable.toNat + 256 * s.offv.toNat + 512 * s.fcsv.toNat)
      (hi := s.syncEn.toNat + 2 * s.syncDet.toNat) (by omega) (by omega)
  · exact getLsbD_eq_of_toNat
      (lo := s.statusWord.toNat % 2 ^ 11) (hi := s.syncDet.toNat) (by omega) (by omega)
  · exact getLsbD_eq_of_toNat (lo := s.statusWord.toNat % 2 ^ 12) (hi := 0) (by omega) (by omega)

/-! ### Writes -/

/-- The low bits of a word as a number. -/
theorem toNat_extractLsb'_zero (w : Word) (n : Nat) : (w.extractLsb' 0 n).toNat = w.toNat % 2 ^ n := by
  rw [BitVec.extractLsb'_toNat, Nat.shiftRight_zero]

/-- Settles O11: the two writes are `hostSetLen` and `hostSetBitlen`, with the low bits taken as numbers. -/
theorem hostWritesOfLenAndBitlen : Obligations.HostWritesOfLenAndBitlen := by
  intro s w rest
  constructor
  · intro hin
    rw [step_cons hin, perform_hostWrite w rfl, ← toNat_extractLsb'_zero]
    rfl
  · intro hin
    rw [step_cons hin, perform_hostWrite w rfl, ← toNat_extractLsb'_zero]
    rfl

/-- An 8-bit write of a backed byte of FB stores it. -/
theorem step_storeFb {rest : List Input} {off : BitVec 14} {v : Word} {i : Nat} (hin : s.inputs = .hostWrite off 1 v :: rest)
    (ho : off.toNat = 0x1000 + i) (hi : i < s.cfg.frameMax) :
    step s = .next ({ s with inputs := rest }.setFb i [v.extractLsb' 0 8]) := by
  have hmax := frameMax_le s.cfg
  rw [step_cons hin, perform_hostWrite v (admitted_fbw ho (by omega)), State.writeValue, areaOf_fbw ho (by omega)]
  simp only [hi, if_true]

/-- An 8-bit write of a backed byte of AB stores it. -/
theorem step_storeAb {rest : List Input} {off : BitVec 14} {v : Word} {i : Nat} (hin : s.inputs = .hostWrite off 1 v :: rest)
    (ho : off.toNat = 0x2000 + i) (hi : i < s.cfg.argMax) :
    step s = .next ({ s with inputs := rest }.setAb i [v.extractLsb' 0 8]) := by
  have hmax : s.cfg.argMax ≤ 4096 := frameMax_le s.cfg
  rw [step_cons hin, perform_hostWrite v (admitted_abw ho (by omega)), State.writeValue, areaOf_abw ho (by omega)]
  simp only [hi, if_true]

/-- FB after the write of one byte. -/
theorem fbByte_setFb_singleton (s : State) (i : Nat) (b : Byte) (j : Nat) :
    (s.setFb i [b]).fbByte j = if j = i then b else s.fbByte j := by
  rw [fbByte_setFb]
  by_cases h : j = i
  · subst h; simp
  · rw [if_neg (by simp; omega), if_neg h]

/-- AB after the write of one byte. -/
theorem abByte_setAb_singleton (s : State) (i : Nat) (b : Byte) (j : Nat) :
    (s.setAb i [b]).abByte j = if j = i then b else s.abByte j := by
  rw [abByte_setAb]
  by_cases h : j = i
  · subst h; simp
  · rw [if_neg (by simp; omega), if_neg h]

/-- The byte an 8-bit write stores (log entry 9). -/
theorem extractLsb'_eq_ofNat (v : Word) : v.extractLsb' 0 8 = BitVec.ofNat 8 v.toNat := by
  refine BitVec.eq_of_toNat_eq ?_
  rw [toNat_extractLsb'_zero, BitVec.toNat_ofNat]

/-- Settles O12: three registers that store the word, and the two windows that store its low byte. -/
theorem hostStores : Obligations.HostStores := by
  intro s v rest
  refine ⟨fun hin => ?_, fun hin => ?_, fun hin => ?_, fun off i hin => ⟨fun ho hi => ?_, fun ho hi => ?_⟩⟩
  · rw [step_cons hin, perform_hostWrite v rfl]; rfl
  · rw [step_cons hin, perform_hostWrite v rfl]; rfl
  · rw [step_cons hin, perform_hostWrite v rfl]; rfl
  · refine ⟨_, step_storeFb hin ho hi, rfl, fun j => ?_⟩
    rw [fbByte_setFb_singleton, extractLsb'_eq_ofNat]
    rfl
  · refine ⟨_, step_storeAb hin ho hi, rfl, fun j => ?_⟩
    rw [abByte_setAb_singleton, extractLsb'_eq_ofNat]
    rfl

end Sys2Proof.Machine
end

section
/-! SUPPORT. The sync unit apart from the rest of the block (20_memory.md rule R68, 44_sync.md rule R231): a command other
than SYNC_CTL neither reads nor writes it, and a line bit touches nothing else. -/

namespace Sys2Proof.Machine

variable {s t : State}

/-! ### The sync unit as a part of the state -/

/-- The four fields the Line writes (44_sync.md rule R232). -/
structure SyncUnit where
  /-- SYNC_SR -/
  sr : Word
  /-- SYNC_CNT -/
  cnt : Nat
  /-- SYNC_DET -/
  det : Bool
  /-- SYNC_EN -/
  en : Bool

/-- The sync unit of a state. -/
def State.syncUnit (s : State) : SyncUnit := ⟨s.syncSr, s.syncCnt, s.syncDet, s.syncEn⟩

/-- The state with another sync unit. -/
def State.withSync (u : SyncUnit) (s : State) : State :=
  { s with syncSr := u.sr, syncCnt := u.cnt, syncDet := u.det, syncEn := u.en }

@[simp] theorem withSync_syncUnit (s : State) : s.withSync s.syncUnit = s := rfl
@[simp] theorem syncUnit_withSync (s : State) (u : SyncUnit) : (s.withSync u).syncUnit = u := rfl

/-- A line bit writes the sync unit only. -/
theorem lineBit_eq_withSync (s : State) (b : Bool) : s.lineBit b = s.withSync (s.lineBit b).syncUnit :=
  lineBit_eq s b

/-- What a line bit makes of the sync unit depends on it, SYNC_PAT and the parameters alone. -/
theorem syncUnit_lineBit_congr (hu : t.syncUnit = s.syncUnit) (hp : t.syncPat = s.syncPat) (hc : t.cfg = s.cfg) (b : Bool) :
    (t.lineBit b).syncUnit = (s.lineBit b).syncUnit := by
  obtain ⟨hsr, hcnt, hdet, hen⟩ := SyncUnit.mk.inj hu
  have hsr' : t.shiftedSr b = s.shiftedSr b := by rw [State.shiftedSr, hsr, hc, State.shiftedSr]
  have hcnt' : t.nextCnt = s.nextCnt := by rw [State.nextCnt, hcnt, hc, State.nextCnt]
  have hd : t.detects b = s.detects b := by
    rw [State.detects, State.patv, hsr', hcnt', hp, hc, State.detects, State.patv]
  rw [State.lineBit, State.lineBit, hen, hsr', hcnt', hd, hdet]
  split
  · rfl
  · exact hu

/-! ### The commands and the sync unit -/

section
variable (u : SyncUnit)

theorem withSync_ite (c : Prop) [Decidable c] (s t : State) :
    (if c then s else t).withSync u = if c then s.withSync u else t.withSync u := apply_ite _ c s t

theorem setBits_withSync (bs : Bits) (s : State) (a : Nat) :
    (s.withSync u).setBits a bs = (s.setBits a bs).withSync u := by
  induction bs generalizing s a with
  | nil => rfl
  | cons b bs ih => exact ih (s.setBit a b) (a + 1)

theorem pathListAt_withSync (s : State) (k p : Nat) : (s.withSync u).pathListAt k p = s.pathListAt k p := by
  induction k generalizing p with
  | zero => rfl
  | succ k ih => simp only [State.pathListAt, ih]; rfl

theorem stripFrom_withSync (s : State) (fuel r : Nat) : (s.withSync u).stripFrom fuel r = s.stripFrom fuel r := by
  induction fuel generalizing r with
  | zero => rfl
  | succ fuel ih => simp only [State.stripFrom, ih]; rfl

theorem stripLength_withSync (s : State) : (s.withSync u).stripLength = s.stripLength := stripFrom_withSync u s _ 0

theorem codeRegion_withSync (s : State) (r : Bits × Bool) :
    (s.withSync u).codeRegion r = (s.codeRegion r).withSync u := by
  rw [State.codeRegion, setBits_withSync]
  rfl

theorem checkPaths_withSync (s : State) (Q : List (List Byte × BitVec 4)) :
    (s.withSync u).checkPaths Q = (s.checkPaths Q).withSync u := by
  simp only [State.checkPaths, withSync_ite]
  rfl

theorem dropBytes_withSync (s : State) (r : Nat) : (s.withSync u).dropBytes r = (s.dropBytes r).withSync u := by
  simp only [State.dropBytes, withSync_ite]
  rfl

theorem parse_withSync (s : State) : (s.withSync u).parse = s.parse := rfl

theorem recordOffsets_withSync (s : State) (c e : Nat) :
    (s.withSync u).recordOffsets c e = (s.recordOffsets c e).withSync u := rfl

theorem fcsMatches_withSync (s : State) : (s.withSync u).fcsMatches = s.fcsMatches := rfl

theorem acceptBody_withSync (s : State) : (s.withSync u).acceptBody = s.acceptBody.withSync u := by
  unfold State.acceptBody
  rw [parse_withSync]
  cases s.parse with
  | noControl => rfl
  | noFlag => rfl
  | found c e =>
    simp only [recordOffsets_withSync, fcsMatches_withSync, withSync_ite]
    rfl

theorem validateBody_withSync (s : State) (p : Nat) :
    (s.withSync u).validateBody p = (s.validateBody p).withSync u := by
  unfold State.validateBody
  rw [withSync_ite, ← acceptBody_withSync]
  rfl

theorem findEndFlag_withSync (s : State) : (s.withSync u).findEndFlag = s.findEndFlag := rfl

/-- INS_PATHS with whatever PathList answers (42_frame_builder.md rule R168). -/
theorem execInsPaths_withSync (a : BitVec 16) (k : BitVec 4) (hx : execInsPaths a k s = .next t) :
    execInsPaths a k (s.withSync u) = .next (t.withSync u) := by
  cases hx
  unfold execInsPaths
  rw [pathListAt_withSync, withSync_ite, withSync_ite]
  cases s.pathListAt k.toNat a.toNat with
  | none => rfl
  | some Q =>
    simp only [Option.map_some, Option.getD_some, checkPaths_withSync]
    rfl

/-- VALIDATE with whatever FindEndFlag() answers (43_frame_parser.md rule R203). -/
theorem execValidate_withSync (hx : execValidate s = .next t) :
    execValidate (s.withSync u) = .next (t.withSync u) := by
  cases hx
  unfold execValidate
  rw [findEndFlag_withSync, withSync_ite]
  cases s.findEndFlag with
  | none => rfl
  | some p =>
    simp only [Option.map_some, Option.getD_some, validateBody_withSync]
    rfl

/-- A command other than SYNC_CTL does the same whatever the sync unit holds, and leaves it alone. -/
theorem exec_withSync {i : Instr} (hi : ∀ en, i ≠ .syncCtl en) (hx : exec i s = .next t) :
    exec i (s.withSync u) = .next (t.withSync u) := by
  cases i with
  | syncCtl en => exact absurd rfl (hi en)
  | insPaths a k => exact execInsPaths_withSync u a k hx
  | validate => exact execValidate_withSync u hx
  | fbClear => cases hx; rfl
  | crcCompute => cases hx; rw [withSync_ite]; rfl
  | crcCheck => cases hx; rw [withSync_ite]; rfl
  | fcsAppend => cases hx; simp only [withSync_ite]; rfl
  | stuff => cases hx; simp only [withSync_ite]; rfl
  | unstuff => cases hx; rw [withSync_ite]; rfl
  | nrziEnc start => cases hx; rw [withSync_ite, ← codeRegion_withSync]; rfl
  | nrziDec start => cases hx; rw [withSync_ite, ← codeRegion_withSync]; rfl
  | insDest a n ssid => cases hx; rw [withSync_ite]; rfl
  | insSrc a n ssid => cases hx; simp only [withSync_ite]; rfl
  | insInfo a => cases hx; simp only [withSync_ite]; rfl
  | flagAppend => cases hx; simp only [withSync_ite]; rfl
  | parseOffsets =>
    cases hx
    simp only [exec, execParseOffsets, parse_withSync]
    cases s.parse <;> rfl
  | getSource a => cases hx; simp only [withSync_ite]; rfl
  | syncStrip =>
    cases hx
    simp only [exec, execSyncStrip, stripLength_withSync, dropBytes_withSync]
    rfl
  | syncPreamble => cases hx; rw [withSync_ite]; rfl

end

/-- No ending of a command changes SYNC_PAT or the parameters. -/
theorem syncPat_cfg_of_runs {i : Instr} (h : s.Runs i t) : t.syncPat = s.syncPat ∧ t.cfg = s.cfg := by
  cases h with
  | fcsAppend => simp [State.appendFcs]
  | stuff => simp [State.replaceRegion, State.writeStream]
  | unstuff => simp [State.replaceRegion, State.writeStream]
  | nrziEnc start => rw [State.codeRegion, setBits_eq]; simp
  | nrziDec start => rw [State.codeRegion, setBits_eq]; simp
  | insDest => simp [State.insertDest]
  | insSrc => simp [State.insertSrc]
  | insPaths => simp [State.insertPaths]
  | insInfo => simp [State.insertInfo]
  | flagAppend => simp [State.appendFlag]
  | rejectedBody => simp [State.putBody]
  | rejectedFcs => simp [State.putBody]
  | validated => simp [State.putBody]
  | syncStrip => unfold State.dropBytes; split <;> simp
  | syncPreamble => simp [State.addPreamble]
  | _ => simp

/-- Settles O60: the command runs on what a line bit leaves alone, and the line bit on what the command leaves alone. -/
theorem lineBitCommutesWithCommands : Obligations.LineBitCommutesWithCommands := by
  intro i s t b hi hx
  have hown : t.syncUnit = s.syncUnit := by
    have hx' := exec_withSync s.syncUnit hi hx
    rw [withSync_syncUnit, hx] at hx'
    rw [Host.Outcome.next.inj hx', syncUnit_withSync]
  obtain ⟨hpat, hcfg⟩ := syncPat_cfg_of_runs (runs_of_exec hx)
  have hline : (t.lineBit b).syncUnit = (s.lineBit b).syncUnit := syncUnit_lineBit_congr hown hpat hcfg b
  rw [lineBit_eq_withSync s, exec_withSync _ hi hx, ← hline, ← lineBit_eq_withSync]

end Sys2Proof.Machine
end

section
/-! SUPPORT. Which Host accesses have a step and which writes are ignored (20_memory.md rules R64 and R65). -/

namespace Sys2Proof.Machine

variable {s : State}

/-! ### Inputs with a step and without -/

/-- Every write of a register answers a state. -/
theorem exists_writeReg (s : State) (r : Reg) (w : Word) : ∃ t, s.writeReg r w = .next t := by
  cases r with
  | cmd =>
    simp only [State.writeReg, State.issue]
    split
    next i _ =>
      obtain ⟨t, ht, -⟩ := exists_exec_runs i { s with cmd := w }
      exact ⟨t, ht⟩
    next => exact ⟨_, rfl⟩
  | _ => exact ⟨_, rfl⟩

/-- Every admitted write answers a state. -/
theorem exists_writeValue (s : State) (off : BitVec 14) (v : Word) : ∃ t, s.writeValue off v = .next t := by
  unfold State.writeValue
  split
  next o _ =>
    cases regAt o with
    | none => exact ⟨_, rfl⟩
    | some r => exact exists_writeReg s r v
  all_goals exact ⟨_, rfl⟩

/-- An input that is no refused access has a step. -/
theorem exists_perform_of_hasStep {e : Input} (s : State) (h : e.hasStep = true) : ∃ t, s.perform e = .next t := by
  cases e with
  | hostRead off n => exact ⟨_, perform_hostRead h⟩
  | hostWrite off n v => rw [perform_hostWrite v h]; exact exists_writeValue s off v
  | lineBit b => exact ⟨_, perform_lineBit s b⟩
  | rst => exact ⟨_, perform_rst s⟩

theorem exists_step_of_hasStep {e : Input} {rest : List Input} (hin : s.inputs = e :: rest) (h : e.hasStep = true) :
    ∃ t, step s = .next t := by
  rw [step_cons hin]
  exact exists_perform_of_hasStep _ h

theorem step_of_refused {e : Input} {rest : List Input} (hin : s.inputs = e :: rest) (h : e.hasStep = false) :
    step s = .fault .hostStuck := by
  rw [step_cons hin, perform_refused h]

/-- A step ends in a state, or in the fault of a refused access. -/
theorem step_next_or_stuck (s : State) :
    (∃ t, step s = .next t) ∨
      step s = .fault .hostStuck ∧ ∃ e rest, s.inputs = e :: rest ∧ e.hasStep = false := by
  cases hin : s.inputs with
  | nil => exact .inl ⟨s, takeInput_nil hin⟩
  | cons e rest =>
    cases he : e.hasStep with
    | true => exact .inl (exists_step_of_hasStep hin he)
    | false => exact .inr ⟨step_of_refused hin he, e, rest, rfl, he⟩

/-- Settles O16: the step of an input is a state or the fault, by whether the input is refused. -/
theorem stepStopsOnlyAtRefusedAccess : Obligations.StepStopsOnlyAtRefusedAccess := by
  intro s
  refine ⟨fun r hr => ?_, fun f => ⟨fun hf => ?_, ?_⟩, takeInput_nil⟩
  · obtain ⟨t, ht⟩ | ⟨hstuck, -⟩ := step_next_or_stuck s
    · cases ht.symm.trans hr
    · cases hstuck.symm.trans hr
  · obtain ⟨t, ht⟩ | ⟨hstuck, hrefused⟩ := step_next_or_stuck s
    · cases ht.symm.trans hf
    · exact ⟨(Host.Outcome.fault.inj (hstuck.symm.trans hf)).symm, hrefused⟩
  · rintro ⟨rfl, e, rest, hin, he⟩
    exact step_of_refused hin he

/-! ### The admitted widths by area -/

theorem admitted_reg_iff {off : BitVec 14} {n : Nat} (h : off.toNat < 0x1000) :
    admitted off n = true ↔ n = 4 ∧ off.toNat % 4 = 0 := by
  simp [admitted, areaOf_reg h]

theorem admitted_window_iff {off : BitVec 14} {n : Nat} (hlo : 0x1000 ≤ off.toNat) (hhi : off.toNat < 0x3000) :
    admitted off n = true ↔ n = 1 := by
  by_cases h : off.toNat < 0x2000
  · simp [admitted, areaOf_fbw (off := off) (i := off.toNat - 0x1000) (by omega) (by omega)]
  · simp [admitted, areaOf_abw (off := off) (i := off.toNat - 0x2000) (by omega) (by omega)]

/-- A Host access as the next input has a step when it is admitted, and else stops the machine. -/
theorem step_of_access {off : BitVec 14} {n : Nat} {rest : List Input} {p : Prop}
    (hin : s.inputs = .hostRead off n :: rest ∨ ∃ v, s.inputs = .hostWrite off n v :: rest)
    (hp : admitted off n = true ↔ p) :
    (p → ∃ t, step s = .next t) ∧ (¬p → step s = .fault .hostStuck) := by
  obtain ⟨e, he, hstep⟩ : ∃ e, s.inputs = e :: rest ∧ e.hasStep = admitted off n := by
    obtain hin | ⟨v, hin⟩ := hin
    · exact ⟨_, hin, rfl⟩
    · exact ⟨_, hin, rfl⟩
  rw [← hp, ← hstep]
  exact ⟨exists_step_of_hasStep he, fun h => step_of_refused he (Bool.eq_false_of_not_eq_true h)⟩

/-- Settles O8: what is admitted in each area decides the step. -/
theorem refusedAccessSticks : Obligations.RefusedAccessSticks := by
  intro s off n rest hin
  exact ⟨fun h => step_of_access hin (admitted_reg_iff h),
    fun hlo hhi => step_of_access hin (admitted_window_iff hlo hhi)⟩

/-! ### Ignored writes -/

theorem writeValue_reg {off : BitVec 14} (h : off.toNat < 0x1000) (v : Word) :
    s.writeValue off v = ((regAt off.toNat).map fun r => s.writeReg r v).getD (.next s) := by
  rw [State.writeValue, areaOf_reg h]

/-- A write of a read-only register. -/
theorem writeValue_readOnly {off : BitVec 14} (v : Word)
    (h : off.toNat ∈ [0x00C, 0x010, 0x01C, 0x020, 0x024, 0x028]) : s.writeValue off v = .next s := by
  simp only [List.mem_cons, List.not_mem_nil, or_false] at h
  rw [writeValue_reg (by omega)]
  rcases h with h | h | h | h | h | h <;> rw [h] <;> rfl

/-- A write of a word of REG above the last register. -/
theorem writeValue_reg_reserved {off : BitVec 14} (v : Word) (hlo : 0x030 ≤ off.toNat) (hhi : off.toNat < 0x1000) :
    s.writeValue off v = .next s := by
  rw [writeValue_reg hhi, regAt_eq_none hlo]
  rfl

/-- A write beyond the last byte of FB. -/
theorem writeValue_fbw_unbacked {off : BitVec 14} (v : Word) (hlo : 0x1000 + s.cfg.frameMax ≤ off.toNat)
    (hhi : off.toNat < 0x2000) : s.writeValue off v = .next s := by
  rw [State.writeValue, areaOf_fbw (i := off.toNat - 0x1000) (by omega) (by omega)]
  simp only [if_neg (show ¬off.toNat - 0x1000 < s.cfg.frameMax by omega)]

/-- A write beyond the last byte of AB. -/
theorem writeValue_abw_unbacked {off : BitVec 14} (v : Word) (hlo : 0x2000 + s.cfg.argMax ≤ off.toNat)
    (hhi : off.toNat < 0x3000) : s.writeValue off v = .next s := by
  rw [State.writeValue, areaOf_abw (i := off.toNat - 0x2000) (by omega) (by omega)]
  simp only [if_neg (show ¬off.toNat - 0x2000 < s.cfg.argMax by omega)]

theorem writeValue_reserved {off : BitVec 14} (v : Word) (h : 0x3000 ≤ off.toNat) : s.writeValue off v = .next s := by
  rw [State.writeValue, areaOf_reserved h]

/-- An admitted write that changes nothing only uses up the input. -/
theorem step_ignoredWrite {off : BitVec 14} {n : Nat} {v : Word} {rest : List Input}
    (hin : s.inputs = .hostWrite off n v :: rest) (ha : admitted off n = true)
    (hw : { s with inputs := rest }.writeValue off v = .next { s with inputs := rest }) :
    step s = .next { s with inputs := rest } := by
  rw [step_cons hin, perform_hostWrite v ha, hw]

/-- Settles O13: each of these places admits the access, and its area ignores the write. -/
theorem ignoredWrites : Obligations.IgnoredWrites := by
  intro s v off n rest hin hplace
  rcases hplace with ⟨rfl, hro⟩ | ⟨rfl, hlo, hhi, h4⟩ | ⟨rfl, hlo, hhi⟩ | ⟨rfl, hlo, hhi⟩ | ⟨rfl, hlo, h4⟩
  · obtain ⟨hlt, h4⟩ : off.toNat < 0x1000 ∧ off.toNat % 4 = 0 := by
      simp only [List.mem_cons, List.not_mem_nil, or_false] at hro
      omega
    exact step_ignoredWrite hin (admitted_reg hlt h4) (writeValue_readOnly v hro)
  · exact step_ignoredWrite hin (admitted_reg (by omega) h4) (writeValue_reg_reserved v hlo (by omega))
  · exact step_ignoredWrite hin ((admitted_window_iff (by omega) (by omega)).mpr rfl) (writeValue_fbw_unbacked v hlo hhi)
  · exact step_ignoredWrite hin ((admitted_window_iff (by omega) hhi).mpr rfl) (writeValue_abw_unbacked v hlo hhi)
  · exact step_ignoredWrite hin (admitted_reserved hlo h4) (writeValue_reserved v hlo)

end Sys2Proof.Machine
end

section
/-! SUPPORT. The encoding of the commands (30_encoding.md): the reserved bits of a format as a test on the word's number, a
word put together again from its fields, and the decoder held against the encoder, the opcode table and rule R85. -/

namespace Sys2Proof

variable {w : Word} {i j : Instr}

/-! ### Fields and reserved bits -/

theorem toNat_fieldOp (w : Word) : (fieldOp w).toNat = w.toNat % 256 := by simp [fieldOp]

theorem toNat_fieldK (w : Word) : (fieldK w).toNat = w.toNat / 256 % 16 := by
  simp [fieldK, Nat.shiftRight_eq_div_pow]

theorem toNat_fieldClen (w : Word) : (fieldClen w).toNat = w.toNat / 4096 % 8 := by
  simp [fieldClen, Nat.shiftRight_eq_div_pow]

/-- A run of `len` bits from bit `lo` is zero exactly when the number has a zero there. -/
theorem and_ones_eq_zero_iff (w : Word) {lo len : Nat} (h : lo + len ≤ 32) :
    w &&& (BitVec.allOnes len).setWidth 32 <<< lo = 0#32 ↔ w.toNat / 2 ^ lo % 2 ^ len = 0 := by
  have hfield : w &&& (BitVec.allOnes len).setWidth 32 <<< lo = 0#32 ↔ w.extractLsb' lo len = 0#len := by
    simp only [BitVec.eq_of_getLsbD_eq_iff, BitVec.getLsbD_and, BitVec.getLsbD_shiftLeft, BitVec.getLsbD_setWidth,
      BitVec.getLsbD_allOnes, BitVec.getLsbD_extractLsb', BitVec.getLsbD_zero]
    constructor
    · intro hw j hj
      simpa [hj, show lo + j < 32 by omega, show j < 32 by omega] using hw (lo + j) (by omega)
    · intro hw j hj
      by_cases hlo : j < lo
      · simp [hlo]
      · by_cases hin : j - lo < len
        · have hbit := hw (j - lo) hin
          rw [Nat.add_sub_cancel' (Nat.not_lt.mp hlo), decide_eq_true hin, Bool.true_and] at hbit
          simp [hbit]
        · simp [hin]
  rw [hfield, ← BitVec.toNat_inj, BitVec.extractLsb'_toNat, Nat.shiftRight_eq_div_pow]
  simp

theorem and_reservedF0_iff : w &&& reservedF0 = 0#32 ↔ w.toNat / 256 = 0 := by
  have h := and_ones_eq_zero_iff w (lo := 8) (len := 24) (by decide)
  rwa [Nat.mod_eq_of_lt (by omega)] at h

theorem and_reservedF1_iff : w &&& reservedF1 = 0#32 ↔ w.toNat / 512 = 0 := by
  have h := and_ones_eq_zero_iff w (lo := 9) (len := 23) (by decide)
  rwa [Nat.mod_eq_of_lt (by omega)] at h

theorem and_reservedF2_iff : w &&& reservedF2 = 0#32 ↔ w.toNat / 256 % 256 = 0 :=
  and_ones_eq_zero_iff w (lo := 8) (len := 8) (by decide)

theorem and_reservedF3_iff : w &&& reservedF3 = 0#32 ↔ w.toNat / 32768 % 2 = 0 :=
  and_ones_eq_zero_iff w (lo := 15) (len := 1) (by decide)

theorem and_reservedF4_iff : w &&& reservedF4 = 0#32 ↔ w.toNat / 4096 % 16 = 0 :=
  and_ones_eq_zero_iff w (lo := 12) (len := 4) (by decide)

theorem clenLegal_fieldClen (w : Word) : clenLegal (fieldClen w) = !(w.toNat / 4096 % 8 == 7) := by
  rw [clenLegal, bne, ← toNat_fieldClen, Bool.eq_iff_iff]
  simp [← BitVec.toNat_inj]

theorem kLegal_fieldK (w : Word) : kLegal (fieldK w) = !decide (9 ≤ w.toNat / 256 % 16) := by
  rw [kLegal, BitVec.ult, toNat_fieldK, Bool.eq_iff_iff]
  simp

/-! ### A word from its fields (rules R82 and R88) -/

theorem getLsbD_eq_false_of_and {r : Word} (h : w &&& r = 0#32) (j : Nat) (hr : r.getLsbD j = true) :
    w.getLsbD j = false := by
  have := congrArg (BitVec.getLsbD · j) h
  simpa [hr] using this

/-- A word in which only OP may be set, from its number. -/
theorem eq_op_iff {op : BitVec 8} : w = op.setWidth 32 ↔ fieldOp w = op ∧ w &&& reservedF0 = 0#32 := by
  rw [and_reservedF0_iff, ← BitVec.toNat_inj, ← BitVec.toNat_inj, toNat_fieldOp, BitVec.toNat_setWidth]
  omega

theorem wordF0_fields (h : w &&& reservedF0 = 0#32) : wordF0 ((fieldOp w).setWidth 32) = w :=
  (eq_op_iff.mpr ⟨rfl, h⟩).symm

theorem wordF1_fields (h : w &&& reservedF1 = 0#32) : wordF1 ((fieldOp w).setWidth 32) (fieldS w) = w := by
  refine BitVec.eq_of_getLsbD_eq fun j hj => ?_
  have hz := getLsbD_eq_false_of_and h j
  interval_cases j <;> simp_all [wordF1, fieldOp, fieldS, reservedF1]

theorem wordF2_fields (h : w &&& reservedF2 = 0#32) : wordF2 ((fieldOp w).setWidth 32) (fieldAoff w) = w := by
  refine BitVec.eq_of_getLsbD_eq fun j hj => ?_
  have hz := getLsbD_eq_false_of_and h j
  interval_cases j <;> simp_all [wordF2, fieldOp, fieldAoff, reservedF2]

theorem wordF3_fields (h : w &&& reservedF3 = 0#32) :
    wordF3 ((fieldOp w).setWidth 32) (fieldAoff w) (fieldClen w) (fieldSsid w) = w := by
  refine BitVec.eq_of_getLsbD_eq fun j hj => ?_
  have hz := getLsbD_eq_false_of_and h j
  interval_cases j <;> simp_all [wordF3, fieldOp, fieldAoff, fieldClen, fieldSsid, reservedF3]

theorem wordF4_fields (h : w &&& reservedF4 = 0#32) :
    wordF4 ((fieldOp w).setWidth 32) (fieldAoff w) (fieldK w) = w := by
  refine BitVec.eq_of_getLsbD_eq fun j hj => ?_
  have hz := getLsbD_eq_false_of_and h j
  interval_cases j <;> simp_all [wordF4, fieldOp, fieldAoff, fieldK, reservedF4]

/-! ### The decoder against the encoder (rules R82, R86 and R90) -/

/-- Settles O1, command by command with the round-trip lemmas of Sys2Proof/Laws/PerInstr.lean. -/
theorem decodeEncodeRoundTrip : Obligations.DecodeEncodeRoundTrip := by
  intro i
  cases i with
  | crcCompute => exact Laws.RoundTrip.crcCompute
  | crcCheck => exact Laws.RoundTrip.crcCheck
  | fcsAppend => exact Laws.RoundTrip.fcsAppend
  | stuff => exact Laws.RoundTrip.stuff
  | unstuff => exact Laws.RoundTrip.unstuff
  | nrziEnc s => exact Laws.RoundTrip.nrziEnc s
  | nrziDec s => exact Laws.RoundTrip.nrziDec s
  | fbClear => exact Laws.RoundTrip.fbClear
  | insDest a n s => exact Laws.RoundTrip.insDest a n s
  | insSrc a n s => exact Laws.RoundTrip.insSrc a n s
  | insPaths a k => exact Laws.RoundTrip.insPaths a k
  | insInfo a => exact Laws.RoundTrip.insInfo a
  | flagAppend => exact Laws.RoundTrip.flagAppend
  | parseOffsets => exact Laws.RoundTrip.parseOffsets
  | validate => exact Laws.RoundTrip.validate
  | getSource a => exact Laws.RoundTrip.getSource a
  | syncCtl s => exact Laws.RoundTrip.syncCtl s
  | syncStrip => exact Laws.RoundTrip.syncStrip
  | syncPreamble => exact Laws.RoundTrip.syncPreamble

theorem decodePlain_eq_ok {r : Word} : decodePlain r i w = .ok j ↔ w &&& r = 0#32 ∧ i = j := by
  unfold decodePlain
  split <;> simp [*]

theorem decodeAddr_eq_ok {mk : BitVec 16 → BitVec 3 → BitVec 4 → Instr} :
    decodeAddr mk w = .ok j ↔
      w &&& reservedF3 = 0#32 ∧ clenLegal (fieldClen w) = true ∧ mk (fieldAoff w) (fieldClen w) (fieldSsid w) = j := by
  by_cases hr : w &&& reservedF3 = 0#32 <;> cases hn : clenLegal (fieldClen w) <;> simp [decodeAddr, hr, hn]

theorem decodePaths_eq_ok :
    decodePaths w = .ok j ↔
      w &&& reservedF4 = 0#32 ∧ kLegal (fieldK w) = true ∧ .insPaths (fieldAoff w) (fieldK w) = j := by
  by_cases hr : w &&& reservedF4 = 0#32 <;> cases hk : kLegal (fieldK w) <;> simp [decodePaths, hr, hk]

/-- An arm's opcode, in the place it has in a word, is the word's own field. -/
theorem op_eq_fieldOp {op : Word} {n : Nat} (h : (fieldOp w).toNat = n) (hn : op = BitVec.ofNat 32 n) :
    op = (fieldOp w).setWidth 32 := by
  rw [hn, ← h, BitVec.ofNat_toNat]

/-- Settles O2: the arm that accepts a word has found the reserved bits zero, so the word is made of its fields alone. -/
theorem encodeInvertsDecode : Obligations.EncodeInvertsDecode := by
  intro w i h
  unfold decode at h
  split at h
  -- format F0
  case h_1 hop | h_2 hop | h_3 hop | h_4 hop | h_5 hop | h_8 hop | h_13 hop | h_14 hop | h_15 hop | h_18 hop |
      h_19 hop =>
    obtain ⟨hr, rfl⟩ := decodePlain_eq_ok.mp h
    exact ⟨rfl, by rw [encode, op_eq_fieldOp hop rfl, wordF0_fields hr]⟩
  -- format F1
  case h_6 hop | h_7 hop | h_17 hop =>
    obtain ⟨hr, rfl⟩ := decodePlain_eq_ok.mp h
    exact ⟨rfl, by rw [encode, op_eq_fieldOp hop rfl, wordF1_fields hr]⟩
  -- format F2
  case h_12 hop | h_16 hop =>
    obtain ⟨hr, rfl⟩ := decodePlain_eq_ok.mp h
    exact ⟨rfl, by rw [encode, op_eq_fieldOp hop rfl, wordF2_fields hr]⟩
  -- format F3
  case h_9 hop | h_10 hop =>
    obtain ⟨hr, hn, rfl⟩ := decodeAddr_eq_ok.mp h
    exact ⟨hn, by rw [encode, op_eq_fieldOp hop rfl, wordF3_fields hr]⟩
  -- format F4
  case h_11 hop =>
    obtain ⟨hr, hk, rfl⟩ := decodePaths_eq_ok.mp h
    exact ⟨hk, by rw [encode, op_eq_fieldOp hop rfl, wordF4_fields hr]⟩
  -- OP is unassigned
  case h_20 => cases h

/-- Decoding and encoding are inverse (rules R82, R86): `decode` accepts the command words and no others. -/
theorem decode_eq_ok_iff : decode w = .ok i ↔ i.wf = true ∧ encode i = w :=
  ⟨encodeInvertsDecode w i, fun ⟨hi, hw⟩ => hw ▸ decodeEncodeRoundTrip i hi⟩

/-- Settles O4: the decoder is evaluated on each word. -/
theorem decodesWordsOfTheFormats : Obligations.DecodesWordsOfTheFormats := by
  unfold Obligations.DecodesWordsOfTheFormats
  decide

/-! ### The opcode table (rule R90) -/

/-- OP and reserved bits read by one mask, as the masks of the table do it, are read apart. -/
theorem and_mask_eq_iff {mask : Word} (hm : fieldOp mask = 0xFF#8) (op : BitVec 8) :
    w &&& mask = op.setWidth 32 ↔ fieldOp w = op ∧ w &&& (mask &&& reservedF0) = 0#32 := by
  have hop : fieldOp (w &&& mask) = fieldOp w := by
    rw [fieldOp, BitVec.extractLsb'_and, ← fieldOp, ← fieldOp, hm]
    exact BitVec.and_allOnes
  rw [eq_op_iff, hop, BitVec.and_assoc]

/-- The table's "illegal_if" of format F3 is rule R85 (c). -/
theorem illegalClen_eq (w : Word) : illegalClen w = !clenLegal (fieldClen w) := by
  rw [clenLegal_fieldClen, illegalClen, Bool.not_not, Bool.eq_iff_iff]
  simp [← BitVec.toNat_inj, Nat.shiftRight_eq_div_pow, Nat.and_two_pow_sub_one_eq_mod _ 3]

/-- The table's "illegal_if" of format F4 is rule R85 (d). -/
theorem illegalK_eq (w : Word) : illegalK w = !kLegal (fieldK w) := by
  rw [kLegal_fieldK, illegalK, Bool.not_not, Bool.eq_iff_iff]
  simp [BitVec.ule, Nat.shiftRight_eq_div_pow, Nat.and_two_pow_sub_one_eq_mod _ 4]

/-- A row with OP and the reserved bits of its format under its mask, in the decoder's terms. -/
theorem covers_iff {m : String} {op : BitVec 8} {mask reserved : Word} {illegalIf : Word → Bool}
    (hop : fieldOp mask = 0xFF#8) (hres : mask &&& reservedF0 = reserved) :
    (⟨m, op.setWidth 32, mask, illegalIf⟩ : OpcodeRow).covers w = true ↔
      (fieldOp w = op ∧ w &&& reserved = 0#32) ∧ illegalIf w = false := by
  rw [OpcodeRow.covers, Bool.and_eq_true, beq_iff_eq, Bool.not_eq_true', and_mask_eq_iff hop, hres]

theorem covers_F0_iff {m : String} {v : Word} :
    (⟨m, v, 0xFFFFFFFF#32, fun _ => false⟩ : OpcodeRow).covers w = true ↔ v = w := by
  rw [OpcodeRow.covers, show w &&& 0xFFFFFFFF#32 = w from BitVec.and_allOnes, Bool.not_false, Bool.and_true, beq_iff_eq]
  exact eq_comm

theorem covers_F1_iff {m : String} (op : BitVec 8) :
    (⟨m, op.setWidth 32, 0xFFFFFEFF#32, fun _ => false⟩ : OpcodeRow).covers w = true ↔
      ∃ s, wordF1 (op.setWidth 32) s = w := by
  rw [covers_iff (reserved := reservedF1) (by decide) (by decide)]
  constructor
  · rintro ⟨⟨rfl, hr⟩, -⟩
    exact ⟨fieldS w, wordF1_fields hr⟩
  · rintro ⟨s, rfl⟩
    obtain ⟨hop, hr, -⟩ := Laws.fields_wordF1 op s
    exact ⟨⟨hop, hr⟩, rfl⟩

theorem covers_F2_iff {m : String} (op : BitVec 8) :
    (⟨m, op.setWidth 32, 0x0000FFFF#32, fun _ => false⟩ : OpcodeRow).covers w = true ↔
      ∃ a, wordF2 (op.setWidth 32) a = w := by
  rw [covers_iff (reserved := reservedF2) (by decide) (by decide)]
  constructor
  · rintro ⟨⟨rfl, hr⟩, -⟩
    exact ⟨fieldAoff w, wordF2_fields hr⟩
  · rintro ⟨a, rfl⟩
    obtain ⟨hop, hr, -⟩ := Laws.fields_wordF2 op a
    exact ⟨⟨hop, hr⟩, rfl⟩

theorem covers_F3_iff {m : String} (op : BitVec 8) :
    (⟨m, op.setWidth 32, 0x000080FF#32, illegalClen⟩ : OpcodeRow).covers w = true ↔
      ∃ a n s, clenLegal n = true ∧ wordF3 (op.setWidth 32) a n s = w := by
  rw [covers_iff (reserved := reservedF3) (by decide) (by decide), illegalClen_eq, Bool.not_eq_false']
  constructor
  · rintro ⟨⟨rfl, hr⟩, hn⟩
    exact ⟨fieldAoff w, fieldClen w, fieldSsid w, hn, wordF3_fields hr⟩
  · rintro ⟨a, n, s, hn, rfl⟩
    obtain ⟨hop, hr, -, hclen, -⟩ := Laws.fields_wordF3 op a n s
    exact ⟨⟨hop, hr⟩, by rwa [hclen]⟩

theorem covers_F4_iff {m : String} (op : BitVec 8) :
    (⟨m, op.setWidth 32, 0x0000F0FF#32, illegalK⟩ : OpcodeRow).covers w = true ↔
      ∃ a k, kLegal k = true ∧ wordF4 (op.setWidth 32) a k = w := by
  rw [covers_iff (reserved := reservedF4) (by decide) (by decide), illegalK_eq, Bool.not_eq_false']
  constructor
  · rintro ⟨⟨rfl, hr⟩, hk⟩
    exact ⟨fieldAoff w, fieldK w, hk, wordF4_fields hr⟩
  · rintro ⟨a, k, hk, rfl⟩
    obtain ⟨hop, hr, -, hfk⟩ := Laws.fields_wordF4 op a k
    exact ⟨⟨hop, hr⟩, by rwa [hfk]⟩

/-- A row covers only command words, and only those of its mnemonic. -/
theorem encoded_of_covers : ∀ r ∈ opcodeTable, r.covers w = true →
    ∃ i : Instr, i.wf = true ∧ encode i = w ∧ i.mnemonic = r.mnemonic := by
  have plain : ∀ i : Instr, i.wf = true →
      (⟨i.mnemonic, encode i, 0xFFFFFFFF#32, fun _ => false⟩ : OpcodeRow).covers w = true →
      ∃ j : Instr, j.wf = true ∧ encode j = w ∧ j.mnemonic = i.mnemonic :=
    fun i hi hc => ⟨i, hi, covers_F0_iff.mp hc, rfl⟩
  simp only [opcodeTable, List.forall_mem_cons]
  exact ⟨plain .crcCompute rfl, plain .crcCheck rfl, plain .fcsAppend rfl, plain .stuff rfl, plain .unstuff rfl,
    fun hc => let ⟨s, hw⟩ := (covers_F1_iff 0x22#8).mp hc; ⟨.nrziEnc s, rfl, hw, rfl⟩,
    fun hc => let ⟨s, hw⟩ := (covers_F1_iff 0x23#8).mp hc; ⟨.nrziDec s, rfl, hw, rfl⟩,
    plain .fbClear rfl,
    fun hc => let ⟨a, n, s, hn, hw⟩ := (covers_F3_iff 0x31#8).mp hc; ⟨.insDest a n s, hn, hw, rfl⟩,
    fun hc => let ⟨a, n, s, hn, hw⟩ := (covers_F3_iff 0x32#8).mp hc; ⟨.insSrc a n s, hn, hw, rfl⟩,
    fun hc => let ⟨a, k, hk, hw⟩ := (covers_F4_iff 0x33#8).mp hc; ⟨.insPaths a k, hk, hw, rfl⟩,
    fun hc => let ⟨a, hw⟩ := (covers_F2_iff 0x34#8).mp hc; ⟨.insInfo a, rfl, hw, rfl⟩,
    plain .flagAppend rfl, plain .parseOffsets rfl, plain .validate rfl,
    fun hc => let ⟨a, hw⟩ := (covers_F2_iff 0x42#8).mp hc; ⟨.getSource a, rfl, hw, rfl⟩,
    fun hc => let ⟨s, hw⟩ := (covers_F1_iff 0x50#8).mp hc; ⟨.syncCtl s, rfl, hw, rfl⟩,
    plain .syncStrip rfl, plain .syncPreamble rfl, fun _ h => absurd h List.not_mem_nil⟩

/-- Every command has its row, and the row covers the command's word. -/
theorem exists_row_covers_encode (hi : i.wf = true) :
    ∃ r ∈ opcodeTable, r.mnemonic = i.mnemonic ∧ r.covers (encode i) = true := by
  cases i
  case insDest a n s =>
    exact ⟨opcodeTable[8], List.getElem_mem _, rfl, (covers_F3_iff 0x31#8).mpr ⟨a, n, s, hi, rfl⟩⟩
  case insSrc a n s =>
    exact ⟨opcodeTable[9], List.getElem_mem _, rfl, (covers_F3_iff 0x32#8).mpr ⟨a, n, s, hi, rfl⟩⟩
  case insPaths a k => exact ⟨opcodeTable[10], List.getElem_mem _, rfl, (covers_F4_iff 0x33#8).mpr ⟨a, k, hi, rfl⟩⟩
  case insInfo a => exact ⟨opcodeTable[11], List.getElem_mem _, rfl, (covers_F2_iff 0x34#8).mpr ⟨a, rfl⟩⟩
  case getSource a => exact ⟨opcodeTable[15], List.getElem_mem _, rfl, (covers_F2_iff 0x42#8).mpr ⟨a, rfl⟩⟩
  case nrziEnc s | nrziDec s | syncCtl s => cases s <;> decide
  case crcCompute | crcCheck | fcsAppend | stuff | unstuff | fbClear | flagAppend | parseOffsets | validate | syncStrip |
      syncPreamble => decide

/-- Settles O3: a row covers the words of its mnemonic's commands, and a word has one command. -/
theorem decodeAgreesWithOpcodeTable : Obligations.DecodeAgreesWithOpcodeTable := by
  intro w
  constructor
  · intro i hd
    obtain ⟨hi, rfl⟩ := decode_eq_ok_iff.mp hd
    obtain ⟨r, hr, hm, hc⟩ := exists_row_covers_encode hi
    refine ⟨r, hr, hm, hc, fun r' hr' hc' => ?_⟩
    obtain ⟨i', hi', hw, hm'⟩ := encoded_of_covers r' hr' hc'
    obtain rfl : i = i' := Except.ok.inj (hd.symm.trans (decode_eq_ok_iff.mpr ⟨hi', hw⟩))
    exact hm'.symm.trans hm.symm
  · intro e hd r hr
    refine Bool.eq_false_iff.mpr fun hc => ?_
    obtain ⟨i, hi, hw, -⟩ := encoded_of_covers r hr hc
    cases hd.symm.trans (decode_eq_ok_iff.mpr ⟨hi, hw⟩)

end Sys2Proof

namespace Sys2Proof.Machine

variable {s : State} {w : Word}

/-! ### The illegal words (rule R85) -/

theorem illegalNumber_F0 (h : (fieldOp w).toNat ∈ opcodesF0) :
    illegalNumber w.toNat = false ↔ w &&& reservedF0 = 0#32 := by
  rw [and_reservedF0_iff, illegalNumber, ← toNat_fieldOp]
  simp [h]

theorem illegalNumber_F1 (h : (fieldOp w).toNat ∈ opcodesF1) :
    illegalNumber w.toNat = false ↔ w &&& reservedF1 = 0#32 := by
  have hne : ∀ op ∈ opcodesF1, op ∉ opcodesF0 := by decide
  rw [and_reservedF1_iff, illegalNumber, ← toNat_fieldOp]
  simp [h, hne _ h]

theorem illegalNumber_F2 (h : (fieldOp w).toNat ∈ opcodesF2) :
    illegalNumber w.toNat = false ↔ w &&& reservedF2 = 0#32 := by
  have hne : ∀ op ∈ opcodesF2, op ∉ opcodesF0 ∧ op ∉ opcodesF1 := by decide
  rw [and_reservedF2_iff, illegalNumber, ← toNat_fieldOp]
  simp [h, hne _ h]

theorem illegalNumber_F3 (h : (fieldOp w).toNat ∈ opcodesF3) :
    illegalNumber w.toNat = false ↔ w &&& reservedF3 = 0#32 ∧ clenLegal (fieldClen w) = true := by
  have hne : ∀ op ∈ opcodesF3, op ∉ opcodesF0 ∧ op ∉ opcodesF1 ∧ op ∉ opcodesF2 := by decide
  rw [and_reservedF3_iff, clenLegal_fieldClen, illegalNumber, ← toNat_fieldOp]
  simp [h, hne _ h]

theorem illegalNumber_F4 (h : (fieldOp w).toNat = 0x33) :
    illegalNumber w.toNat = false ↔ w &&& reservedF4 = 0#32 ∧ kLegal (fieldK w) = true := by
  rw [and_reservedF4_iff, kLegal_fieldK, illegalNumber, ← toNat_fieldOp, h]
  simp [opcodesF0, opcodesF1, opcodesF2, opcodesF3, opcodesF4]

/-- Rule R85 on the number of a word says which words decode. -/
theorem illegalNumber_eq_false_iff : illegalNumber w.toNat = false ↔ ∃ i, decode w = .ok i := by
  unfold decode
  split
  -- format F0
  case h_1 hop | h_2 hop | h_3 hop | h_4 hop | h_5 hop | h_8 hop | h_13 hop | h_14 hop | h_15 hop | h_18 hop |
      h_19 hop =>
    rw [illegalNumber_F0 (hop ▸ by decide)]
    simp [decodePlain_eq_ok]
  -- format F1
  case h_6 hop | h_7 hop | h_17 hop =>
    rw [illegalNumber_F1 (hop ▸ by decide)]
    simp [decodePlain_eq_ok]
  -- format F2
  case h_12 hop | h_16 hop =>
    rw [illegalNumber_F2 (hop ▸ by decide)]
    simp [decodePlain_eq_ok]
  -- format F3
  case h_9 hop | h_10 hop =>
    rw [illegalNumber_F3 (hop ▸ by decide)]
    simp [decodeAddr_eq_ok]
  -- format F4
  case h_11 hop =>
    rw [illegalNumber_F4 hop]
    simp [decodePaths_eq_ok]
  -- OP is unassigned
  case h_20 =>
    rw [illegalNumber, ← toNat_fieldOp]
    simp_all [opcodesF0, opcodesF1, opcodesF2, opcodesF3, opcodesF4]

/-- A Host write to CMD issues the word (10_state.md rule R24). -/
theorem step_writeCmd {rest : List Input} (hin : s.inputs = .hostWrite 0x000#14 4 w :: rest) :
    step s = { s with inputs := rest }.issue w := by
  rw [step_cons hin, perform_hostWrite w rfl]
  rfl

/-- Settles O6: a word with an illegal number has no decoding, and issuing it is `raise ILLEGAL(0)`. -/
theorem illegalWordRaisesIllegal : Obligations.IllegalWordRaisesIllegal := by
  intro w
  constructor
  · intro hill s rest hin
    rw [step_writeCmd hin, State.issue]
    split
    next i hd => rw [illegalNumber_eq_false_iff.mpr ⟨i, hd⟩] at hill; cases hill
    next => rfl
  · intro hleg
    obtain ⟨i, hd⟩ := illegalNumber_eq_false_iff.mp hleg
    exact ⟨i, (decode_eq_ok_iff.mp hd).1, hd⟩

end Sys2Proof.Machine
end

section
/-! SUPPORT. The CRC function (40_crc.md rules R110 to R112, R116): one step on numbers and by bits, the linearity of the
register, a register fed its own bits, and what two data sequences with one register have in common. -/

namespace Sys2Proof.Machine

variable {c d : BitVec 16} {x y : Byte} {D E : List Byte}

/-! ### One bit (rule R110) -/

theorem getLsbD_zero_eq_mod (c : BitVec 16) : c.getLsbD 0 = (c.toNat % 2 == 1) := by
  rw [BitVec.getLsbD, Nat.testBit_zero, beq_eq_decide]

theorem toNat_crcBit (c : BitVec 16) (b : Bool) :
    (crcBit c b).toNat = if (c.toNat % 2 == 1) ^^ b then (c.toNat / 2) ^^^ 0x8408 else c.toNat / 2 := by
  rw [crcBit, getLsbD_zero_eq_mod]
  split <;> simp [Nat.shiftRight_eq_div_pow]

/-- A step is a shift, and 0x8408 times the sum of the bit shifted out and the input. -/
theorem crcBit_eq (c : BitVec 16) (b : Bool) :
    crcBit c b = c >>> 1 ^^^ (if c.getLsbD 0 ^^ b then crcPoly else 0#16) := by
  rw [crcBit]
  split <;> simp

theorem crcBit_xor (c d : BitVec 16) (a b : Bool) : crcBit (c ^^^ d) (a ^^ b) = crcBit c a ^^^ crcBit d b := by
  have hfb : ((c ^^^ d).getLsbD 0 ^^ (a ^^ b)) = ((c.getLsbD 0 ^^ a) ^^ (d.getLsbD 0 ^^ b)) := by
    rw [BitVec.getLsbD_xor, Bool.xor_assoc, Bool.xor_assoc, Bool.xor_left_comm a]
  have hpoly : ∀ p q : Bool, (if p ^^ q then crcPoly else 0#16) =
      (if p then crcPoly else 0#16) ^^^ (if q then crcPoly else 0#16) := by decide
  rw [crcBit_eq, crcBit_eq c, crcBit_eq d, hfb, hpoly, BitVec.ushiftRight_xor_distrib]
  ac_rfl

/-- A register fed the bit it shifts out is shifted only. -/
theorem crcBit_own (c : BitVec 16) : crcBit c (c.getLsbD 0) = c >>> 1 := by simp [crcBit_eq]

/-- Bit 15 of 0x8408 is set, so bit 15 of the next register tells whether 0x8408 was added. -/
theorem getLsbD_crcBit_top (c : BitVec 16) (b : Bool) : (crcBit c b).getLsbD 15 = (c.getLsbD 0 ^^ b) := by
  have hpoly : ∀ p : Bool, (if p then crcPoly else 0#16).getLsbD 15 = p := by decide
  rw [crcBit_eq, BitVec.getLsbD_xor, hpoly, BitVec.getLsbD_ushiftRight, BitVec.getLsbD_of_ge c (1 + 15) (by decide),
    Bool.false_xor]

theorem crcBit_injective (b : Bool) : Function.Injective (crcBit · b) := by
  intro c d h
  have hlow : c.getLsbD 0 = d.getLsbD 0 := by
    have htop : (crcBit c b).getLsbD 15 = (crcBit d b).getLsbD 15 := congrArg (BitVec.getLsbD · 15) h
    rwa [getLsbD_crcBit_top, getLsbD_crcBit_top, Bool.xor_left_inj] at htop
  have hhigh : c >>> 1 = d >>> 1 := by
    dsimp only at h
    rwa [crcBit_eq, crcBit_eq, hlow, BitVec.xor_left_inj] at h
  refine BitVec.eq_of_getLsbD_eq fun i _ => ?_
  cases i with
  | zero => exact hlow
  | succ i => simpa [Nat.add_comm] using congrArg (BitVec.getLsbD · i) hhigh

/-! ### One byte (rule R111) -/

theorem crcByte_eq (c : BitVec 16) (x : Byte) :
    crcByte c x = crcBit (crcBit (crcBit (crcBit (crcBit (crcBit (crcBit (crcBit c
      (x.getLsbD 0)) (x.getLsbD 1)) (x.getLsbD 2)) (x.getLsbD 3)) (x.getLsbD 4)) (x.getLsbD 5)) (x.getLsbD 6))
      (x.getLsbD 7) := rfl

theorem crcByte_xor (c d : BitVec 16) (x y : Byte) : crcByte (c ^^^ d) (x ^^^ y) = crcByte c x ^^^ crcByte d y := by
  simp only [crcByte_eq, BitVec.getLsbD_xor, crcBit_xor]

/-- A register fed its own n low bits is shifted by n. -/
theorem foldl_crcBit_own (c : BitVec 16) (n : Nat) :
    (List.range n).foldl (fun r i => crcBit r (c.getLsbD i)) c = c >>> n := by
  induction n with
  | zero => simp
  | succ n ih =>
    have hbit : c.getLsbD n = (c >>> n).getLsbD 0 := by simp
    rw [List.range_succ, List.foldl_append, ih, List.foldl_cons, List.foldl_nil, hbit, crcBit_own,
      ← BitVec.shiftRight_add]

theorem crcByte_own (c : BitVec 16) : crcByte c (c.setWidth 8) = c >>> 8 := by
  rw [← foldl_crcBit_own]
  exact List.foldl_ext _ _ _ fun r i hi => by simp [List.mem_range.mp hi]

theorem crcByte_injective (x : Byte) : Function.Injective (crcByte · x) := by
  intro c d h
  simp only [crcByte_eq] at h
  iterate 8 replace h := crcBit_injective _ h
  exact h

/-- Data enters as if it had been added to the low byte of the register before. -/
theorem crcByte_eq_xor_zero (c : BitVec 16) (x : Byte) : crcByte c x = crcByte (c ^^^ x.setWidth 16) 0#8 := by
  have hown : crcByte (x.setWidth 16) x = 0#16 := by
    have hx : (x.setWidth 16).setWidth 8 = x := by simp
    have hshift : x.setWidth 16 >>> 8 = 0#16 :=
      BitVec.eq_of_getLsbD_eq fun i _ => by simp
    rw [← hshift, ← crcByte_own, hx]
  have h := crcByte_xor c (x.setWidth 16) x x
  rw [hown, BitVec.xor_self, BitVec.xor_zero] at h
  exact h.symm

/-- Distinct bytes take a register to distinct values. -/
theorem crcByte_data_injective (c : BitVec 16) : Function.Injective (crcByte c) := by
  intro x y h
  rw [crcByte_eq_xor_zero c x, crcByte_eq_xor_zero c y] at h
  have hxy : x.setWidth 16 = y.setWidth 16 := (BitVec.xor_right_inj c).mp (crcByte_injective 0#8 h)
  simpa using congrArg (BitVec.setWidth 8) hxy

/-! ### Byte sequences (rules R112 and R116) -/

theorem crcRun_cons (c : BitVec 16) (x : Byte) (D : List Byte) : crcRun c (x :: D) = crcRun (crcByte c x) D := rfl

theorem crcRun_append (c : BitVec 16) (D E : List Byte) : crcRun c (D ++ E) = crcRun (crcRun c D) E :=
  List.foldl_append

theorem crcRun_xor (h : D.length = E.length) :
    crcRun (c ^^^ d) (List.zipWith (· ^^^ ·) D E) = crcRun c D ^^^ crcRun d E := by
  induction D generalizing E c d with
  | nil =>
    obtain rfl := List.length_eq_zero_iff.mp h.symm
    rfl
  | cons x D ih =>
    obtain ⟨y, E, rfl⟩ := List.exists_cons_of_length_eq_add_one h.symm
    rw [List.zipWith_cons_cons, crcRun_cons, crcRun_cons, crcRun_cons, crcByte_xor, ih (Nat.succ_inj.mp h)]

theorem crcRun_injective (D : List Byte) : Function.Injective (crcRun · D) := by
  induction D with
  | nil => exact Function.injective_id
  | cons x D ih => exact ih.comp (crcByte_injective x)

/-- Two sequences that may differ in one byte only, and take a register to one value, do not differ. -/
theorem eq_of_crcRun_eq {P S : List Byte} (h : crcRun c (P ++ x :: S) = crcRun c (P ++ y :: S)) : x = y := by
  rw [crcRun_append, crcRun_append] at h
  exact crcByte_data_injective _ (crcRun_injective S h)

/-- A register fed its own two bytes is 0. -/
theorem crcRun_own (c : BitVec 16) : crcRun c (fcsBytes c) = 0#16 := by
  have hbytes : fcsBytes c = [c.setWidth 8, (c >>> 8).setWidth 8] := by
    have hbyte : ∀ a, c.extractLsb' a 8 = (c >>> a).setWidth 8 := fun a =>
      BitVec.eq_of_getLsbD_eq fun i hi => by simp
    rw [fcsBytes, hbyte, hbyte, BitVec.ushiftRight_zero]
  have hout : c >>> 8 >>> 8 = 0#16 := by
    rw [← BitVec.shiftRight_add]; exact BitVec.ushiftRight_eq_zero (by decide)
  rw [hbytes, crcRun_cons, crcRun_cons, crcByte_own, crcByte_own, hout]
  rfl

/-- Complementing an FCS complements its two bytes. -/
theorem fcsBytes_not (c : BitVec 16) :
    fcsBytes (~~~c) = List.zipWith (· ^^^ ·) (fcsBytes c) [BitVec.allOnes 8, BitVec.allOnes 8] := by
  have hbyte : ∀ a, a + 8 ≤ 16 → (~~~c).extractLsb' a 8 = c.extractLsb' a 8 ^^^ BitVec.allOnes 8 := fun a ha =>
    BitVec.eq_of_getLsbD_eq fun i hi => by
      rw [BitVec.xor_allOnes]
      simp [hi, show a + i < 16 by omega]
  rw [fcsBytes, hbyte 0 (by decide), hbyte 8 (by decide)]
  rfl

/-- The residue does not depend on the register: complementing the two bytes it is fed adds a constant. -/
theorem crcRun_not_own (c : BitVec 16) : crcRun c (fcsBytes (~~~c)) = 0xF0B8#16 := by
  calc crcRun c (fcsBytes (~~~c))
    _ = crcRun (c ^^^ 0#16) (List.zipWith (· ^^^ ·) (fcsBytes c) [BitVec.allOnes 8, BitVec.allOnes 8]) := by
      rw [BitVec.xor_zero, fcsBytes_not]
    _ = crcRun c (fcsBytes c) ^^^ crcRun 0#16 [BitVec.allOnes 8, BitVec.allOnes 8] := crcRun_xor rfl
    _ = 0#16 ^^^ 0xF0B8#16 := congrArg₂ _ (crcRun_own c) (by decide +kernel)
    _ = 0xF0B8#16 := BitVec.zero_xor

theorem toNat_fcs_add (D : List Byte) : (fcs D).toNat + (crcRun crcInit D).toNat = 0xFFFF := by
  have := (crcRun crcInit D).isLt
  rw [fcs, BitVec.toNat_not]
  omega

theorem eq_of_fcs_eq {P S : List Byte} (h : fcs (P ++ x :: S) = fcs (P ++ y :: S)) : x = y :=
  eq_of_crcRun_eq (BitVec.not_inj.mp h)

/-- Settles O18: each clause is a law of the CRC function above, and the two check values are evaluated. -/
theorem fcsFollowsItsRules : Obligations.FcsFollowsItsRules :=
  ⟨toNat_crcBit, crcByte_eq, toNat_fcs_add, by decide, by decide +kernel⟩

/-- Settles O19: the register is fed the complement of its own two bytes. -/
theorem fcsResidue : Obligations.FcsResidue := by
  intro D
  have hres : crcRun crcInit (D ++ fcsBytes (fcs D)) = 0xF0B8#16 := by
    rw [crcRun_append]; exact crcRun_not_own _
  exact ⟨hres, by rw [← fcsBytes, fcs, hres]; decide⟩

/-- Settles O20: every step is linear in the register and the input bit together. -/
theorem crcIsLinear : Obligations.CrcIsLinear := fun _ _ _ _ h => crcRun_xor h

end Sys2Proof.Machine
end

section
/-! SUPPORT. The CRC unit's commands (40_crc.md rules R113 to R116): what FCS_APPEND leaves to read, and what a comparison
of an FCS with the stored one tells about the bytes of FB. -/

namespace Sys2Proof.Machine

variable {s t : State}

/-! ### The comparison of CRC_CHECK (rule R114) -/

theorem fcsMatches_iff : s.fcsMatches = true ↔
    (fcs (s.fbBytes 1 (s.fcsOff.toNat - 1))).toNat =
      (s.fbByte s.fcsOff.toNat).toNat + 256 * (s.fbByte (s.fcsOff.toNat + 1)).toNat := by
  rw [State.fcsMatches, beq_iff_eq, ← BitVec.toNat_inj, toNat_storedFcs, State.frameFcs]

theorem exec_crcCheck (h : s.fcsv = true) :
    exec .crcCheck s = .next (s.finish (if s.fcsMatches then 1#32 else 0#32)) := by
  change execCrcCheck s = _
  rw [execCrcCheck, if_pos h]
  cases s.fcsMatches <;> rfl

/-! ### FCS_APPEND (rule R115) -/

@[simp] theorem appendFcs_fcsOff (s : State) : s.appendFcs.fcsOff = s.len := rfl
@[simp] theorem appendFcs_fcsv (s : State) : s.appendFcs.fcsv = true := rfl

theorem fbByte_appendFcs (s : State) (i : Nat) :
    s.appendFcs.fbByte i =
      if i = s.len.toNat then BitVec.ofNat 8 (s.frameFcs s.len.toNat).toNat
      else if i = s.len.toNat + 1 then BitVec.ofNat 8 ((s.frameFcs s.len.toNat).toNat / 256)
      else s.fbByte i := by
  have hfb : s.appendFcs.fbByte i = (s.setFb s.len.toNat (fcsBytes (s.frameFcs s.len.toNat))).fbByte i := rfl
  rw [hfb, fbByte_setFb, fcsBytes_eq]
  by_cases h0 : i = s.len.toNat
  · subst h0; simp
  by_cases h1 : i = s.len.toNat + 1
  · subst h1; simp
  rw [if_neg h0, if_neg h1, if_neg (by simp only [List.length_cons, List.length_nil]; omega)]

/-- FCS_APPEND leaves the bytes its FCS covers. -/
theorem frameFcs_appendFcs (s : State) : s.appendFcs.frameFcs s.len.toNat = s.frameFcs s.len.toNat := by
  have hkept : s.appendFcs.fbBytes 1 (s.len.toNat - 1) = s.fbBytes 1 (s.len.toNat - 1) :=
    fbBytes_congr fun i h1 h2 => by rw [fbByte_appendFcs, if_neg (by omega), if_neg (by omega)]
  rw [State.frameFcs, hkept, State.frameFcs]

theorem storedFcs_appendFcs (s : State) : s.appendFcs.storedFcs s.len.toNat = s.frameFcs s.len.toNat := by
  have := (s.frameFcs s.len.toNat).isLt
  refine BitVec.eq_of_toNat_eq ?_
  rw [toNat_storedFcs, fbByte_appendFcs, if_pos rfl, fbByte_appendFcs, if_neg (by omega), if_pos rfl,
    BitVec.toNat_ofNat, BitVec.toNat_ofNat]
  omega

theorem fcsMatches_appendFcs (s : State) : s.appendFcs.fcsMatches = true := by
  rw [State.fcsMatches, appendFcs_fcsOff, frameFcs_appendFcs, storedFcs_appendFcs, beq_self_eq_true]

/-- FCS_APPEND ends OK in one way only. -/
theorem eq_appendFcs_of_exec (h : exec .fcsAppend s = .next t) (hok : t.code = .ok) : t = s.appendFcs := by
  cases runs_of_exec h with
  | failed _ _ _ hc _ => exact absurd hok hc
  | fcsAppend _ _ _ _ => rfl

/-! ### A changed byte (rule R116 (b)) -/

theorem fbBytes_split (s : State) {a n i : Nat} (ha : a ≤ i) (hn : i < a + n) :
    s.fbBytes a n = s.fbBytes a (i - a) ++ s.fbByte i :: s.fbBytes (i + 1) (a + n - (i + 1)) := by
  have hone : s.fbBytes i 1 = [s.fbByte i] := rfl
  conv_lhs => rw [show n = (i - a) + (1 + (a + n - (i + 1))) by omega]
  rw [fbBytes_append, fbBytes_append, show a + (i - a) = i by omega, hone, List.singleton_append]

/-- The FCS of a frame tells every byte it covers, when the others are known. -/
theorem fbByte_eq_of_frameFcs_eq {e i : Nat} (h1 : 1 ≤ i) (hi : i < e) (hrest : ∀ j, j ≠ i → t.fbByte j = s.fbByte j)
    (h : t.frameFcs e = s.frameFcs e) : t.fbByte i = s.fbByte i := by
  rw [State.frameFcs, State.frameFcs, fbBytes_split t h1 (by omega), fbBytes_split s h1 (by omega),
    fbBytes_congr fun j _ hj => hrest j (by omega), fbBytes_congr fun j hj _ => hrest j (by omega)] at h
  exact eq_of_fcs_eq h

theorem fbByte_eq_of_storedFcs_eq {i : Nat} (h : t.storedFcs i = s.storedFcs i) :
    t.fbByte i = s.fbByte i ∧ t.fbByte (i + 1) = s.fbByte (i + 1) := by
  have h := congrArg BitVec.toNat h
  rw [toNat_storedFcs, toNat_storedFcs] at h
  exact ⟨BitVec.eq_of_toNat_eq (by omega), BitVec.eq_of_toNat_eq (by omega)⟩

/-- A frame whose FCS matches, with one byte changed: the FCS or the stored pair changes, and the other does not. -/
theorem fcsMatches_eq_false_of_one_byte {i : Nat} (hs : s.fcsMatches = true) (hoff : t.fcsOff = s.fcsOff) (h1 : 1 ≤ i)
    (hi : i ≤ s.fcsOff.toNat + 1) (hrest : ∀ j, j ≠ i → t.fbByte j = s.fbByte j) (hne : t.fbByte i ≠ s.fbByte i) :
    t.fcsMatches = false := by
  simp only [State.fcsMatches, beq_iff_eq] at hs
  rw [State.fcsMatches, hoff, beq_eq_false_iff_ne]
  intro ht
  by_cases hlt : i < s.fcsOff.toNat
  · have hstored : t.storedFcs s.fcsOff.toNat = s.storedFcs s.fcsOff.toNat := by
      rw [State.storedFcs, hrest _ (by omega), hrest _ (by omega), State.storedFcs]
    exact hne (fbByte_eq_of_frameFcs_eq h1 hlt hrest (by rw [ht, hstored, hs]))
  · have hfcs : t.frameFcs s.fcsOff.toNat = s.frameFcs s.fcsOff.toNat := by
      rw [State.frameFcs, fbBytes_congr fun j _ hj => hrest j (by omega), State.frameFcs]
    obtain ⟨hlow, hhigh⟩ := fbByte_eq_of_storedFcs_eq (ht.symm.trans (hfcs.trans hs))
    obtain rfl | rfl : i = s.fcsOff.toNat ∨ i = s.fcsOff.toNat + 1 := by omega
    · exact hne hlow
    · exact hne hhigh

/-- Complementing a bit of a byte changes the byte. -/
theorem xor_one_shiftLeft_ne (x : Byte) {k : Nat} (hk : k < 8) : x ^^^ (1#8 <<< k) ≠ x := by
  intro h
  have hbit := congrArg (BitVec.getLsbD · k) h
  simp [hk] at hbit

/-! ### The statements -/

/-- Settles O21: the range is checked on numbers, and a 16-bit result has zeros above. -/
theorem crcComputeEffect : Obligations.CrcComputeEffect := by
  intro s
  refine ⟨rfl, fun h => ?_, fun h => ?_⟩
  · rw [BitVec.ofNat_toNat]
    exact congrArg Host.Outcome.next (if_pos h)
  · exact congrArg Host.Outcome.next (if_neg (Nat.not_le_of_lt h))

/-- Settles O22: without FCSV the command fails, with it the comparison is one of numbers. -/
theorem crcCheckEffect : Obligations.CrcCheckEffect := by
  intro s
  refine ⟨rfl, fun h => ?_, fun h => ?_⟩
  · exact congrArg Host.Outcome.next (if_neg (by simp [h]))
  · rw [exec_crcCheck h]
    simp only [fcsMatches_iff]
    rfl

/-- Settles O23: the checks in their order, and the bytes after the write. -/
theorem fcsAppendEffect : Obligations.FcsAppendEffect := by
  intro s
  refine ⟨rfl, fun hf => congrArg Host.Outcome.next (if_pos hf), fun hd hs => ?_⟩
  have hf : ¬(s.fstate = .hasDest ∨ s.fstate = .hasSrc) := not_or.mpr ⟨hd, hs⟩
  have hexec : exec .fcsAppend s = execFcsAppend s := rfl
  rw [hexec, execFcsAppend, if_neg hf]
  refine ⟨fun h0 => ?_, fun h1 hm => ?_, fun h1 hm => ⟨s.appendFcs, ?_, ?_, fbByte_appendFcs s⟩⟩
  · rw [if_pos (by omega)]; rfl
  · rw [if_neg (by omega), if_pos hm]; rfl
  · rw [if_neg (by omega), if_neg (by omega)]
  · rw [BitVec.ofNat_toNat]; rfl

/-- Settles O24: FCS_APPEND records FCS_OFF and FCSV, and the pair it stores there is the FCS of the bytes before it. -/
theorem appendedFcsChecks : Obligations.AppendedFcsChecks := by
  intro s t h hok
  obtain rfl := eq_appendFcs_of_exec h hok
  rw [exec_crcCheck (appendFcs_fcsv s), fcsMatches_appendFcs]
  rfl

/-- Settles O25: an appended FCS matches, and a frame that matches does not with one byte changed. -/
theorem singleBitErrorIsDetected : Obligations.SingleBitErrorIsDetected := by
  intro s t u i k h hok h1 hi hk hu hfb
  obtain rfl := eq_appendFcs_of_exec h hok
  have hoff : u.fcsOff = s.appendFcs.fcsOff := by rw [hu]
  have hv : u.fcsv = true := by rw [hu]; rfl
  have hrest : ∀ j, j ≠ i → u.fbByte j = s.appendFcs.fbByte j := fun j hj => by rw [hfb, if_neg hj]
  have hne : u.fbByte i ≠ s.appendFcs.fbByte i := by rw [hfb, if_pos rfl]; exact xor_one_shiftLeft_ne _ hk
  have hmis := fcsMatches_eq_false_of_one_byte (fcsMatches_appendFcs s) hoff h1 hi hrest hne
  rw [exec_crcCheck hv, hmis]
  rfl

end Sys2Proof.Machine
end

section
/-! SUPPORT. The bit-sequence functions of 41_bitcodec.md: the stuffer from any count of 1 bits (rules R130 to R132) and the
NRZI coder from any state (rules R133 to R135). -/

namespace Sys2Proof.Machine

/-! ### The stuffer, from any count of 1 bits (rules R130 and R131)

In the inductions `case3` is the bit that completes five 1 bits and `case4` any other 1 bit. -/

@[simp] theorem stuffFrom_nil (ones : Nat) : stuffFrom ones [] = [] := by rw [stuffFrom]

@[simp] theorem stuffFrom_false (ones : Nat) (S : Bits) : stuffFrom ones (false :: S) = false :: stuffFrom 0 S := by
  rw [stuffFrom]

theorem stuffFrom_fifth {ones : Nat} (h : ones + 1 = 5) (S : Bits) :
    stuffFrom ones (true :: S) = true :: false :: stuffFrom 0 S := by rw [stuffFrom, if_pos h]

theorem stuffFrom_true {ones : Nat} (h : ¬ones + 1 = 5) (S : Bits) :
    stuffFrom ones (true :: S) = true :: stuffFrom (ones + 1) S := by rw [stuffFrom, if_neg h]

theorem unstuffFrom_stuffFrom (ones : Nat) (S : Bits) : unstuffFrom ones false (stuffFrom ones S) = S := by
  induction ones, S using stuffFrom.induct with
  | case1 ones => rfl
  | case2 ones S ih => rw [stuffFrom_false, unstuffFrom, ih]
  | case3 ones S h ih => rw [stuffFrom_fifth h, unstuffFrom, decide_eq_true h, unstuffFrom, ih]
  | case4 ones S h ih => rw [stuffFrom_true h, unstuffFrom, decide_eq_false h, ih]

/-- The stuffer only inserts. -/
theorem sublist_stuffFrom (ones : Nat) (S : Bits) : S.Sublist (stuffFrom ones S) := by
  induction ones, S using stuffFrom.induct with
  | case1 ones => exact List.Sublist.slnil
  | case2 ones S ih => rw [stuffFrom_false]; exact ih.cons_cons _
  | case3 ones S h ih => rw [stuffFrom_fifth h]; exact (ih.cons _).cons_cons _
  | case4 ones S h ih => rw [stuffFrom_true h]; exact ih.cons_cons _

theorem count_true_stuffFrom (ones : Nat) (S : Bits) : (stuffFrom ones S).count true = S.count true := by
  induction ones, S using stuffFrom.induct with
  | case1 ones => rfl
  | case2 ones S ih => simp [ih]
  | case3 ones S h ih => simp [stuffFrom_fifth h, ih]
  | case4 ones S h ih => simp [stuffFrom_true h, ih]

/-- Each inserted bit has five bits of the input, or of those counted before, to itself. -/
theorem five_mul_length_stuffFrom_le (ones : Nat) (S : Bits) :
    5 * (stuffFrom ones S).length ≤ 6 * S.length + ones := by
  induction ones, S using stuffFrom.induct with
  | case1 ones => simp
  | case2 ones S ih => simp only [stuffFrom_false, List.length_cons]; omega
  | case3 ones S h ih => simp only [stuffFrom_fifth h, List.length_cons]; omega
  | case4 ones S h ih => simp only [stuffFrom_true h, List.length_cons]; omega

/-- Moving a 1 bit from the stream to the run counted before it. -/
theorem replicate_append_true_cons (ones : Nat) (S : Bits) :
    List.replicate ones true ++ true :: S = List.replicate (ones + 1) true ++ S := by
  rw [List.replicate_succ', List.append_assoc, List.singleton_append]

theorem not_replicate_prefix {ones n : Nat} (h : ones < n) (S : Bits) :
    ¬List.replicate n true <+: List.replicate ones true ++ false :: S := by
  rw [show n = ones + ((n - ones - 1) + 1) by omega, List.replicate_add, List.prefix_append_right_inj,
    List.replicate_succ, List.cons_prefix_cons]
  exact fun hp => Bool.noConfusion hp.1

/-- A 0 bit after fewer than n 1 bits ends them: a run of n lies behind it. -/
theorem infix_of_infix_replicate_append {ones n : Nat} {S : Bits} (h : ones < n)
    (hr : List.replicate n true <:+: List.replicate ones true ++ false :: S) : List.replicate n true <:+: S := by
  induction ones with
  | zero => exact (List.infix_cons_iff.mp hr).resolve_left (not_replicate_prefix h S)
  | succ ones ih => exact ih (by omega) ((List.infix_cons_iff.mp hr).resolve_left (not_replicate_prefix h S))

/-- No six 1 bits in a row, those counted before included (rule R132 (b)). -/
theorem not_six_ones_infix_stuffFrom {ones : Nat} (h5 : ones < 5) (S : Bits) :
    ¬List.replicate 6 true <:+: List.replicate ones true ++ stuffFrom ones S := by
  induction ones, S using stuffFrom.induct with
  | case1 ones =>
    intro hr
    have hlen := hr.length_le
    simp only [stuffFrom_nil, List.append_nil, List.length_replicate] at hlen
    omega
  | case2 ones S ih =>
    rw [stuffFrom_false]
    exact fun hr => ih (by decide) (infix_of_infix_replicate_append (by omega) hr)
  | case3 ones S h ih =>
    rw [stuffFrom_fifth h, replicate_append_true_cons]
    exact fun hr => ih (by decide) (infix_of_infix_replicate_append (by omega) hr)
  | case4 ones S h ih =>
    rw [stuffFrom_true h, replicate_append_true_cons]
    exact ih (by omega)

/-- Without five 1 bits in a row, those counted before included, nothing is inserted (rule R132 (e)). -/
theorem stuffFrom_eq_self {ones : Nat} {S : Bits}
    (hr : ¬List.replicate 5 true <:+: List.replicate ones true ++ S) : stuffFrom ones S = S := by
  induction ones, S using stuffFrom.induct with
  | case1 ones => rfl
  | case2 ones S ih =>
    rw [stuffFrom_false, ih fun h => hr (h.trans ((List.suffix_cons false S).isInfix.trans
      (List.suffix_append _ _).isInfix))]
  | case3 ones S h ih =>
    rw [replicate_append_true_cons, h] at hr
    exact absurd (List.prefix_append _ S).isInfix hr
  | case4 ones S h ih =>
    rw [replicate_append_true_cons] at hr
    rw [stuffFrom_true h, ih hr]

/-- A 0 bit puts the count back to 0, so the rest is stuffed on its own (rule R132 (f)). -/
theorem stuffFrom_append_false_cons (ones : Nat) (S T : Bits) :
    stuffFrom ones (S ++ false :: T) = stuffFrom ones S ++ false :: stuffFrom 0 T := by
  induction ones, S using stuffFrom.induct with
  | case1 ones => simp
  | case2 ones S ih => simp [ih]
  | case3 ones S h ih => simp [stuffFrom_fifth h, ih]
  | case4 ones S h ih => simp [stuffFrom_true h, ih]

theorem stuff_append {S : Bits} (h : S = [] ∨ S.getLast? = some false) (T : Bits) :
    stuff (S ++ T) = stuff S ++ stuff T := by
  obtain rfl | h := h
  · rfl
  · obtain ⟨R, rfl⟩ := List.getLast?_eq_some_iff.mp h
    simp only [stuff, List.append_assoc, List.singleton_append, stuffFrom_append_false_cons, stuffFrom_nil]

/-- The inserted bits are all the growth, and at most a fifth of the input (rule R132 (c)). -/
theorem length_stuff (S : Bits) :
    (stuff S).length = S.length + ((stuff S).count false - S.count false) ∧
      (stuff S).count false - S.count false ≤ S.length / 5 := by
  have hle : S.count false ≤ (stuff S).count false := (sublist_stuffFrom 0 S).count_le false
  have htrue : (stuff S).count true = S.count true := count_true_stuffFrom 0 S
  have hfive : 5 * (stuff S).length ≤ 6 * S.length + 0 := five_mul_length_stuffFrom_le 0 S
  have hS := S.count_true_add_count_false
  have hT := (stuff S).count_true_add_count_false
  omega

/-- Settles O26: each law is the law of `stuffFrom` with no 1 bits counted; five 1 bits cut after the fourth refute the
unrestricted law (f). -/
theorem stufferLaws : Obligations.StufferLaws := by
  refine ⟨unstuffFrom_stuffFrom 0, not_six_ones_infix_stuffFrom (ones := 0) (by decide),
    fun S => ⟨count_true_stuffFrom 0 S, length_stuff S⟩, ⟨rfl, rfl⟩, fun S => stuffFrom_eq_self (ones := 0),
    fun S T h => stuff_append h T, ?_⟩
  exact ⟨[true, true, true, true], [true], by decide⟩

/-! ### The NRZI coder, from any state (rules R133 and R134) -/

theorem nrziEncode_cons (b : Bool) (S : Bits) (st : Bool) :
    nrziEncode (b :: S) st =
      ((st == b) :: (nrziEncode S (st == b)).1, (nrziEncode S (st == b)).2) := by
  cases b <;> cases st <;> rfl

theorem nrziDecode_cons (b : Bool) (S : Bits) (prev : Bool) :
    nrziDecode (b :: S) prev = ((b == prev) :: (nrziDecode S b).1, (nrziDecode S b).2) := rfl

/-- The decoder gives back the bits and ends in the encoder's state (rule R135 (a) and (b)). -/
theorem nrziDecode_nrziEncode (S : Bits) (st : Bool) : nrziDecode (nrziEncode S st).1 st = (S, (nrziEncode S st).2) := by
  induction S generalizing st with
  | nil => rfl
  | cons b S ih =>
    have hbit : ((st == b) == st) = b := by cases b <;> cases st <;> rfl
    rw [nrziEncode_cons, nrziDecode_cons, ih, hbit]

theorem nrziEncode_append (S T : Bits) (st : Bool) :
    nrziEncode (S ++ T) st =
      ((nrziEncode S st).1 ++ (nrziEncode T (nrziEncode S st).2).1, (nrziEncode T (nrziEncode S st).2).2) := by
  induction S generalizing st with
  | nil => rfl
  | cons b S ih => rw [List.cons_append, nrziEncode_cons, ih, nrziEncode_cons, List.cons_append]

theorem nrziDecode_append (S T : Bits) (prev : Bool) :
    nrziDecode (S ++ T) prev =
      ((nrziDecode S prev).1 ++ (nrziDecode T (nrziDecode S prev).2).1, (nrziDecode T (nrziDecode S prev).2).2) := by
  induction S generalizing prev with
  | nil => rfl
  | cons b S ih => rw [List.cons_append, nrziDecode_cons, ih, nrziDecode_cons, List.cons_append]

/-- Encoding from the other state complements the output (rule R135 (d)). -/
theorem nrziEncode_not (S : Bits) (st : Bool) : (nrziEncode S (!st)).1 = (nrziEncode S st).1.map (!·) := by
  induction S generalizing st with
  | nil => rfl
  | cons b S ih =>
    have hbit : ((!st) == b) = !(st == b) := by cases b <;> cases st <;> rfl
    rw [nrziEncode_cons, nrziEncode_cons, hbit, ih, List.map_cons]

/-- Decoding the complement from the other level gives the same bits and the other final level (rule R135 (d)). -/
theorem nrziDecode_map_not (S : Bits) (prev : Bool) :
    nrziDecode (S.map (!·)) (!prev) = ((nrziDecode S prev).1, !(nrziDecode S prev).2) := by
  induction S generalizing prev with
  | nil => rfl
  | cons b S ih =>
    have hbit : ((!b) == (!prev)) = (b == prev) := by cases b <;> cases prev <;> rfl
    rw [List.map_cons, nrziDecode_cons, ih, hbit, nrziDecode_cons]

end Sys2Proof.Machine
end

section
/-! SUPPORT. The bit-level commands (41_bitcodec.md rules R136 to R140): what a rewritten stream and a region coded in place
leave to read, and the effects of STUFF, UNSTUFF, NRZI_ENC and NRZI_DEC. -/

namespace Sys2Proof.Machine

/-! ### The region (rule R136) -/

theorem regionFits_iff (s : State) : s.regionFits = true ↔ s.arg0.toNat + s.arg1.toNat ≤ s.bitlen.toNat :=
  decide_eq_true_iff

theorem not_regionFits_iff (s : State) : ¬s.regionFits = true ↔ s.bitlen.toNat < s.arg0.toNat + s.arg1.toNat :=
  (regionFits_iff s).not.trans not_le

/-! ### The stream with the region replaced (rules R137 and R138) -/

theorem replaceRegion_eq (s : State) (T : Bits) :
    s.replaceRegion T = { s with
      fb := (s.replaceRegion T).fb
      bitlen := BitVec.ofNat 20 (s.spliced T).length, len := BitVec.ofNat 16 (((s.spliced T).length + 7) / 8)
      fstate := .raw, readable := false, offv := false, fcsv := false
      code := .ok, res := BitVec.ofNat 32 T.length } := rfl

theorem bits_replaceRegion (s : State) (T : Bits) :
    (s.replaceRegion T).bits 0 (s.spliced T).length = s.spliced T := bits_writeStream s (s.spliced T)

theorem bit_replaceRegion (s : State) (T : Bits) (j : Nat) :
    (s.replaceRegion T).bit j =
      if j < 8 * (((s.spliced T).length + 7) / 8) then (s.spliced T).getD j false else s.bit j :=
  bit_writeStream s (s.spliced T) j

/-- The pad bits of the last byte are 0 (20_memory.md rule R62). -/
theorem bit_replaceRegion_pad (s : State) (T : Bits) {j : Nat} (h : (s.spliced T).length ≤ j)
    (h' : j < 8 * (((s.spliced T).length + 7) / 8)) : (s.replaceRegion T).bit j = false := by
  rw [bit_replaceRegion, if_pos h', List.getD_eq_default _ _ h]

theorem fbByte_replaceRegion_after (s : State) (T : Bits) {i : Nat} (h : ((s.spliced T).length + 7) / 8 ≤ i) :
    (s.replaceRegion T).fbByte i = s.fbByte i :=
  fbByte_eq_of_bits fun k _ => by rw [bit_replaceRegion, if_neg (by omega)]

/-- Settles O28: both checks are on numbers, and the stream rewritten is the spliced one. -/
theorem stuffEffect : Obligations.StuffEffect := by
  rintro s _ _ _ _ rfl rfl rfl rfl
  refine ⟨rfl, fun h => congrArg Host.Outcome.next (if_neg ((not_regionFits_iff s).mpr h)), fun h => ?_⟩
  have hexec : exec .stuff s = .next (if 8 * s.cfg.frameMax < (s.spliced (stuff s.region)).length
      then s.raise .overflow 0#32 else s.replaceRegion (stuff s.region)) :=
    congrArg Host.Outcome.next (if_pos ((regionFits_iff s).mpr h))
  rw [hexec]
  refine ⟨fun hm => congrArg Host.Outcome.next (if_pos hm), fun hm => ?_⟩
  exact ⟨s.replaceRegion (stuff s.region), congrArg Host.Outcome.next (if_neg (Nat.not_lt_of_le hm)),
    replaceRegion_eq s _, bits_replaceRegion s _, fun _ => bit_replaceRegion_pad s _,
    fun _ => fbByte_replaceRegion_after s _⟩

/-- Settles O29: the unstuffed region is no longer than the region, so the new stream is no longer than the old one. -/
theorem unstuffEffect : Obligations.UnstuffEffect := by
  rintro s _ _ _ _ rfl rfl rfl rfl
  refine ⟨rfl, fun h => congrArg Host.Outcome.next (if_neg ((not_regionFits_iff s).mpr h)), fun h => ?_⟩
  have hr : s.regionFits = true := (regionFits_iff s).mpr h
  have hshort : (s.spliced (unstuff s.region)).length ≤ s.bitlen.toNat := by
    have hspliced := length_spliced s (unstuff s.region) hr
    have hT : (unstuff s.region).length ≤ s.argCount := by simpa [State.region] using length_unstuff_le s.region
    omega
  exact ⟨s.replaceRegion (unstuff s.region), congrArg Host.Outcome.next (if_pos hr), replaceRegion_eq s _, hshort,
    bits_replaceRegion s _, fun _ => bit_replaceRegion_pad s _, fun _ => fbByte_replaceRegion_after s _⟩

/-! ### The region coded in place (rules R139 and R140) -/

theorem codeRegion_eq (s : State) (r : Bits × Bool) :
    s.codeRegion r = { s with
      fb := (s.codeRegion r).fb, nrzst := r.2
      fstate := .raw, readable := false, offv := false, fcsv := false
      code := .ok, res := if r.2 then 1#32 else 0#32 } := by
  have hres : (BitVec.ofBool r.2).setWidth 32 = if r.2 then 1#32 else 0#32 := by cases r.2 <;> rfl
  rw [State.codeRegion, setBits_eq, hres]
  rfl

theorem codeRegion_bitlen (s : State) (r : Bits × Bool) : (s.codeRegion r).bitlen = s.bitlen := by
  rw [codeRegion_eq]

theorem bit_codeRegion (s : State) (r : Bits × Bool) (j : Nat) :
    (s.codeRegion r).bit j =
      if s.arg0.toNat ≤ j ∧ j < s.arg0.toNat + r.1.length then r.1.getD (j - s.arg0.toNat) false else s.bit j :=
  bit_setBits r.1 s s.argStart j

/-- Settles O27: the laws of the functions above; neither ending of the two commands writes BITLEN. -/
theorem nrziLaws : Obligations.NrziLaws := by
  refine ⟨fun S st => ?_, fun S st => ?_, fun S T st => ⟨nrziEncode_append S T st, nrziDecode_append S T st⟩,
    fun S st => ⟨nrziEncode_not S st, ?_, ?_⟩, fun S st => ⟨length_nrziEncode S st, length_nrziDecode S st⟩, ?_⟩
  · rw [nrziDecode_nrziEncode]
  · rw [nrziDecode_nrziEncode]
  · rw [nrziDecode_map_not]
  · rw [nrziDecode_map_not]
  · rintro start s t (h | h)
    · cases runs_of_exec h with
      | failed _ _ _ _ _ => rfl
      | nrziEnc _ _ => exact codeRegion_bitlen s _
    · cases runs_of_exec h with
      | failed _ _ _ _ _ => rfl
      | nrziDec _ _ => exact codeRegion_bitlen s _

/-- Settles O30: the two commands code the region in place with outputs of its length. -/
theorem nrziEffects : Obligations.NrziEffects := by
  rintro s start _ _ i r rfl rfl hi
  have hexec : exec i s = .next (if s.regionFits then s.codeRegion r else s.raise .badArg 0#32) := by
    obtain ⟨rfl, rfl⟩ | ⟨rfl, rfl⟩ := hi
    · rfl
    · rfl
  have hlen : r.1.length = s.arg1.toNat := by
    obtain ⟨-, rfl⟩ | ⟨-, rfl⟩ := hi
    · rw [length_nrziEncode, length_bits]
    · rw [length_nrziDecode, length_bits]
  refine ⟨?_, ?_, fun h => ?_, fun h => ⟨s.codeRegion r, ?_, codeRegion_eq s r, fun j => ?_⟩⟩
  · rintro rfl; cases start <;> rfl
  · rintro rfl; cases start <;> rfl
  · rw [hexec, if_neg ((not_regionFits_iff s).mpr h)]; rfl
  · rw [hexec, if_pos ((regionFits_iff s).mpr h)]
  · rw [bit_codeRegion, hlen]

end Sys2Proof.Machine
end

section
/-! SUPPORT. The operands of the frame builder (42_frame_builder.md): the bytes of an address field (rules R161 and R162),
the entries of a path list (rule R166) and the list as it lies in AB (rule R167). -/

namespace Sys2Proof.Machine

variable {s : State}

/-! ### Address fields (rules R161 and R162) -/

theorem getD_addrField_call (C : List Byte) (ssid : BitVec 4) (ext : Bool) {i : Nat} (h : i < 6) :
    (addrField C ssid ext).getD i 0#8 = callByte C i := by
  rw [addrField, List.getD_append _ _ _ _ (by simpa using h), List.getD_eq_getElem _ _ (by simpa using h)]
  simp

theorem getD_addrField_ssid (C : List Byte) (ssid : BitVec 4) (ext : Bool) :
    (addrField C ssid ext).getD 6 0#8 = ssidByte ssid ext := rfl

theorem toNat_ssidByte (ssid : BitVec 4) (ext : Bool) :
    (ssidByte ssid ext).toNat = 0x60 + 2 * ssid.toNat + ext.toNat := by
  revert ssid ext
  decide

/-- Settles O31: six callsign bytes, each shifted or the shifted space, and the SSID byte. -/
theorem addressFieldBytes : Obligations.AddressFieldBytes := by
  intro C ssid ext hC
  refine ⟨length_addrField C ssid ext, fun i hi => ?_, fun i hi h6 => ?_, ?_⟩
  · rw [getD_addrField_call _ _ _ (by omega), callByte, if_pos hi, BitVec.toNat_shiftLeft, Nat.shiftLeft_eq, Nat.mul_comm]
  · rw [getD_addrField_call _ _ _ h6, callByte, if_neg (by omega)]
    rfl
  · rw [getD_addrField_ssid, toNat_ssidByte]

/-! ### Path entries (rule R166) -/

theorem isDigit_iff {d : Byte} : isDigit d = true ↔ 0x30 ≤ d.toNat ∧ d.toNat ≤ 0x39 := by
  simp [isDigit]

/-- An SSID text gives the number it writes; the 4 bits of the result are the bound 15. -/
theorem parseSsid_eq_some_iff {t : List Byte} {ssid : BitVec 4} : parseSsid t = some ssid ↔
    (t.length = 1 ∨ t.length = 2) ∧ (∀ d ∈ t, 0x30 ≤ d.toNat ∧ d.toNat ≤ 0x39) ∧ decimalValue t = ssid.toNat := by
  have hssid := ssid.isLt
  simp only [parseSsid, Option.ite_none_right_eq_some, Option.some.injEq, List.all_eq_true, isDigit_iff,
    ← BitVec.toNat_inj, BitVec.toNat_ofNat]
  constructor
  · rintro ⟨⟨hlen, hdigits, hval⟩, heq⟩
    exact ⟨hlen, hdigits, by omega⟩
  · rintro ⟨hlen, hdigits, heq⟩
    exact ⟨⟨hlen, hdigits, by omega⟩, by omega⟩

theorem checkCall_eq_some_iff {c call : List Byte} {v ssid : BitVec 4} :
    checkCall c v = some (call, ssid) ↔ (c = call ∧ v = ssid) ∧ 1 ≤ call.length ∧ call.length ≤ 6 := by
  simp only [checkCall, callsignSize, Option.ite_none_right_eq_some, Option.some.injEq, Prod.mk.injEq]
  constructor
  · rintro ⟨hlen, rfl, rfl⟩; exact ⟨⟨rfl, rfl⟩, hlen⟩
  · rintro ⟨⟨rfl, rfl⟩, hlen⟩; exact ⟨hlen, rfl, rfl⟩

theorem pathParse_of_not_mem {e : List Byte} (h : hyphen ∉ e) : pathParse e = checkCall e 0#4 := if_neg h

/-- An entry with a hyphen is split at the first one. -/
theorem pathParse_append_hyphen {c : List Byte} (t : List Byte) (h : hyphen ∉ c) :
    pathParse (c ++ hyphen :: t) = (parseSsid t).bind (checkCall c) := by
  have hne : ∀ b ∈ c, (b != hyphen) = true := fun b hb => bne_iff_ne.mpr fun he => h (he ▸ hb)
  rw [pathParse, if_pos (by simp), List.takeWhile_append_of_pos hne, List.dropWhile_append_of_pos hne]
  simp

theorem pathParse_append_hyphen_eq_some_iff {c t call : List Byte} {ssid : BitVec 4} (h : hyphen ∉ c) :
    pathParse (c ++ hyphen :: t) = some (call, ssid) ↔
      parseSsid t = some ssid ∧ c = call ∧ 1 ≤ call.length ∧ call.length ≤ 6 := by
  rw [pathParse_append_hyphen t h, Option.bind_eq_some_iff]
  simp only [checkCall_eq_some_iff]
  constructor
  · rintro ⟨v, hv, ⟨hc, rfl⟩, hlen⟩; exact ⟨hv, hc, hlen⟩
  · rintro ⟨hv, hc, hlen⟩; exact ⟨ssid, hv, ⟨hc, rfl⟩, hlen⟩

/-- Settles O32: an entry without a hyphen is its callsign, and one with a hyphen is cut at the first. -/
theorem pathEntrySyntax : Obligations.PathEntrySyntax := by
  intro e call ssid
  constructor
  · intro h
    by_cases hmem : hyphen ∈ e
    · obtain ⟨c, t, rfl, hc⟩ := List.eq_append_cons_of_mem hmem
      obtain ⟨ht, rfl, hlo, hhi⟩ := (pathParse_append_hyphen_eq_some_iff hc).mp h
      exact ⟨hlo, hhi, hc, .inr ⟨t, rfl, parseSsid_eq_some_iff.mp ht⟩⟩
    · rw [pathParse_of_not_mem hmem] at h
      obtain ⟨⟨rfl, rfl⟩, hlo, hhi⟩ := checkCall_eq_some_iff.mp h
      exact ⟨hlo, hhi, hmem, .inl ⟨rfl, rfl⟩⟩
  · rintro ⟨hlo, hhi, hc, ⟨rfl, rfl⟩ | ⟨t, rfl, ht⟩⟩
    · rw [pathParse_of_not_mem hc]
      exact checkCall_eq_some_iff.mpr ⟨⟨rfl, rfl⟩, hlo, hhi⟩
    · exact (pathParse_append_hyphen_eq_some_iff hc).mpr ⟨parseSsid_eq_some_iff.mpr ht, rfl, hlo, hhi⟩

/-! ### Path lists (rule R167) -/

theorem abBytes_append (s : State) (a m n : Nat) : s.abBytes a (m + n) = s.abBytes a m ++ s.abBytes (a + m) n := by
  simp [State.abBytes, List.range_add, Nat.add_assoc]

theorem pathBytes_cons (e : List Byte) (es : List (List Byte)) :
    pathBytes (e :: es) = [BitVec.ofNat 8 e.length] ++ (e ++ pathBytes es) := rfl

/-- AB holds from p on, inside AB, k entries that parse to Q. -/
def State.HoldsPaths (s : State) (k p : Nat) (Q : List (List Byte × BitVec 4)) : Prop :=
  ∃ es : List (List Byte), es.length = k ∧ (∀ e ∈ es, 1 ≤ e.length ∧ e.length ≤ 9) ∧
    p + (pathBytes es).length ≤ s.cfg.argMax ∧ s.abBytes p (pathBytes es).length = pathBytes es ∧
    es.map pathParse = Q.map some

theorem holdsPaths_zero {p : Nat} {Q : List (List Byte × BitVec 4)} (hp : p ≤ s.cfg.argMax) :
    s.HoldsPaths 0 p Q ↔ Q = [] := by
  constructor
  · rintro ⟨es, hk, -, -, -, hQ⟩
    obtain rfl := List.length_eq_zero_iff.mp hk
    simpa using hQ.symm
  · rintro rfl
    exact ⟨[], rfl, nofun, hp, rfl, rfl⟩

/-- The bytes of a list at p are its first entry's length byte, that entry, and the rest of the list behind it. -/
theorem abBytes_eq_pathBytes_cons_iff {p : Nat} {e : List Byte} {es : List (List Byte)} :
    s.abBytes p (pathBytes (e :: es)).length = pathBytes (e :: es) ↔
      s.abByte p = BitVec.ofNat 8 e.length ∧ s.abBytes (p + 1) e.length = e ∧
        s.abBytes (p + 1 + e.length) (pathBytes es).length = pathBytes es := by
  have hone : s.abBytes p 1 = [s.abByte p] := rfl
  rw [pathBytes_cons, List.length_append, abBytes_append, List.length_append, abBytes_append, List.length_singleton,
    hone]
  constructor
  · intro h
    obtain ⟨hfirst, h⟩ := List.append_inj h (by simp)
    obtain ⟨hentry, hrest⟩ := List.append_inj h (length_abBytes s _ _)
    exact ⟨List.singleton_inj.mp hfirst, hentry, hrest⟩
  · rintro ⟨hfirst, hentry, hrest⟩
    rw [hfirst, hentry, hrest]

theorem holdsPaths_succ {k p : Nat} {Q : List (List Byte × BitVec 4)} : s.HoldsPaths (k + 1) p Q ↔
    (p + 1 ≤ s.cfg.argMax ∧ 1 ≤ (s.abByte p).toNat ∧ (s.abByte p).toNat ≤ 9 ∧
      p + 1 + (s.abByte p).toNat ≤ s.cfg.argMax) ∧
    ∃ e, pathParse (s.abBytes (p + 1) (s.abByte p).toNat) = some e ∧
      ∃ Q', s.HoldsPaths k (p + 1 + (s.abByte p).toNat) Q' ∧ e :: Q' = Q := by
  constructor
  · rintro ⟨_ | ⟨e, es⟩, hk, hlen, hfit, hbytes, hQ⟩
    · cases hk
    · obtain ⟨hfirst, hentry, hrest⟩ := abBytes_eq_pathBytes_cons_iff.mp hbytes
      obtain ⟨⟨h1, h9⟩, hlen⟩ := List.forall_mem_cons.mp hlen
      have hn : (s.abByte p).toNat = e.length := by rw [hfirst, BitVec.toNat_ofNat]; omega
      obtain _ | ⟨q, Q⟩ := Q
      · cases hQ
      · obtain ⟨hq, hQ⟩ := List.cons.inj hQ
        simp only [pathBytes_cons, List.length_append, List.length_singleton] at hfit
        rw [hn, hentry]
        exact ⟨⟨by omega, h1, h9, by omega⟩, q, hq, Q, ⟨es, Nat.succ.inj hk, hlen, by omega, hrest, hQ⟩, rfl⟩
  · rintro ⟨⟨-, h1, h9, -⟩, q, hq, Q, ⟨es, rfl, hlen, hfit, hrest, hQ⟩, rfl⟩
    have hn := length_abBytes s (p + 1) (s.abByte p).toNat
    refine ⟨s.abBytes (p + 1) (s.abByte p).toNat :: es, rfl,
      List.forall_mem_cons.mpr ⟨by rw [hn]; exact ⟨h1, h9⟩, hlen⟩, ?_, ?_, ?_⟩
    · simp only [pathBytes_cons, List.length_append, List.length_singleton, hn]
      omega
    · exact abBytes_eq_pathBytes_cons_iff.mpr ⟨by simp [hn], by rw [hn], by rw [hn]; exact hrest⟩
    · rw [List.map_cons, List.map_cons, hq, hQ]

theorem pathListAt_eq_some_iff {k p : Nat} {Q : List (List Byte × BitVec 4)} (hp : p ≤ s.cfg.argMax) :
    s.pathListAt k p = some Q ↔ s.HoldsPaths k p Q := by
  induction k generalizing p Q with
  | zero => rw [holdsPaths_zero hp, State.pathListAt, Option.some.injEq, eq_comm]
  | succ k ih =>
    rw [holdsPaths_succ, State.pathListAt, Option.ite_none_right_eq_some, Option.bind_eq_some_iff]
    refine and_congr_right fun ⟨_, _, _, hfit⟩ => exists_congr fun e => and_congr_right fun _ => ?_
    rw [Option.map_eq_some_iff]
    exact exists_congr fun Q' => and_congr_left' (ih hfit)

/-- Settles O33: both sides put p inside AB, where the list is read entry by entry. -/
theorem pathListLayout : Obligations.PathListLayout := by
  intro s k p Q hk
  change s.pathListAt k p = some Q ↔ s.HoldsPaths k p Q
  by_cases hp : p ≤ s.cfg.argMax
  · exact pathListAt_eq_some_iff hp
  · obtain ⟨k, rfl⟩ := Nat.exists_eq_succ_of_ne_zero (Nat.ne_of_gt hk)
    rw [holdsPaths_succ, State.pathListAt, if_neg (by omega)]
    exact iff_of_false nofun fun h => by omega

end Sys2Proof.Machine
end

section
/-! SUPPORT. The commands of the frame builder (42_frame_builder.md rules R163 to R172): the fields and the bytes each
leaves, its checks in order, the table of frame states, and a readable frame closed. -/

namespace Sys2Proof.Machine

variable {s t : State}

theorem inAb_iff (s : State) (a n : Nat) : s.inAb a n = true ↔ a + n ≤ s.cfg.argMax := decide_eq_true_iff

theorem not_inAb_iff (s : State) (a n : Nat) : ¬s.inAb a n = true ↔ s.cfg.argMax < a + n :=
  (inAb_iff s a n).not.trans not_le

/-! ### FB_CLEAR and INS_DEST (rules R163 and R164) -/

/-- Settles O34: FB_CLEAR is `clearFrame`, which zeroes every byte. -/
theorem fbClearEffect : Obligations.FbClearEffect :=
  fun s => ⟨rfl, s.clearFrame.finish 0#32, rfl, rfl, fun _ => fbByte_clearFrame s⟩

theorem insertDest_eq (s : State) (C : List Byte) (ssid : BitVec 4) :
    s.insertDest C ssid = { s with
      fb := (s.insertDest C ssid).fb
      len := 8#16, bitlen := 64#20, ctrlOff := 0#16, infoOff := 0#16, fcsOff := 0#16, npaths := 0#4
      fstate := .hasDest, readable := false, offv := false, fcsv := false
      code := .ok, res := 0#32 } := by
  simp only [State.insertDest, State.finish, State.enter, State.setLen, State.setFb, State.clearFrame]
  rfl

theorem fbByte_insertDest (s : State) (C : List Byte) (ssid : BitVec 4) {i : Nat} (h : i < s.cfg.frameMax) :
    (s.insertDest C ssid).fbByte i =
      if i = 0 then 0x7E#8 else if i < 8 then (addrField C ssid false).getD (i - 1) 0#8 else 0x00#8 := by
  have hfb : (s.insertDest C ssid).fbByte i = (s.clearFrame.setFb 0 (flagByte :: addrField C ssid false)).fbByte i := by
    simp only [State.insertDest, fbByte_finish, fbByte_enter, fbByte_setLen]
  rw [hfb, fbByte_setFb, fbByte_clearFrame s h, List.length_cons, length_addrField]
  cases i with
  | zero => rfl
  | succ j => simp

/-- Settles O35: one check, and the frame written on a cleared one. -/
theorem insDestEffect : Obligations.InsDestEffect := by
  intro s a n ssid
  refine ⟨Laws.wordF3_eq_append 0x31#8 a n ssid, fun h => ?_, fun h => ?_⟩
  · exact congrArg Host.Outcome.next (if_neg ((not_inAb_iff s _ _).mpr h))
  · exact ⟨s.insertDest (s.abBytes a.toNat n.toNat) ssid, congrArg Host.Outcome.next (if_pos ((inAb_iff s _ _).mpr h)),
      insertDest_eq s _ ssid, fun _ => fbByte_insertDest s _ ssid⟩

/-! ### INS_SRC (rule R165) -/

theorem insertSrc_eq (s : State) (C : List Byte) (ssid : BitVec 4) :
    s.insertSrc C ssid = { s with
      fb := (s.insertSrc C ssid).fb
      ctrlOff := 15#16, infoOff := 17#16, offv := true, fcsv := false, len := 17#16, bitlen := 136#20
      fstate := .hasSrc, readable := false, code := .ok, res := 0#32 } := by
  simp only [State.insertSrc, State.finish, State.enter, State.placeControl, State.setLen, State.setFb]
  rfl

theorem fbByte_insertSrc (s : State) (C : List Byte) (ssid : BitVec 4) (i : Nat) :
    (s.insertSrc C ssid).fbByte i =
      if 8 ≤ i ∧ i < 15 then (addrField C ssid true).getD (i - 8) 0#8
      else if i = 15 then 0x03#8
      else if i = 16 then 0xF0#8
      else s.fbByte i := by
  have hfb : (s.insertSrc C ssid).fbByte i = (s.setFb 8 (addrField C ssid true ++ [ctrlUi, pidNl3])).fbByte i := by
    simp only [State.insertSrc, fbByte_finish, fbByte_enter, fbByte_placeControl]
  rw [hfb, fbByte_setFb]
  have hlen : (addrField C ssid true ++ [ctrlUi, pidNl3]).length = 9 := by simp
  rw [hlen]
  by_cases haddr : 8 ≤ i ∧ i < 15
  · rw [if_pos haddr, if_pos (by omega), List.getD_append _ _ _ _ (by rw [length_addrField]; omega)]
  by_cases hctrl : i = 15
  · subst hctrl; rfl
  by_cases hpid : i = 16
  · subst hpid; rfl
  rw [if_neg haddr, if_neg hctrl, if_neg hpid, if_neg (by omega)]

/-- Settles O36: the checks in their order, and the source field with the control byte and the PID. -/
theorem insSrcEffect : Obligations.InsSrcEffect := by
  intro s a n ssid
  refine ⟨Laws.wordF3_eq_append 0x32#8 a n ssid, fun hf => congrArg Host.Outcome.next (if_pos hf), fun hf h => ?_,
    fun hf h => ⟨s.insertSrc (s.abBytes a.toNat n.toNat) ssid, ?_, insertSrc_eq s _ ssid, fbByte_insertSrc s _ ssid⟩⟩
  · exact congrArg Host.Outcome.next ((if_neg (not_not.mpr hf)).trans (if_neg ((not_inAb_iff s _ _).mpr h)))
  · exact congrArg Host.Outcome.next ((if_neg (not_not.mpr hf)).trans (if_pos ((inAb_iff s _ _).mpr h)))

/-! ### INS_PATHS (rule R168) -/

/-- The address fields of a path list by index: the extension bit stands in the last one only. -/
theorem pathFields_eq_flatMap (Q : List (List Byte × BitVec 4)) (j : Nat) :
    pathFields Q = (Q.zipIdx j).flatMap fun e => addrField e.1.1 e.1.2 (e.2 + 1 == j + Q.length) := by
  induction Q using pathFields.induct generalizing j with
  | case1 => rfl
  | case2 p => simp [pathFields]
  | case3 p q ps ih =>
    rw [pathFields, List.zipIdx_cons, List.flatMap_cons, ih (j + 1)]
    have hlen : j + (p :: q :: ps).length = j + 1 + (q :: ps).length := by simp only [List.length_cons]; omega
    have hfirst : (j + 1 == j + 1 + (q :: ps).length) = false := by simp
    rw [hlen, hfirst]

theorem insertPaths_eq (s : State) (Q : List (List Byte × BitVec 4)) :
    s.insertPaths Q = { s with
      fb := (s.insertPaths Q).fb
      ctrlOff := BitVec.ofNat 16 (s.ctrlOff.toNat + 7 * Q.length)
      infoOff := BitVec.ofNat 16 (s.ctrlOff.toNat + 7 * Q.length + 2)
      len := BitVec.ofNat 16 (s.ctrlOff.toNat + 7 * Q.length + 2)
      bitlen := BitVec.ofNat 20 (8 * (s.ctrlOff.toNat + 7 * Q.length + 2))
      npaths := BitVec.ofNat 4 (s.npaths.toNat + Q.length)
      fcsv := false, code := .ok, res := 0#32 } := by
  simp only [State.insertPaths, State.finish, State.placeControl, State.setLen, State.setFb]

/-- The bytes that INS_PATHS writes from CTRL_OFF on. -/
def insertedBytes (Q : List (List Byte × BitVec 4)) : List Byte := pathFields Q ++ [ctrlUi, pidNl3]

theorem length_insertedBytes (Q : List (List Byte × BitVec 4)) : (insertedBytes Q).length = 7 * Q.length + 2 := by
  simp [insertedBytes, length_pathFields]

/-- In a state with CTRL_OFF = 0 the byte that would lose its extension bit is FB[0], which the fields overwrite. -/
theorem fbByte_insertPaths (s : State) (Q : List (List Byte × BitVec 4)) (i : Nat) :
    (s.insertPaths Q).fbByte i =
      if s.ctrlOff.toNat ≤ i ∧ i < s.ctrlOff.toNat + (insertedBytes Q).length then
        (insertedBytes Q).getD (i - s.ctrlOff.toNat) 0#8
      else if i + 1 = s.ctrlOff.toNat then s.fbByte i &&& 0xFE#8
      else s.fbByte i := by
  have hfb : (s.insertPaths Q).fbByte i = ((s.setFb (s.ctrlOff.toNat - 1)
      [s.fbByte (s.ctrlOff.toNat - 1) &&& 0xFE#8]).setFb s.ctrlOff.toNat (insertedBytes Q)).fbByte i :=
    fbByte_congr (by simp [State.insertPaths, insertedBytes]) (by simp [State.insertPaths]) i
  rw [hfb, fbByte_setFb, fbByte_setFb_singleton]
  have hlen := length_insertedBytes Q
  by_cases hnew : s.ctrlOff.toNat ≤ i ∧ i < s.ctrlOff.toNat + (insertedBytes Q).length
  · rw [if_pos hnew, if_pos hnew]
  rw [if_neg hnew, if_neg hnew]
  by_cases hlast : i + 1 = s.ctrlOff.toNat
  · rw [if_pos hlast, if_pos (by omega), ← hlast, Nat.add_sub_cancel]
  · rw [if_neg hlast, if_neg (by omega)]

theorem exec_insPaths {a : BitVec 16} {k : BitVec 4} (hf : s.fstate = .hasSrc) (hk : k ≠ 0#4) :
    exec (.insPaths a k) s =
      .next (((s.pathListAt k.toNat a.toNat).map s.checkPaths).getD (s.raise .badArg 0#32)) :=
  congrArg Host.Outcome.next ((if_neg (not_not.mpr hf)).trans (if_neg hk))

/-- Settles O37: the checks in their order, and the fields of the list written from CTRL_OFF on. -/
theorem insPathsEffect : Obligations.InsPathsEffect := by
  intro s a k
  refine ⟨Laws.wordF4_eq_append 0x33#8 a k, fun hf => congrArg Host.Outcome.next (if_pos hf), fun hf hk => ?_,
    fun hf hk => ⟨fun hQ => ?_, fun Q new hQ hnew => ?_⟩⟩
  · exact congrArg Host.Outcome.next ((if_neg (not_not.mpr hf)).trans (if_pos hk))
  · rw [exec_insPaths hf hk, hQ]
    rfl
  · have hlen : Q.length = k.toNat := length_pathListAt s _ _ Q hQ
    have hbytes : new = insertedBytes Q := by rw [hnew, insertedBytes, pathFields_eq_flatMap Q 0, Nat.zero_add, hlen]
    have hexec : exec (.insPaths a k) s = .next (s.checkPaths Q) := by rw [exec_insPaths hf hk, hQ]; rfl
    rw [hexec, hbytes, ← hlen]
    refine ⟨fun h8 => congrArg Host.Outcome.next (if_pos h8), fun h8 hm => ?_,
      fun h8 hm => ⟨s.insertPaths Q, ?_, insertPaths_eq s Q, length_insertedBytes Q, fbByte_insertPaths s Q⟩⟩
    · exact congrArg Host.Outcome.next ((if_neg (Nat.not_lt_of_le h8)).trans (if_pos hm))
    · exact congrArg Host.Outcome.next ((if_neg (Nat.not_lt_of_le h8)).trans (if_neg (Nat.not_lt_of_le hm)))

/-! ### INS_INFO (rule R169) -/

theorem insertInfo_eq (s : State) (bs : List Byte) :
    s.insertInfo bs = { s with
      fb := (s.insertInfo bs).fb
      len := BitVec.ofNat 16 (s.infoOff.toNat + bs.length), bitlen := BitVec.ofNat 20 (8 * (s.infoOff.toNat + bs.length))
      fstate := .complete, readable := true, fcsv := false, code := .ok, res := 0#32 } := rfl

theorem fbByte_insertInfo (s : State) (bs : List Byte) (i : Nat) :
    (s.insertInfo bs).fbByte i =
      if s.infoOff.toNat ≤ i ∧ i < s.infoOff.toNat + bs.length then bs.getD (i - s.infoOff.toNat) 0#8
      else s.fbByte i :=
  fbByte_setFb s s.infoOff.toNat bs i

theorem exec_insInfo {a : BitVec 16} (hf : s.fstate = .hasSrc ∨ s.fstate = .complete) :
    exec (.insInfo a) s = .next (if s.inAb a.toNat s.argCount then
      if s.cfg.frameMax < s.infoOff.toNat + s.argCount + 3 then s.raise .overflow 0#32
      else s.insertInfo (s.abBytes a.toNat s.argCount)
    else s.raise .badArg 0#32) :=
  congrArg Host.Outcome.next (if_neg fun ⟨hs, hc⟩ => hf.elim hs hc)

/-- Settles O38: the checks in their order, and the bytes of AB copied to INFO_OFF. -/
theorem insInfoEffect : Obligations.InsInfoEffect := by
  rintro s a _ rfl
  refine ⟨Laws.wordF2_eq_append 0x34#8 a, fun hf => congrArg Host.Outcome.next (if_pos hf), fun hf => ?_⟩
  rw [exec_insInfo hf]
  refine ⟨fun hi => ?_, fun hi hm => ?_, fun hi hm => ⟨s.insertInfo (s.abBytes a.toNat s.argCount), ?_, ?_, fun i => ?_⟩⟩
  · rw [if_neg ((not_inAb_iff s _ _).mpr hi)]; rfl
  · rw [if_pos ((inAb_iff s _ _).mpr hi), if_pos hm]; rfl
  · rw [if_pos ((inAb_iff s _ _).mpr hi), if_neg (Nat.not_lt_of_le hm)]
  · rw [insertInfo_eq, length_abBytes]
  · rw [fbByte_insertInfo, length_abBytes]
    exact ite_congr rfl (fun h => getD_abBytes s _ (Nat.sub_lt_left_of_lt_add h.1 h.2)) fun _ => rfl

/-! ### FLAG_APPEND (rule R170) -/

theorem appendFlag_eq (s : State) :
    s.appendFlag = { s with
      fb := s.appendFlag.fb
      len := BitVec.ofNat 16 (s.len.toNat + 1), bitlen := BitVec.ofNat 20 (8 * (s.len.toNat + 1))
      code := .ok, res := 0#32 } := rfl

theorem fbByte_appendFlag (s : State) (i : Nat) :
    s.appendFlag.fbByte i = if i = s.len.toNat then 0x7E#8 else s.fbByte i :=
  fbByte_setFb_singleton s s.len.toNat flagByte i

theorem exec_flagAppend (he : s.fstate ≠ .empty) (hd : s.fstate ≠ .hasDest) (hs : s.fstate ≠ .hasSrc) :
    exec .flagAppend s =
      .next (if s.cfg.frameMax < s.len.toNat + 1 then s.raise .overflow 0#32 else s.appendFlag) :=
  congrArg Host.Outcome.next (if_neg (by simp [he, hd, hs]))

/-- Settles O39: the checks in their order, and one byte written. -/
theorem flagAppendEffect : Obligations.FlagAppendEffect := by
  intro s
  refine ⟨rfl, fun hf => congrArg Host.Outcome.next (if_pos hf), fun he hd hs => ?_⟩
  rw [exec_flagAppend he hd hs]
  refine ⟨fun hm => congrArg Host.Outcome.next (if_pos hm), fun hm => ?_⟩
  exact ⟨s.appendFlag, congrArg Host.Outcome.next (if_neg (Nat.not_lt_of_le hm)), appendFlag_eq s, fbByte_appendFlag s⟩

/-! ### The table of frame states (rule R171) -/

/-- In its NR columns a command is refused before any other check. -/
theorem exec_of_notReadyIn {i : Instr} (h : notReadyIn i s.fstate = true) :
    exec i s = .next (s.raise .notReady 0#32) := by
  cases i with
  | insSrc a n ssid => exact congrArg Host.Outcome.next (if_pos (by simpa [notReadyIn] using h))
  | insPaths a k => exact congrArg Host.Outcome.next (if_pos (by simpa [notReadyIn] using h))
  | insInfo a => exact congrArg Host.Outcome.next (if_pos (by simpa [notReadyIn] using h))
  | fcsAppend => exact congrArg Host.Outcome.next (if_pos (by simpa [notReadyIn] using h))
  | flagAppend => exact congrArg Host.Outcome.next (if_pos (by simpa [notReadyIn, or_assoc] using h))
  | _ => cases h

/-- The frame state each ending leaves, by whether it is a success. -/
theorem fstate_of_runs {i : Instr} (h : s.Runs i t) :
    t.code = .ok ∧ t.fstate = fstateAfter i s.fstate ∨
      t.code ≠ .ok ∧ t.fstate = if i = .validate then .invalid else s.fstate := by
  cases h with
  | failed i c r hc hi => exact .inr ⟨hc, (if_neg hi).symm⟩
  | insSrc a n ssid _ _ => exact .inl ⟨rfl, by rw [insertSrc_eq]; rfl⟩
  | insPaths a k Q _ _ _ _ _ => exact .inl ⟨rfl, insertPaths_fstate s Q⟩
  | rejected r => exact .inr ⟨nofun, rfl⟩
  | rejectedBody p r _ _ => exact .inr ⟨nofun, rfl⟩
  | rejectedFcs p c e _ _ _ => exact .inr ⟨nofun, rfl⟩
  | _ => exact .inl ⟨rfl, rfl⟩

/-- Settles O40: the NR columns by the commands' first check, the other entries by the endings. -/
theorem frameStateTable : Obligations.FrameStateTable := by
  intro i s t hx
  refine ⟨fun h => ?_, fun hok => ?_, fun hne => ?_⟩
  · exact Host.Outcome.next.inj (hx.symm.trans (exec_of_notReadyIn h))
  · obtain ⟨-, hf⟩ | ⟨hne, -⟩ := fstate_of_runs (runs_of_exec hx)
    · exact hf
    · exact absurd hok hne
  · obtain ⟨hok, -⟩ | ⟨-, hf⟩ := fstate_of_runs (runs_of_exec hx)
    · exact absurd hok hne
    · exact hf

/-! ### A readable frame closed (rule R172) -/

theorem exec_fcsAppend_of_fits (hd : s.fstate ≠ .hasDest) (hs : s.fstate ≠ .hasSrc) (hl : 1 ≤ s.len.toNat)
    (hm : s.len.toNat + 2 ≤ s.cfg.frameMax) : exec .fcsAppend s = .next s.appendFcs := by
  change execFcsAppend s = _
  rw [execFcsAppend, if_neg (by simp [hd, hs]), if_neg (Nat.not_lt_of_le hl), if_neg (Nat.not_lt_of_le hm)]

theorem toNat_len_appendFcs (hm : s.len.toNat + 2 ≤ s.cfg.frameMax) : s.appendFcs.len.toNat = s.len.toNat + 2 :=
  toNat_ofNat_of_le_frameMax hm

theorem toNat_len_appendFlag (hm : s.len.toNat + 1 ≤ s.cfg.frameMax) : s.appendFlag.len.toNat = s.len.toNat + 1 :=
  toNat_ofNat_of_le_frameMax hm

theorem toNat_len_insertInfo {bs : List Byte} (hm : s.infoOff.toNat + bs.length ≤ s.cfg.frameMax) :
    (s.insertInfo bs).len.toNat = s.infoOff.toNat + bs.length :=
  toNat_ofNat_of_le_frameMax hm

/-- A COMPLETE frame with three free bytes takes its FCS in two of them and the trailing flag in the third. -/
theorem close_of_complete (hf : t.fstate = .complete) (hl : 1 ≤ t.len.toNat) (hm : t.len.toNat + 3 ≤ t.cfg.frameMax) :
    ∃ u v, exec .fcsAppend t = .next u ∧ u.code = .ok ∧ exec .flagAppend u = .next v ∧ v.code = .ok ∧
      v.len.toNat = t.len.toNat + 3 ∧ v.len.toNat ≤ v.cfg.frameMax ∧ v.fcsOff.toNat = t.len.toNat ∧
      v.fbByte (v.len.toNat - 1) = 0x7E#8 := by
  have hf' : t.appendFcs.fstate = .complete := hf
  have hfcs := toNat_len_appendFcs (s := t) (by omega)
  have hfit : t.appendFcs.len.toNat + 1 ≤ t.appendFcs.cfg.frameMax := by rw [hfcs]; exact hm
  have hflag := toNat_len_appendFlag hfit
  refine ⟨t.appendFcs, t.appendFcs.appendFlag, exec_fcsAppend_of_fits (by simp [hf]) (by simp [hf]) hl (by omega), rfl,
    ?_, rfl, by omega, by rw [hflag]; exact hfit, rfl, ?_⟩
  · rw [exec_flagAppend (by simp [hf']) (by simp [hf']) (by simp [hf']), if_neg (Nat.not_lt_of_le hfit)]
  · rw [hflag, Nat.add_sub_cancel, fbByte_appendFlag, if_pos rfl]

/-- Settles O41: INS_INFO ends OK with LEN = INFO_OFF + n, at least three bytes below FRAME_MAX. -/
theorem readableFrameCanBeClosed : Obligations.ReadableFrameCanBeClosed := by
  intro s t a h hx hok
  cases runs_of_exec hx with
  | failed _ _ _ hc _ => exact absurd hok hc
  | insInfo _ hf hi hm =>
    obtain ⟨hctrl, hinfo, -⟩ := h.offv_offsets (h.built_offv hf)
    have hlen := toNat_len_insertInfo (s := s) (bs := s.abBytes a.toNat s.argCount) (by rw [length_abBytes]; omega)
    rw [length_abBytes] at hlen
    rw [← hlen]
    exact close_of_complete rfl (by omega) (by rw [hlen]; exact hm)

end Sys2Proof.Machine
end

section
/-! SUPPORT. The frame parser's commands PARSE_OFFSETS and VALIDATE (43_frame_parser.md rules R200 to R204): the answers of
the scans, the endings of VALIDATE by its checks, and the frame its rewrite in place leaves to read. -/

namespace Sys2Proof.Machine

variable {s : State}

/-! ### PARSE_OFFSETS (rules R200 and R201) -/

theorem parse_eq_noControl (h : ∀ i, 15 ≤ i → i < s.len.toNat → s.fbByte i ≠ 0x03#8) : s.parse = .noControl := by
  rw [State.parse, findControl_eq_none.mpr h]

theorem parse_eq_noFlag {c : Nat} (hc : IsLeast {i | 15 ≤ i ∧ i < s.len.toNat ∧ s.fbByte i = 0x03#8} c)
    (h : ∀ i, c + 4 ≤ i → i < s.len.toNat → s.fbByte i ≠ 0x7E#8) : s.parse = .noFlag := by
  simp only [State.parse, findControl_eq_some.mpr hc, findFlag_eq_none.mpr h]

theorem parse_eq_found_of_scans {c e : Nat} (hc : IsLeast {i | 15 ≤ i ∧ i < s.len.toNat ∧ s.fbByte i = 0x03#8} c)
    (he : IsGreatest {i | c + 4 ≤ i ∧ i < s.len.toNat ∧ s.fbByte i = 0x7E#8} e) : s.parse = .found c e :=
  parse_eq_found.mpr ⟨findControl_eq_some.mpr hc, findFlag_eq_some.mpr he⟩

theorem exec_parseOffsets (s : State) : exec .parseOffsets s = execParseOffsets s := rfl

/-- Settles O42: one ending for each answer of the search. -/
theorem parseOffsetsEffect : Obligations.ParseOffsetsEffect := by
  intro s
  rw [exec_parseOffsets, execParseOffsets]
  refine ⟨rfl, fun h => ?_, fun c hc => ⟨fun h => ?_, fun e he => ?_⟩⟩
  · rw [parse_eq_noControl h]; rfl
  · rw [parse_eq_noFlag hc h]; rfl
  · rw [parse_eq_found_of_scans hc he]; rfl

/-! ### The first checks of VALIDATE (rules R202 and R203) -/

theorem exec_validate_of_no_leading_flag (h : s.bitlen.toNat < 8 ∨ s.fbByte 0 ≠ 0x7E#8) :
    exec .validate s = .next (s.invalidate 1#32) := congrArg Host.Outcome.next (if_pos h)

theorem exec_validate_of_no_end_flag (h8 : 8 ≤ s.bitlen.toNat) (h0 : s.fbByte 0 = 0x7E#8)
    (h : ∀ j, 8 ≤ j → j + 8 ≤ s.bitlen.toNat → s.bits j 8 ≠ flagBits) :
    exec .validate s = .next (s.invalidate 2#32) := by
  refine congrArg Host.Outcome.next ((if_neg (by simp [h0, h8])).trans ?_)
  rw [findEndFlag_eq_none.mpr h]
  rfl

theorem exec_validate_of_end_flag {p : Nat} (h0 : s.fbByte 0 = 0x7E#8)
    (hp : IsLeast {j | 8 ≤ j ∧ j + 8 ≤ s.bitlen.toNat ∧ s.bits j 8 = flagBits} p) :
    exec .validate s = .next (s.validateBody p) := by
  have h8 : 8 ≤ s.bitlen.toNat := by have := hp.1.2.1; omega
  refine congrArg Host.Outcome.next ((if_neg (by simp [h0, h8])).trans ?_)
  rw [findEndFlag_eq_some.mpr hp]
  rfl

theorem invalidate_eq (s : State) (r : Word) : s.invalidate r = { s with
    fstate := .invalid, readable := false, offv := false, fcsv := false, code := .invalid, res := r } := rfl

/-- Settles O43: the first three checks of VALIDATE, each before anything is written. -/
theorem validateRejectsUnframedStream : Obligations.ValidateRejectsUnframedStream := by
  intro s
  refine ⟨exec_validate_of_no_leading_flag, fun h8 h0 => ⟨exec_validate_of_no_end_flag h8 h0, fun p hp hB => ?_⟩⟩
  rw [exec_validate_of_end_flag h0 hp, State.validateBody, State.body, if_pos hB, invalidate_eq]

/-! ### The rewrite in place (rule R203) -/

theorem Memory.writeBytes_append (m : Memory) (a : Nat) (xs ys : List Byte) :
    m.writeBytes a (xs ++ ys) = (m.writeBytes a xs).writeBytes (a + xs.length) ys := by
  induction xs generalizing m a with
  | nil => rfl
  | cons x xs ih => rw [List.cons_append, Memory.writeBytes, ih, Memory.writeBytes, List.length_cons, Nat.add_right_comm,
      Nat.add_assoc]

theorem fbByte_putBody_eq {m : Nat} {B : Bits} (hB : B.length = 8 * m) (i : Nat) :
    (s.putBody B).fbByte i = if i = m + 1 then 0x7E#8 else (s.setFb 1 (packBits B)).fbByte i := by
  have hlen : (packBits B).length = m := by rw [length_packBits]; omega
  have hfb : (s.putBody B).fbByte i = ((s.setFb 1 (packBits B)).setFb (m + 1) [flagByte]).fbByte i := by
    refine fbByte_congr ?_ (by simp [State.putBody]) i
    rw [State.putBody, setLen_fb, setFb_fb, Memory.writeBytes_append, hlen, Nat.add_comm 1 m, setFb_fb, setFb_fb]
  rw [hfb, fbByte_setFb_singleton]

theorem bits_putBody {m : Nat} {B : Bits} (hB : B.length = 8 * m) : (s.putBody B).bits 8 (8 * m) = B := by
  have hkept : (s.putBody B).bits 8 (8 * m) = (s.setFb 1 (packBits B)).bits 8 (8 * m) :=
    bits_congr fun j h1 h2 => bit_congr (by rw [fbByte_putBody_eq hB, if_neg (by omega)])
  rw [hkept, ← hB]
  exact bits_setFb_packBits s 1 B

theorem fbByte_putBody_outside {m : Nat} {B : Bits} (hB : B.length = 8 * m) {i : Nat} (hi : i = 0 ∨ m + 2 ≤ i) :
    (s.putBody B).fbByte i = s.fbByte i := by
  rw [fbByte_putBody_eq hB, if_neg (by omega), fbByte_setFb, if_neg (by rw [length_packBits]; omega)]

theorem putBody_eq {m : Nat} {B : Bits} (hB : B.length = 8 * m) : s.putBody B = { s with
    fb := (s.putBody B).fb, len := BitVec.ofNat 16 (m + 2), bitlen := BitVec.ofNat 20 (8 * (m + 2)) } := by
  rw [State.putBody, hB, Nat.mul_div_cancel_left m (by decide)]
  rfl

theorem toNat_len_putBody {m : Nat} {B : Bits} (hB : B.length = 8 * m) (hm : m + 2 ≤ s.cfg.frameMax) :
    (s.putBody B).len.toNat = m + 2 := by
  rw [putBody_eq hB]
  exact toNat_ofNat_of_le_frameMax hm

/-- The unstuffed body and a flag at either end fit into the stream that held them stuffed. -/
theorem body_fits {p m : Nat} (hbit : s.bitlen.toNat ≤ 8 * s.cfg.frameMax) (h8 : 8 ≤ p) (hp : p + 8 ≤ s.bitlen.toNat)
    (hB : (s.body p).length = 8 * m) : m + 2 ≤ s.cfg.frameMax := by
  have hle : (s.body p).length ≤ p - 8 := by simpa [State.body] using length_unstuff_le (s.bits 8 (p - 8))
  omega

theorem validateBody_of_whole_bytes {p m : Nat} (hB : (s.body p).length = 8 * m) :
    s.validateBody p = (s.putBody (s.body p)).acceptBody := if_neg (by simp [hB])

/-! ### The checks after the rewrite (rules R203 and R204) -/

theorem acceptBody_of_noControl (h : s.parse = .noControl) : s.acceptBody = s.invalidate 4#32 := by
  unfold State.acceptBody
  rw [h]

theorem acceptBody_of_noFlag (h : s.parse = .noFlag) : s.acceptBody = s.invalidate 5#32 := by
  unfold State.acceptBody
  rw [h]

theorem acceptBody_of_found {c e : Nat} (h : s.parse = .found c e) :
    s.acceptBody = if (s.recordOffsets c e).fcsMatches then ((s.recordOffsets c e).enter .valid).finish 0#32
      else (s.recordOffsets c e).invalidate 6#32 := by
  unfold State.acceptBody
  rw [h]

/-- The comparison of the FCS that lies in front of a trailing flag at e. -/
theorem fcsMatches_recordOffsets_iff {c e : Nat} (h2 : 3 ≤ e) (he : e ≤ s.cfg.frameMax) :
    (s.recordOffsets c e).fcsMatches = true ↔
      (fcs (s.fbBytes 1 (e - 3))).toNat = (s.fbByte (e - 2)).toNat + 256 * (s.fbByte (e - 1)).toNat := by
  have hoff : (s.recordOffsets c e).fcsOff.toNat = e - 2 := by
    rw [recordOffsets_fcsOff, toNat_ofNat_of_le_frameMax (c := s.cfg) (by omega)]
  have hbytes : (s.recordOffsets c e).fbBytes 1 (e - 3) = s.fbBytes 1 (e - 3) := rfl
  rw [fcsMatches_iff, hoff, show e - 2 - 1 = e - 3 by omega, show e - 2 + 1 = e - 1 by omega, hbytes,
    fbByte_recordOffsets, fbByte_recordOffsets]

/-- Settles O44: VALIDATE from its end flag on is `acceptBody` of the rewritten frame, with one ending for each answer of the
search and of the comparison. -/
theorem validateUnstuffsAndChecks : Obligations.ValidateUnstuffsAndChecks := by
  intro s p m hbit h0 hp hB
  obtain ⟨h8, hpb, -⟩ := hp.1
  change (s.body p).length = 8 * m at hB
  have hm : m + 2 ≤ s.cfg.frameMax := body_fits hbit h8 hpb hB
  have hlen := toNat_len_putBody hB hm
  have hexec : exec .validate s = .next (s.putBody (s.body p)).acceptBody := by
    rw [exec_validate_of_end_flag h0 hp, validateBody_of_whole_bytes hB]
  refine ⟨s.putBody (s.body p), putBody_eq hB, hm, bits_putBody hB, by rw [fbByte_putBody_eq hB, if_pos rfl],
    fun i => fbByte_putBody_outside hB, ?_⟩
  rw [hexec, ← hlen]
  refine ⟨fun h => ?_, fun c hc => ⟨fun h => ?_, fun e he => ?_⟩⟩
  · rw [acceptBody_of_noControl (parse_eq_noControl h), invalidate_eq]
  · rw [acceptBody_of_noFlag (parse_eq_noFlag hc h), invalidate_eq]
  · have hparse := parse_eq_found_of_scans hc he
    obtain ⟨hc15, hce, hel⟩ := parse_found_bounds hparse
    rw [acceptBody_of_found hparse]
    have hiff := fcsMatches_recordOffsets_iff (s := s.putBody (s.body p)) (c := c) (e := e) (by omega)
      (show e ≤ s.cfg.frameMax by omega)
    refine ⟨fun hne => ?_, fun heq => ?_⟩
    · rw [if_neg (hiff.not.mpr hne)]; rfl
    · rw [if_pos (hiff.mpr heq)]; rfl

end Sys2Proof.Machine
end

section
/-! SUPPORT. GET_SOURCE (43_frame_parser.md rules R205 to R207): the text of a source field, the bytes it leaves in AB, and the
round trip of a callsign. -/

namespace Sys2Proof.Machine

variable {s t : State}

/-! ### The source as text (rule R205) -/

/-- Dropping trailing spaces is the library's `rdropWhile`. -/
theorem trimSpaces_append_spaces {body : List Byte} (h : body.getLast? ≠ some 0x20#8) (k : Nat) :
    trimSpaces (body ++ List.replicate k 0x20#8) = body := by
  change (body ++ List.replicate k 0x20#8).rdropWhile (· == 0x20#8) = body
  induction k with
  | zero =>
    rw [List.replicate_zero, List.append_nil, List.rdropWhile_eq_self_iff]
    intro hne hlast
    exact h (by rw [List.getLast?_eq_some_getLast hne, beq_iff_eq.mp hlast])
  | succ k ih => rw [List.replicate_succ', ← List.append_assoc, List.rdropWhile_concat_pos _ _ _ rfl, ih]

theorem ushiftRight_one_eq (x : Byte) : x >>> 1 = BitVec.ofNat 8 (x.toNat / 2) := by
  revert x
  decide

theorem ssidOf_eq (x : Byte) : ssidOf x = x.toNat / 2 % 16 := by
  revert x
  decide

/-- The suffix of an SSID, which has one digit or a 1 and a digit. -/
theorem ssidSuffix_eq {v : Nat} (hv : v < 16) :
    ssidSuffix v = if v = 0 then [] else if v < 10 then [0x2D#8, BitVec.ofNat 8 (0x30 + v)]
      else [0x2D#8, 0x31#8, BitVec.ofNat 8 (0x30 + (v - 10))] := by
  revert v
  decide

theorem sourceText_eq {body : List Byte} {k v : Nat}
    (hbody : (s.fbBytes 8 6).map (fun x : Byte => x >>> 1) = body ++ List.replicate k 0x20#8)
    (hlast : body.getLast? ≠ some 0x20#8) (hv : v = (s.fbByte 14).toNat / 2 % 16) :
    s.sourceText = body ++ ssidSuffix v := by
  rw [State.sourceText, hbody, trimSpaces_append_spaces hlast, ssidOf_eq, hv]

/-! ### The command (rule R206) -/

theorem exec_getSource {a : BitVec 16} (hf : s.fstate = .hasSrc ∨ s.fstate = .complete ∨ s.fstate = .valid) :
    exec (.getSource a) s = .next (if s.inAb a.toNat s.sourceText.length then
      (s.setAb a.toNat s.sourceText).finish (BitVec.ofNat 32 s.sourceText.length)
    else s.raise .badArg 0#32) :=
  congrArg Host.Outcome.next (if_neg fun ⟨hs, hc, hv⟩ => hf.elim hs fun hf => hf.elim hc hv)

/-- Settles O46: the checks in their order, and the text copied to AOFF. -/
theorem getSourceEffect : Obligations.GetSourceEffect := by
  intro s a body T k v hbody hlast hv hT
  have htext : s.sourceText = T := by
    simp only [← ushiftRight_one_eq] at hbody
    rw [sourceText_eq hbody hlast hv, hT, ssidSuffix_eq (by omega)]
  refine ⟨Laws.wordF2_eq_append 0x42#8 a, fun hf => congrArg Host.Outcome.next (if_pos hf), fun hf => ?_⟩
  rw [exec_getSource hf, htext]
  refine ⟨fun hi => ?_, fun hi => ⟨(s.setAb a.toNat T).finish (BitVec.ofNat 32 T.length), ?_, rfl, ?_⟩⟩
  · rw [if_neg ((not_inAb_iff s _ _).mpr hi)]; rfl
  · rw [if_pos ((inAb_iff s _ _).mpr hi)]
  · exact abByte_setAb s a.toNat T

/-! ### The round trip (rule R207) -/

/-- A 7-bit character survives the shift to the left and back, and the padding comes back as spaces. -/
theorem ushiftRight_callBytes {C : List Byte} (hlen : C.length ≤ 6) (hC : ∀ b ∈ C, b.toNat < 0x80) :
    (List.range 6).map (fun i => callByte C i >>> 1) = C ++ List.replicate (6 - C.length) 0x20#8 := by
  have hshift : ∀ b : Byte, b.toNat < 0x80 → b <<< 1 >>> 1 = b := by decide
  refine List.ext_getElem (by simp; omega) fun i h1 h2 => ?_
  rw [List.getElem_map, List.getElem_range, callByte]
  by_cases hi : i < C.length
  · rw [if_pos hi, List.getD_eq_getElem _ _ hi, List.getElem_append_left hi, hshift _ (hC _ (List.getElem_mem hi))]
  · rw [if_neg hi, List.getElem_append_right (by omega), List.getElem_replicate]
    rfl

theorem fbBytes_insertSrc_call (s : State) (C : List Byte) (ssid : BitVec 4) :
    (s.insertSrc C ssid).fbBytes 8 6 = (List.range 6).map (callByte C) := by
  refine List.map_congr_left fun i hi => ?_
  have hi := List.mem_range.mp hi
  rw [fbByte_insertSrc, if_pos (by omega), Nat.add_sub_cancel_left, getD_addrField_call C ssid true hi]

theorem sourceText_insertSrc {C : List Byte} {ssid : BitVec 4} (hlen : C.length ≤ 6) (hC : ∀ b ∈ C, b.toNat < 0x80)
    (hlast : C.getLast? ≠ some 0x20#8) : (s.insertSrc C ssid).sourceText = C ++ ssidSuffix ssid.toNat := by
  have hssid := ssid.isLt
  refine sourceText_eq (k := 6 - C.length) ?_ hlast ?_
  · rw [fbBytes_insertSrc_call, List.map_map]
    exact ushiftRight_callBytes hlen hC
  · rw [fbByte_insertSrc, if_pos (by decide), getD_addrField_ssid, toNat_ssidByte, Bool.toNat_true]
    omega

theorem abBytes_setAb (s : State) (a : Nat) (bs : List Byte) : (s.setAb a bs).abBytes a bs.length = bs := by
  refine List.ext_getElem (by simp) fun i h1 h2 => ?_
  rw [getElem_abBytes, abByte_setAb, if_pos (by omega), Nat.add_sub_cancel_left, List.getD_eq_getElem _ _ h2]

theorem eq_insertDest_of_exec {a : BitVec 16} {n : BitVec 3} {ssid : BitVec 4}
    (h : exec (.insDest a n ssid) s = .next t) (hok : t.code = .ok) :
    t = s.insertDest (s.abBytes a.toNat n.toNat) ssid := by
  cases runs_of_exec h with
  | failed _ _ _ hc _ => exact absurd hok hc
  | insDest _ _ _ _ => rfl

theorem eq_insertSrc_of_exec {a : BitVec 16} {n : BitVec 3} {ssid : BitVec 4}
    (h : exec (.insSrc a n ssid) s = .next t) (hok : t.code = .ok) :
    t = s.insertSrc (s.abBytes a.toNat n.toNat) ssid := by
  cases runs_of_exec h with
  | failed _ _ _ hc _ => exact absurd hok hc
  | insSrc _ _ _ _ _ => rfl

/-- Settles O47: INS_DEST leaves AB alone, so the field that INS_SRC writes and GET_SOURCE reads is that of C. -/
theorem addressRoundTrip : Obligations.AddressRoundTrip := by
  rintro s t u a0 a1 a2 n0 n1 s0 v C T hdest htok hsrc huok hC hlen h80 ⟨z, hz, hspace⟩ hT hfit
  obtain rfl := eq_insertDest_of_exec hdest htok
  obtain rfl := eq_insertSrc_of_exec hsrc huok
  have hcall : (s.insertDest (s.abBytes a0.toNat n0.toNat) s0).abBytes a1.toNat n1.toNat = C := by
    rw [insertDest_eq, hC]
    rfl
  rw [hcall]
  have htext : ((s.insertDest (s.abBytes a0.toNat n0.toNat) s0).insertSrc C v).sourceText = T := by
    rw [sourceText_insertSrc hlen h80 (by rw [hz]; simpa using hspace), hT, ssidSuffix_eq v.isLt]
  have hcfg : ((s.insertDest (s.abBytes a0.toNat n0.toNat) s0).insertSrc C v).cfg = s.cfg := by
    rw [insertSrc_cfg, insertDest_eq]
  have hmax : s.cfg.argMax ≤ 4096 := frameMax_le s.cfg
  rw [exec_getSource (.inl (by rw [insertSrc_eq])), htext, if_pos ((inAb_iff _ _ _).mpr (by rw [hcfg]; exact hfit))]
  refine ⟨_, rfl, rfl, ?_, abBytes_setAb _ a2.toNat T⟩
  rw [finish_res, BitVec.toNat_ofNat, Nat.mod_eq_of_lt (by omega)]

end Sys2Proof.Machine
end

section
/-! SUPPORT. The end-to-end law (43_frame_parser.md rule R208, its first law): a frame that the builder has closed, the stream
that carries it stuffed between its flags, and VALIDATE on a stream that begins with that one. -/

namespace Sys2Proof.Machine

variable {s t f : State}

/-! ### A closed frame -/

/-- A frame as INS_INFO, FCS_APPEND and FLAG_APPEND leave it: a header, a matching FCS and a trailing flag in its last three
bytes. -/
structure State.Closed (f : State) : Prop where
  header : f.Header
  room : f.infoOff.toNat + 3 ≤ f.len.toNat
  fits : f.len.toNat ≤ f.cfg.frameMax
  bitlen_eq : f.bitlen.toNat = 8 * f.len.toNat
  last : f.fbByte (f.len.toNat - 1) = 0x7E#8
  fcsOff_add : f.fcsOff.toNat + 3 = f.len.toNat
  fcs_matches : f.fcsMatches = true

/-- The comparison depends on FCS_OFF and on FB up to the stored FCS. -/
theorem fcsMatches_congr (hoff : t.fcsOff = s.fcsOff) (hfb : ∀ i, i < s.fcsOff.toNat + 2 → t.fbByte i = s.fbByte i) :
    t.fcsMatches = s.fcsMatches := by
  have hcovered : t.fbBytes 1 (s.fcsOff.toNat - 1) = s.fbBytes 1 (s.fcsOff.toNat - 1) :=
    fbBytes_congr fun i h1 h2 => hfb i (by omega)
  simp only [State.fcsMatches, State.frameFcs, State.storedFcs, hoff, hcovered, hfb s.fcsOff.toNat (by omega),
    hfb (s.fcsOff.toNat + 1) (by omega)]

/-- A flag behind the stored FCS leaves the comparison alone. -/
theorem fcsMatches_appendFlag (h : s.fcsOff.toNat + 2 ≤ s.len.toNat) : s.appendFlag.fcsMatches = s.fcsMatches :=
  fcsMatches_congr rfl fun i hi => by rw [fbByte_appendFlag, if_neg (by omega)]

theorem closed_of_complete (hb : s.Built) (hf : s.fstate = .complete) (hm : s.len.toNat + 3 ≤ s.cfg.frameMax) :
    s.appendFcs.appendFlag.Closed := by
  have hfcs := toNat_len_appendFcs (s := s) (by omega)
  have hfit : s.appendFcs.len.toNat + 1 ≤ s.appendFcs.cfg.frameMax := by rw [hfcs]; exact hm
  have hflag := toNat_len_appendFlag hfit
  have hf' : s.appendFcs.fstate = .complete := hf
  have hb' : s.appendFcs.appendFlag.Built :=
    (hb.appendFcs (by simp [hf]) (by simp [hf]) (by omega)).appendFlag (by simp [hf']) (by simp [hf']) hfit
  have hle : s.infoOff.toNat ≤ s.len.toNat := (hb.complete hf).2
  exact
    { header := (hb'.complete hf).1
      room := by rw [hflag, hfcs]; exact Nat.add_le_add_right hle 3
      fits := by rw [hflag]; exact hfit
      bitlen_eq := by
        rw [hflag, appendFlag_eq]
        exact toNat_ofNat_of_le_frameBits (c := s.cfg) (by omega)
      last := by rw [hflag, Nat.add_sub_cancel, fbByte_appendFlag, if_pos rfl]
      fcsOff_add := by rw [hflag, hfcs]; rfl
      fcs_matches := by
        rw [fcsMatches_appendFlag (by rw [appendFcs_fcsOff, hfcs]), fcsMatches_appendFcs] }

/-- A COMPLETE frame with three free bytes takes FCS_APPEND and FLAG_APPEND. -/
theorem exec_appends_of_complete (hf : s.fstate = .complete) (hl : 1 ≤ s.len.toNat)
    (hm : s.len.toNat + 3 ≤ s.cfg.frameMax) :
    exec .fcsAppend s = .next s.appendFcs ∧ exec .flagAppend s.appendFcs = .next s.appendFcs.appendFlag := by
  have hf' : s.appendFcs.fstate = .complete := hf
  have hfit : s.appendFcs.len.toNat + 1 ≤ s.appendFcs.cfg.frameMax := by
    rw [toNat_len_appendFcs (by omega)]; exact hm
  refine ⟨exec_fcsAppend_of_fits (by simp [hf]) (by simp [hf]) hl (by omega), ?_⟩
  rw [exec_flagAppend (by simp [hf']) (by simp [hf']) (by simp [hf']), if_neg (Nat.not_lt_of_le hfit)]

/-- INS_INFO leaves room for what closes the frame, so the two commands after it end OK. -/
theorem closed_of_exec {t₁ t₂ t₃ : State} {a : BitVec 16} (hb : s.Built) (h₁ : exec (.insInfo a) s = .next t₁)
    (hok : t₁.code = .ok) (h₂ : exec .fcsAppend t₁ = .next t₂) (h₃ : exec .flagAppend t₂ = .next t₃) : t₃.Closed := by
  cases runs_of_exec h₁ with
  | failed _ _ _ hc _ => exact absurd hok hc
  | insInfo _ hf _ hm =>
    have hm' : s.infoOff.toNat + (s.abBytes a.toNat s.argCount).length + 3 ≤ s.cfg.frameMax := by
      rw [length_abBytes]; exact hm
    have hb₁ := hb.insertInfo hf hm'
    have hlen := toNat_len_insertInfo (Nat.le_of_add_right_le hm')
    have hinfo := (hb₁.complete rfl).1.infoOff
    have hle := (hb₁.complete rfl).2
    have hroom : (s.insertInfo (s.abBytes a.toNat s.argCount)).len.toNat + 3 ≤ s.cfg.frameMax := by rw [hlen]; exact hm'
    obtain ⟨hfcs, hflag⟩ := exec_appends_of_complete rfl (by omega) hroom
    obtain rfl := Host.Outcome.next.inj (hfcs.symm.trans h₂)
    obtain rfl := Host.Outcome.next.inj (hflag.symm.trans h₃)
    exact closed_of_complete hb₁ rfl hroom

/-- The search of ParseOffsets() finds in a closed frame the control byte of its header and its last byte. -/
theorem State.Closed.parse_eq (hf : f.Closed) : f.parse = .found f.ctrlOff.toNat (f.len.toNat - 1) := by
  have hinfo := hf.header.infoOff
  have hroom := hf.room
  refine parse_eq_found.mpr ⟨hf.header.findControl (by omega), findFlag_eq_some.mpr ⟨⟨by omega, by omega, hf.last⟩, ?_⟩⟩
  rintro i ⟨-, hi, -⟩
  omega

/-- The search depends on LEN and on FB below it. -/
theorem parse_eq_found_congr {c e : Nat} (hl : t.len.toNat = s.len.toNat)
    (hfb : ∀ i, i < s.len.toNat → t.fbByte i = s.fbByte i) (h : s.parse = .found c e) : t.parse = .found c e := by
  have hset : ∀ (a : Nat) (b : Byte), {i | a ≤ i ∧ i < t.len.toNat ∧ t.fbByte i = b} =
      {i | a ≤ i ∧ i < s.len.toNat ∧ s.fbByte i = b} := fun a b =>
    Set.ext fun i => and_congr_right fun _ => by rw [hl]; exact and_congr_right fun hi => by rw [hfb i hi]
  obtain ⟨hc, he⟩ := parse_eq_found.mp h
  refine parse_eq_found_of_scans ?_ ?_
  · rw [hset]; exact findControl_eq_some.mp hc
  · rw [hset]; exact findFlag_eq_some.mp he

/-! ### The stream that carries it -/

/-- The bits between the two flags of a frame. -/
def State.bodyBits (f : State) : Bits := f.bits 8 (8 * f.len.toNat - 16)

theorem length_bodyBits (f : State) : f.bodyBits.length = 8 * (f.len.toNat - 2) := by
  rw [State.bodyBits, length_bits]
  omega

/-- A body stuffed between two flags. -/
def framed (B : Bits) : Bits := flagBits ++ (stuff B ++ flagBits)

/-- The valid stream of `s` has S in front. -/
def State.BeginsWith (s : State) (S : Bits) : Prop := S.length ≤ s.bitlen.toNat ∧ s.bits 0 S.length = S

theorem length_flagBits : flagBits.length = 8 := rfl

theorem length_framed (B : Bits) : (framed B).length = 8 + ((stuff B).length + 8) := by
  simp only [framed, List.length_append, length_flagBits]

/-- The flag as a byte and as its bits (20_memory.md rule R61). -/
theorem bits_eq_flagBits_iff {i : Nat} : s.bits (8 * i) 8 = flagBits ↔ s.fbByte i = 0x7E#8 := by
  have hbits : s.bits (8 * i) 8 = (List.range 8).map fun k => (s.fbByte i).getLsbD (7 - k) :=
    List.map_congr_left fun k hk => by
      have hk := List.mem_range.mp hk
      rw [State.bit, show (8 * i + k) / 8 = i by omega, show (8 * i + k) % 8 = k by omega]
  have hbyte : ∀ x : Byte, (List.range 8).map (fun k => x.getLsbD (7 - k)) = flagBits ↔ x = 0x7E#8 := by decide
  rw [hbits, hbyte]

theorem beginsWith_framed_iff {B : Bits} : s.BeginsWith (framed B) ↔
    (framed B).length ≤ s.bitlen.toNat ∧ s.fbByte 0 = 0x7E#8 ∧ s.bits 8 (stuff B).length = stuff B ∧
      s.bits (8 + (stuff B).length) 8 = flagBits := by
  have hsplit : s.bits 0 (framed B).length =
      s.bits 0 8 ++ (s.bits 8 (stuff B).length ++ s.bits (8 + (stuff B).length) 8) := by
    rw [length_framed, bits_append, bits_append, Nat.zero_add]
  rw [State.BeginsWith, hsplit, framed, ← bits_eq_flagBits_iff, Nat.mul_zero]
  refine and_congr_right fun _ => ⟨fun h => ?_, fun ⟨h0, hB, hend⟩ => by rw [h0, hB, hend]⟩
  obtain ⟨h0, h⟩ := List.append_inj h (length_bits s 0 8)
  obtain ⟨hB, hend⟩ := List.append_inj h (length_bits s 8 _)
  exact ⟨h0, hB, hend⟩

theorem bits_infix (s : State) {a n b m : Nat} (hab : a ≤ b) (hbn : b + m ≤ a + n) : s.bits b m <:+: s.bits a n := by
  refine ⟨s.bits a (b - a), s.bits (b + m) (a + n - (b + m)), ?_⟩
  rw [List.append_assoc, ← bits_append, show b = a + (b - a) by omega, Nat.add_sub_cancel_left, ← bits_append]
  congr 1
  omega

theorem bit_of_flag {j k : Nat} (h : s.bits j 8 = flagBits) (hk : k < 8) : s.bit (j + k) = flagBits.getD k false := by
  rw [← h, getD_bits s j hk]

theorem six_ones_of_flag {j : Nat} (h : s.bits j 8 = flagBits) : s.bits (j + 1) 6 = List.replicate 6 true := by
  refine List.ext_getElem (by simp) fun k hk _ => ?_
  have hk : k < 6 := by simpa using hk
  have hones : ∀ k < 6, flagBits.getD (1 + k) false = true := by decide
  rw [getElem_bits, Nat.add_assoc, bit_of_flag h (by omega), hones k hk, List.getElem_replicate]

/-- A flag before the end flag would need six 1 bits in the stuffed body (41_bitcodec.md rule R132 (b)), or a 1 bit where the
end flag has its first 0. -/
theorem isLeast_endFlag {B : Bits} (h : s.BeginsWith (framed B)) :
    IsLeast {j | 8 ≤ j ∧ j + 8 ≤ s.bitlen.toNat ∧ s.bits j 8 = flagBits} (8 + (stuff B).length) := by
  obtain ⟨hlen, -, hB, hend⟩ := beginsWith_framed_iff.mp h
  rw [length_framed] at hlen
  refine ⟨⟨by omega, by omega, hend⟩, fun j ⟨h8, _, hj⟩ => ?_⟩
  by_contra hlt
  by_cases hin : j + 7 ≤ 8 + (stuff B).length
  · have hsix : s.bits (j + 1) 6 <:+: s.bits 8 (stuff B).length := bits_infix s (by omega) (by omega)
    rw [six_ones_of_flag hj, hB] at hsix
    exact not_six_ones_infix_stuffFrom (ones := 0) (by decide) B hsix
  · obtain ⟨k, hk⟩ : ∃ k, 8 + (stuff B).length = j + k := ⟨8 + (stuff B).length - j, by omega⟩
    have hzero : s.bit (8 + (stuff B).length) = false := bit_of_flag hend (k := 0) (by decide)
    have hones : ∀ k, 1 ≤ k → k < 7 → flagBits.getD k false = true := by decide
    rw [hk, bit_of_flag hj (by omega), hones k (by omega) (by omega)] at hzero
    cases hzero

/-- VALIDATE's body between the flags is the frame's (41_bitcodec.md rule R132 (a)). -/
theorem body_of_beginsWith_framed {B : Bits} (h : s.BeginsWith (framed B)) : s.body (8 + (stuff B).length) = B := by
  obtain ⟨-, -, hB, -⟩ := beginsWith_framed_iff.mp h
  rw [State.body, Nat.add_sub_cancel_left, hB]
  exact unstuffFrom_stuffFrom 0 B

/-! ### VALIDATE gives the frame back -/

namespace State.Closed

theorem toNat_len_putBody (hf : f.Closed) (hcfg : s.cfg = f.cfg) :
    (s.putBody f.bodyBits).len.toNat = f.len.toNat := by
  have hroom := hf.room
  have hfits := hf.fits
  rw [Machine.toNat_len_putBody (length_bodyBits f) (by rw [hcfg]; omega)]
  omega

/-- The rewrite in place restores every byte of the frame. -/
theorem fbByte_putBody (hf : f.Closed) (h0 : s.fbByte 0 = 0x7E#8) {i : Nat} (hi : i < f.len.toNat) :
    (s.putBody f.bodyBits).fbByte i = f.fbByte i := by
  have hroom := hf.room
  have hB := length_bodyBits f
  by_cases hfirst : i = 0
  · rw [hfirst, fbByte_putBody_outside hB (.inl rfl), h0, hf.header.flag]
  by_cases hlast : i = f.len.toNat - 1
  · rw [fbByte_putBody_eq hB, if_pos (by omega), hlast, hf.last]
  have hbits : (s.putBody f.bodyBits).bits 8 (8 * (f.len.toNat - 2)) = f.bits 8 (8 * (f.len.toNat - 2)) := by
    rw [bits_putBody hB, State.bodyBits, Nat.mul_sub]
  refine fbByte_eq_of_bits fun k hk => ?_
  have hbit : ∀ u : State, u.bit (8 * i + k) = (u.bits 8 (8 * (f.len.toNat - 2))).getD (8 * i + k - 8) false := fun u => by
    rw [getD_bits u 8 (by omega)]
    congr 1
    omega
  rw [hbit, hbits, ← hbit]

/-- VALIDATE on a stream that begins with a closed frame, stuffed between its flags. -/
theorem validate (hf : f.Closed) (hcfg : s.cfg = f.cfg) (h : s.BeginsWith (framed f.bodyBits)) :
    ∃ v, exec .validate s = .next v ∧ v.code = .ok ∧ v.fstate = .valid ∧ v.len = f.len ∧
      (∀ i, i < f.len.toNat → v.fbByte i = f.fbByte i) ∧
      v.ctrlOff = f.ctrlOff ∧ v.infoOff = f.infoOff ∧ v.fcsOff.toNat + 3 = f.len.toNat := by
  obtain ⟨-, h0, -, -⟩ := beginsWith_framed_iff.mp h
  have hbody := body_of_beginsWith_framed h
  have hlen := hf.toNat_len_putBody hcfg
  have hfb := fun i => hf.fbByte_putBody (s := s) h0 (i := i)
  have hparse : (s.putBody f.bodyBits).parse = .found f.ctrlOff.toNat (f.len.toNat - 1) :=
    parse_eq_found_congr hlen hfb hf.parse_eq
  have hoff : BitVec.ofNat 16 (f.len.toNat - 1 - 2) = f.fcsOff := by
    have hfcs := hf.fcsOff_add
    rw [show f.len.toNat - 1 - 2 = f.fcsOff.toNat by omega, BitVec.ofNat_toNat, BitVec.setWidth_eq]
  have hmatch : ((s.putBody f.bodyBits).recordOffsets f.ctrlOff.toNat (f.len.toNat - 1)).fcsMatches = true := by
    have hfcs := hf.fcsOff_add
    refine (fcsMatches_congr (s := f) hoff fun i hi => ?_).trans hf.fcs_matches
    exact hfb i (by omega)
  have hexec : exec .validate s = .next
      (((s.putBody f.bodyBits).recordOffsets f.ctrlOff.toNat (f.len.toNat - 1)).enter .valid |>.finish 0#32) := by
    rw [exec_validate_of_end_flag h0 (isLeast_endFlag h),
      validateBody_of_whole_bytes (m := f.len.toNat - 2) (by rw [hbody, length_bodyBits]), hbody,
      acceptBody_of_found hparse, if_pos hmatch]
  refine ⟨_, hexec, rfl, rfl, BitVec.eq_of_toNat_eq hlen, hfb, ?_, ?_, ?_⟩
  · rw [finish_ctrlOff, enter_ctrlOff, recordOffsets_ctrlOff, BitVec.ofNat_toNat, BitVec.setWidth_eq]
  · rw [finish_infoOff, enter_infoOff, recordOffsets_infoOff, ← hf.header.infoOff, BitVec.ofNat_toNat, BitVec.setWidth_eq]
  · rw [finish_fcsOff, enter_fcsOff, recordOffsets_fcsOff, hoff, hf.fcsOff_add]

end State.Closed

/-! ### The stuffed frame (41_bitcodec.md rule R137) -/

/-- A frame with the arguments that make STUFF work between its flags. -/
def State.betweenFlags (f : State) : State := { f with arg0 := 8#32, arg1 := BitVec.ofNat 32 (f.bitlen.toNat - 16) }

theorem spliced_betweenFlags (hf : f.Closed) :
    f.betweenFlags.spliced (stuff f.betweenFlags.region) = framed f.bodyBits := by
  have hroom := hf.room
  have hbit := hf.bitlen_eq
  have hcount : f.betweenFlags.argCount = 8 * f.len.toNat - 16 := by
    rw [← hbit]
    exact Nat.mod_eq_of_lt (by omega)
  have hfirst : f.betweenFlags.beforeRegion = flagBits := bits_eq_flagBits_iff.mpr hf.header.flag
  have hbody : f.betweenFlags.region = f.bodyBits := by rw [State.region, hcount]; rfl
  have hlast : f.betweenFlags.afterRegion = flagBits := by
    have hend : f.bits (8 * (f.len.toNat - 1)) 8 = flagBits := bits_eq_flagBits_iff.mpr hf.last
    have hstart : f.betweenFlags.argStart = 8 := rfl
    rw [State.afterRegion, hcount, hstart, ← hend]
    change f.bits _ (f.bitlen.toNat - _) = _
    rw [hbit]
    congr 1 <;> omega
  rw [State.spliced, hfirst, hbody, hlast, framed, List.append_assoc]

/-- The stream after STUFF: exactly the stuffed frame, and LEN is BITLEN in whole bytes. -/
theorem stuffed_of_exec (hf : f.Closed) (h : exec .stuff f.betweenFlags = .next t) (hok : t.code = .ok) :
    t.bitlen.toNat = (framed f.bodyBits).length ∧ t.len.toNat = (t.bitlen.toNat + 7) / 8 ∧
      t.BeginsWith (framed f.bodyBits) ∧ t.cfg = f.cfg := by
  cases runs_of_exec h with
  | failed _ _ _ hc _ => exact absurd hok hc
  | stuff _ hm =>
    have hbits := bits_replaceRegion f.betweenFlags (stuff f.betweenFlags.region)
    rw [spliced_betweenFlags hf] at hm hbits
    have hbit : (f.betweenFlags.replaceRegion (stuff f.betweenFlags.region)).bitlen.toNat = (framed f.bodyBits).length := by
      rw [replaceRegion_eq, spliced_betweenFlags hf]
      exact toNat_ofNat_of_le_frameBits hm
    have hlen : (f.betweenFlags.replaceRegion (stuff f.betweenFlags.region)).len.toNat =
        ((framed f.bodyBits).length + 7) / 8 := by
      rw [replaceRegion_eq, spliced_betweenFlags hf]
      exact toNat_ofNat_of_le_frameMax (c := f.cfg) (by change _ ≤ 8 * f.cfg.frameMax at hm; omega)
    exact ⟨hbit, by rw [hbit, hlen], ⟨hbit.ge, hbits⟩, rfl⟩

/-- Settles O48: the builder closes the frame, STUFF puts it on a stream, and VALIDATE gives it back. -/
theorem builtFrameValidates : Obligations.BuiltFrameValidates := by
  intro s t₁ t₂ t₃ t₄ a _ hb _ h₁ hok₁ h₂ h₃ h₄ hok₄
  have hf : t₃.Closed := closed_of_exec hb h₁ hok₁ h₂ h₃
  obtain ⟨-, -, hbegins, hcfg⟩ := stuffed_of_exec hf h₄ hok₄
  exact hf.validate hcfg hbegins

end Sys2Proof.Machine
end

section
/-! SUPPORT. The end-to-end law over the line (43_frame_parser.md rule R208, its second law): the preamble put in front of a
stream and stripped again (44_sync.md rules R235 and R236), and a whole stream coded and decoded by NRZI. -/

namespace Sys2Proof.Machine

variable {s t u x y : State}

/-! ### SYNC_PREAMBLE (44_sync.md rule R236) -/

theorem patBytes_congr (hcfg : t.cfg = s.cfg) (hpat : t.syncPat = s.syncPat) : t.patBytes = s.patBytes := by
  simp only [State.patBytes, State.patv, hcfg, hpat]

theorem addPreamble_eq (s : State) : s.addPreamble = { s with
    fb := s.addPreamble.fb
    bitlen := BitVec.ofNat 20 (s.bitlen.toNat + 16 * s.cfg.syncBytes)
    len := BitVec.ofNat 16 (s.len.toNat + 2 * s.cfg.syncBytes)
    fstate := .raw, readable := false, offv := false, fcsv := false
    code := .ok, res := BitVec.ofNat 32 (2 * s.cfg.syncBytes) } := rfl

theorem fbByte_addPreamble (s : State) (i : Nat) :
    s.addPreamble.fbByte i =
      if i < s.cfg.syncBytes then s.patBytes.getD i 0#8
      else if i < 2 * s.cfg.syncBytes then s.patBytes.getD (i - s.cfg.syncBytes) 0#8
      else if i < 2 * s.cfg.syncBytes + s.len.toNat then s.fbByte (i - 2 * s.cfg.syncBytes)
      else s.fbByte i := by
  have hfb : s.addPreamble.fbByte i = (s.setFb 0 (s.patBytes ++ s.patBytes ++ s.fbBytes 0 s.len.toNat)).fbByte i := rfl
  have hP := length_patBytes s
  rw [hfb, fbByte_setFb, List.append_assoc, List.length_append, List.length_append, length_fbBytes, hP, Nat.sub_zero]
  by_cases h1 : i < s.cfg.syncBytes
  · rw [if_pos h1, if_pos (by omega), List.getD_append _ _ _ _ (by omega)]
  rw [if_neg h1, List.getD_append_right _ _ _ _ (by omega), hP]
  by_cases h2 : i < 2 * s.cfg.syncBytes
  · rw [if_pos h2, if_pos (by omega), List.getD_append _ _ _ _ (by omega)]
  rw [if_neg h2, List.getD_append_right _ _ _ _ (by omega), hP, Nat.sub_sub, ← Nat.two_mul]
  by_cases h3 : i < 2 * s.cfg.syncBytes + s.len.toNat
  · rw [if_pos h3, if_pos (by omega), getD_fbBytes s 0 (by omega), Nat.zero_add]
  · rw [if_neg h3, if_neg (by omega)]

/-- The two copies of P that SYNC_PREAMBLE puts in front. -/
theorem fbBytes_addPreamble (s : State) {k : Nat} (hk : k < 2) :
    s.addPreamble.fbBytes (k * s.cfg.syncBytes) s.cfg.syncBytes = s.patBytes := by
  refine List.ext_getElem (by rw [length_fbBytes, length_patBytes]) fun i h1 h2 => ?_
  have hi : i < s.cfg.syncBytes := by rwa [length_fbBytes] at h1
  rw [getElem_fbBytes, fbByte_addPreamble, ← List.getD_eq_getElem _ 0#8 h2]
  obtain rfl | rfl : k = 0 ∨ k = 1 := by omega
  · rw [Nat.zero_mul, Nat.zero_add, if_pos hi]
  · rw [Nat.one_mul, if_neg (by omega), if_pos (by omega), Nat.add_sub_cancel_left]

/-- The old stream lies behind the preamble. -/
theorem bits_addPreamble (s : State) {n : Nat} (hn : n ≤ 8 * s.len.toNat) :
    s.addPreamble.bits (16 * s.cfg.syncBytes) n = s.bits 0 n := by
  refine List.map_congr_left fun j hj => ?_
  have hj := List.mem_range.mp hj
  have hbyte : (16 * s.cfg.syncBytes + j) / 8 = 2 * s.cfg.syncBytes + j / 8 := by omega
  rw [State.bit, hbyte, fbByte_addPreamble, if_neg (by omega), if_neg (by omega), if_pos (by omega),
    Nat.add_sub_cancel_left, Nat.zero_add, State.bit, show (16 * s.cfg.syncBytes + j) % 8 = j % 8 by omega]

theorem eq_addPreamble_of_exec (h : exec .syncPreamble s = .next t) (hok : t.code = .ok) :
    t = s.addPreamble ∧ s.len.toNat + 2 * s.cfg.syncBytes ≤ s.cfg.frameMax := by
  cases runs_of_exec h with
  | failed _ _ _ hc _ => exact absurd hok hc
  | syncPreamble hm => exact ⟨rfl, hm⟩

/-! ### SYNC_STRIP (44_sync.md rule R235) -/

/-- The loop removes q whole copies of P when there are q and no further one. -/
theorem stripLength_eq {q : Nat} (hfit : q * s.cfg.syncBytes ≤ s.bitlen.toNat / 8)
    (hcopies : ∀ k, k < q → s.fbBytes (k * s.cfg.syncBytes) s.cfg.syncBytes = s.patBytes)
    (hstop : ¬(q * s.cfg.syncBytes + s.cfg.syncBytes ≤ s.bitlen.toNat / 8 ∧
      s.fbBytes (q * s.cfg.syncBytes) s.cfg.syncBytes = s.patBytes)) : s.stripLength = q * s.cfg.syncBytes := by
  have hfuel : q ≤ s.bitlen.toNat / 8 := (Nat.le_mul_of_pos_right q (syncBytes_pos s.cfg)).trans hfit
  have hrun := stripFrom_eq s q (s.bitlen.toNat / 8) 0 hfuel
  simp only [Nat.zero_add] at hrun
  refine hrun (fun k hk => ⟨?_, hcopies k hk⟩) fun _ => hstop
  exact (Nat.mul_le_mul_right _ hk).trans hfit

theorem fbByte_dropBytes (s : State) (r i : Nat) :
    (s.dropBytes r).fbByte i = if i < s.len.toNat - r then s.fbByte (i + r) else s.fbByte i := by
  unfold State.dropBytes
  split
  next h => simp [h]
  next =>
    rw [fbByte_setBitlen, fbByte_setFb, length_fbBytes, Nat.zero_add, Nat.sub_zero]
    by_cases hi : i < s.len.toNat - r
    · rw [if_pos hi, if_pos ⟨Nat.zero_le i, hi⟩, getD_fbBytes s r hi, Nat.add_comm]
    · rw [if_neg hi, if_neg fun h => hi h.2]

/-- The stream moves down by the bytes removed. -/
theorem bits_dropBytes (s : State) {q n : Nat} (hn : n ≤ 8 * (s.len.toNat - q)) :
    (s.dropBytes q).bits 0 n = s.bits (8 * q) n := by
  refine List.map_congr_left fun j hj => ?_
  have hj := List.mem_range.mp hj
  rw [Nat.zero_add, State.bit, fbByte_dropBytes, if_pos (by omega), State.bit, show (8 * q + j) / 8 = j / 8 + q by omega,
    show (8 * q + j) % 8 = j % 8 by omega]

theorem bitlen_dropBytes (s : State) {q : Nat} (hq : 0 < q) :
    (s.dropBytes q).bitlen = BitVec.ofNat 20 (s.bitlen.toNat - 8 * q) := by
  rw [State.dropBytes, if_neg (Nat.ne_of_gt hq), setBitlen_bitlen]

theorem cfg_dropBytes (s : State) (q : Nat) : (s.dropBytes q).cfg = s.cfg := by
  unfold State.dropBytes
  split <;> rfl

theorem bits_finish_markRaw (s : State) (v : Word) (a n : Nat) : (s.markRaw.finish v).bits a n = s.bits a n := rfl

theorem exec_syncStrip (s : State) :
    exec .syncStrip s =
      .next ((s.dropBytes s.stripLength).markRaw.finish (BitVec.ofNat 32 s.stripLength)) := rfl

/-! ### A whole stream coded by NRZI (41_bitcodec.md rules R139 and R140) -/

/-- A block whose arguments name its whole stream. -/
def State.wholeStream (s : State) : State := { s with arg0 := 0#32, arg1 := BitVec.ofNat 32 s.bitlen.toNat }

theorem argCount_wholeStream (s : State) : s.wholeStream.argCount = s.bitlen.toNat := Nat.mod_eq_of_lt (by omega)

theorem regionFits_wholeStream (s : State) : s.wholeStream.regionFits = true :=
  (regionFits_iff _).mpr ((Nat.zero_add _).trans (argCount_wholeStream s)).le

theorem region_wholeStream (s : State) : s.wholeStream.region = s.bits 0 s.bitlen.toNat := by
  rw [State.region, argCount_wholeStream]
  rfl

theorem bits_codeRegion_wholeStream (s : State) {c : Bits × Bool} (hc : c.1.length = s.bitlen.toNat) :
    (s.wholeStream.codeRegion c).bits 0 s.bitlen.toNat = c.1 := by
  refine List.ext_getElem (by rw [length_bits, hc]) fun j h1 h2 => ?_
  have harg : s.wholeStream.arg0.toNat = 0 := rfl
  rw [getElem_bits, Nat.zero_add, bit_codeRegion, harg, if_pos (by omega), Nat.sub_zero, List.getD_eq_getElem _ _ h2]

theorem exec_nrziEnc_wholeStream (b : Bool) (s : State) : exec (.nrziEnc b) s.wholeStream =
    .next (s.wholeStream.codeRegion (nrziEncode (s.bits 0 s.bitlen.toNat) b)) := by
  rw [← region_wholeStream]
  exact congrArg Host.Outcome.next (if_pos (regionFits_wholeStream s))

theorem exec_nrziDec_wholeStream (b : Bool) (s : State) : exec (.nrziDec b) s.wholeStream =
    .next (s.wholeStream.codeRegion (nrziDecode (s.bits 0 s.bitlen.toNat) b)) := by
  rw [← region_wholeStream]
  exact congrArg Host.Outcome.next (if_pos (regionFits_wholeStream s))

/-- What the receiver decodes of a coded stream, with whatever bits behind it, begins with the sender's stream. -/
theorem bits_nrzi_round_trip (b : Bool) (hlen : x.bitlen.toNat ≤ y.bitlen.toNat)
    (hline : y.bits 0 x.bitlen.toNat = (nrziEncode (x.bits 0 x.bitlen.toNat) b).1) :
    (y.wholeStream.codeRegion (nrziDecode (y.bits 0 y.bitlen.toNat) b)).bits 0 x.bitlen.toNat =
      x.bits 0 x.bitlen.toNat := by
  obtain ⟨n, hn⟩ := Nat.exists_eq_add_of_le hlen
  have hall := bits_codeRegion_wholeStream y (c := nrziDecode (y.bits 0 y.bitlen.toNat) b)
    (by rw [length_nrziDecode, length_bits])
  generalize y.wholeStream.codeRegion (nrziDecode (y.bits 0 y.bitlen.toNat) b) = z at hall
  rw [hn, bits_append, bits_append y, hline, nrziDecode_append, nrziDecode_nrziEncode] at hall
  exact (List.append_inj hall (by rw [length_bits, length_bits])).1

/-! ### The received stream -/

theorem bit_eq_of_bits_eq {n j : Nat} (h : t.bits 0 n = s.bits 0 n) (hj : j < n) : t.bit j = s.bit j := by
  have ht := getD_bits t 0 hj
  rwa [h, getD_bits s 0 hj, Nat.zero_add, eq_comm] at ht

theorem fbByte_eq_of_bits_eq {n i : Nat} (h : t.bits 0 n = s.bits 0 n) (hi : 8 * i + 8 ≤ n) :
    t.fbByte i = s.fbByte i :=
  fbByte_eq_of_bits fun _ _ => bit_eq_of_bits_eq h (by omega)

/-- A stream that agrees with a preambled one begins with two copies of P, and a byte other than P's first ends them. -/
theorem stripLength_of_preamble (hcfg : y.cfg = x.cfg) (hpat : y.syncPat = x.syncPat)
    (hfit : 2 * x.cfg.syncBytes ≤ y.bitlen.toNat / 8) (hlen : 1 ≤ x.len.toNat)
    (hfb : ∀ i, i ≤ 2 * x.cfg.syncBytes → y.fbByte i = x.addPreamble.fbByte i)
    (hP : x.patBytes.head? ≠ some (x.fbByte 0)) : y.stripLength = 2 * x.cfg.syncBytes := by
  have hw := syncBytes_pos x.cfg
  rw [← hcfg]
  refine stripLength_eq (by rw [hcfg]; exact hfit) (fun k hk => ?_) fun ⟨_, hthird⟩ => hP ?_
  · rw [hcfg, patBytes_congr hcfg hpat, ← fbBytes_addPreamble x hk]
    refine fbBytes_congr fun i _ hi => hfb i ?_
    have : (k + 1) * x.cfg.syncBytes ≤ 2 * x.cfg.syncBytes := Nat.mul_le_mul_right _ hk
    rw [Nat.add_mul] at this
    omega
  · rw [hcfg, patBytes_congr hcfg hpat] at hthird
    have hnext : x.addPreamble.fbByte (2 * x.cfg.syncBytes) = x.fbByte 0 := by
      rw [fbByte_addPreamble, if_neg (by omega), if_neg (by omega), if_pos (by omega), Nat.sub_self]
    rw [← hthird, ← hnext, ← hfb _ le_rfl, List.head?_eq_getElem?, List.getElem?_eq_getElem (by rw [length_fbBytes]; exact hw),
      getElem_fbBytes, Nat.add_zero]

/-- SYNC_STRIP takes the preamble off a stream that agrees with a preambled one, rounded up to whole bytes. -/
theorem beginsWith_of_syncStrip {S : Bits} (hS : x.BeginsWith S) (h8 : 8 ≤ x.bitlen.toNat)
    (hx : x.bitlen.toNat ≤ 8 * x.len.toNat) (hcfg : y.cfg = x.cfg) (hpat : y.syncPat = x.syncPat)
    (hlen : y.len.toNat = x.len.toNat + 2 * x.cfg.syncBytes) (hbit : y.bitlen.toNat = 8 * y.len.toNat)
    (hbits : y.bits 0 (16 * x.cfg.syncBytes + x.bitlen.toNat) =
      x.addPreamble.bits 0 (16 * x.cfg.syncBytes + x.bitlen.toNat))
    (hP : x.patBytes.head? ≠ some (x.fbByte 0)) (h : exec .syncStrip y = .next u) :
    u.BeginsWith S ∧ u.cfg = x.cfg := by
  have hw := syncBytes_pos x.cfg
  have hstrip : y.stripLength = 2 * x.cfg.syncBytes :=
    stripLength_of_preamble hcfg hpat (by omega) (by omega) (fun i hi => fbByte_eq_of_bits_eq hbits (by omega)) hP
  rw [exec_syncStrip, hstrip] at h
  cases h
  obtain ⟨hle, hS⟩ := hS
  have hmoved : (y.dropBytes (2 * x.cfg.syncBytes)).bits 0 S.length = x.bits 0 S.length := by
    rw [bits_dropBytes y (by omega), ← bits_addPreamble x (by omega), ← Nat.mul_assoc]
    exact bits_congr fun j _ hj => bit_eq_of_bits_eq hbits (by omega)
  refine ⟨⟨?_, ?_⟩, ?_⟩
  · rw [finish_bitlen, markRaw_bitlen, bitlen_dropBytes y (by omega), BitVec.toNat_ofNat, Nat.mod_eq_of_lt (by omega)]
    omega
  · rw [bits_finish_markRaw, hmoved, hS]
  · rw [finish_cfg, markRaw_cfg, cfg_dropBytes, hcfg]

/-- NRZI_ENC of a whole stream, a copy of its bytes with LEN into another block, and NRZI_DEC of the whole stream there: the
receiver has the sender's stream, rounded up to whole bytes. -/
theorem decoded_of_exec {r : State} {b : Bool} (hx : x.bitlen.toNat ≤ 8 * x.len.toNat)
    (hfit : x.len.toNat ≤ x.cfg.frameMax) (henc : exec (.nrziEnc b) x.wholeStream = .next t)
    (hcfg : r.cfg = t.cfg) (hpat : r.syncPat = t.syncPat) (hlen : r.len = t.len)
    (hbit : r.bitlen = BitVec.ofNat 20 (8 * t.len.toNat)) (hcopy : ∀ i, i < t.len.toNat → r.fbByte i = t.fbByte i)
    (hdec : exec (.nrziDec b) r.wholeStream = .next y) :
    y.bits 0 x.bitlen.toNat = x.bits 0 x.bitlen.toNat ∧ y.cfg = x.cfg ∧ y.syncPat = x.syncPat ∧ y.len = x.len ∧
      y.bitlen.toNat = 8 * x.len.toNat := by
  rw [exec_nrziEnc_wholeStream] at henc
  rw [exec_nrziDec_wholeStream] at hdec
  cases henc
  cases hdec
  have hcoded := bits_codeRegion_wholeStream x (c := nrziEncode (x.bits 0 x.bitlen.toNat) b)
    (by rw [length_nrziEncode, length_bits])
  generalize hu : x.wholeStream.codeRegion (nrziEncode (x.bits 0 x.bitlen.toNat) b) = u at *
  have hul : u.len = x.len := by rw [← hu, codeRegion_eq]; rfl
  have huc : u.cfg = x.cfg := by rw [← hu, codeRegion_eq]; rfl
  have hup : u.syncPat = x.syncPat := by rw [← hu, codeRegion_eq]; rfl
  rw [hul] at hbit hcopy
  have hrbit : r.bitlen.toNat = 8 * x.len.toNat := by
    rw [hbit, toNat_ofNat_of_le_frameBits (c := x.cfg) (by omega)]
  have hline : r.bits 0 x.bitlen.toNat = u.bits 0 x.bitlen.toNat :=
    bits_congr fun j _ hj => bit_congr (hcopy _ (by omega))
  refine ⟨bits_nrzi_round_trip b (by omega) (hline.trans hcoded), ?_, ?_, ?_, ?_⟩
  · rw [codeRegion_eq]; exact hcfg.trans huc
  · rw [codeRegion_eq]; exact hpat.trans hup
  · rw [codeRegion_eq]; exact hlen.trans hul
  · rw [codeRegion_eq]; exact hrbit

/-- Settles O49: the receiver's stream is the stuffed frame again, with pad bits behind the end flag. -/
theorem builtFrameValidatesOverTheLine : Obligations.BuiltFrameValidatesOverTheLine := by
  intro s t₁ t₂ t₃ t₄ t₅ t₆ r t₈ t₉ a start _ hb _ h₁ hok₁ h₂ h₃ h₄ hok₄ hP h₅ hok₅ h₆ hcfg hpat hlen hbit hcopy h₈ h₉
  have hf : t₃.Closed := closed_of_exec hb h₁ hok₁ h₂ h₃
  obtain ⟨hbit₄, hlen₄, hbegins, hcfg₄⟩ := stuffed_of_exec hf h₄ hok₄
  obtain ⟨rfl, hm⟩ := eq_addPreamble_of_exec h₅ hok₅
  obtain ⟨-, h0, -, -⟩ := beginsWith_framed_iff.mp hbegins
  have h8 : 8 ≤ t₄.bitlen.toNat := by rw [hbit₄, length_framed]; omega
  have hlen₅ : t₄.addPreamble.len.toNat = t₄.len.toNat + 2 * t₄.cfg.syncBytes := toNat_ofNat_of_le_frameMax hm
  have hbit₅ : t₄.addPreamble.bitlen.toNat = 16 * t₄.cfg.syncBytes + t₄.bitlen.toNat := by
    rw [Nat.add_comm]
    exact toNat_ofNat_of_le_frameBits (c := t₄.cfg) (by omega)
  obtain ⟨hbits, hcfg₈, hpat₈, hlen₈, hbit₈⟩ :=
    decoded_of_exec (by omega) (by rw [hlen₅]; exact hm) h₆ hcfg hpat hlen hbit hcopy h₈
  rw [hbit₅] at hbits
  rw [← hlen₈] at hlen₅ hbit₈
  obtain ⟨hbegins₉, hcfg₉⟩ := beginsWith_of_syncStrip hbegins h8 (by omega) hcfg₈ hpat₈ hlen₅ hbit₈ hbits
    (by rw [h0]; exact hP) h₉
  exact hf.validate (hcfg₉.trans hcfg₄) hbegins₉

end Sys2Proof.Machine
end

section
/-! SUPPORT. The Line step of the sync-word unit (44_sync.md rules R231 to R234): a line bit by the state of the detector, and
what an armed detector has seen of the bits since it was armed. -/

namespace Sys2Proof.Machine

variable {s t u : State}

/-! ### One line bit (rule R232) -/

theorem lineBit_of_disarmed (h : s.syncEn = false) (b : Bool) : s.lineBit b = s := by
  rw [State.lineBit, h, if_neg Bool.false_ne_true]

theorem lineBit_of_match {b : Bool} (h : s.syncEn = true) (hd : s.detects b = true) :
    s.lineBit b = { s with syncSr := s.shiftedSr b, syncCnt := s.nextCnt, syncDet := true, syncEn := false } := by
  rw [State.lineBit, if_pos h, hd, Bool.or_true, Bool.not_true]

theorem lineBit_of_no_match {b : Bool} (h : s.syncEn = true) (hd : s.detects b = false) :
    s.lineBit b = { s with syncSr := s.shiftedSr b, syncCnt := s.nextCnt } := by
  rw [State.lineBit, if_pos h, hd, Bool.or_false, Bool.not_false, ← h]

/-- A match, with the register and the pattern as numbers. -/
theorem detects_iff (s : State) (b : Bool) :
    s.detects b = true ↔ min (s.syncCnt + 1) s.cfg.syncBits = s.cfg.syncBits ∧
      (s.shiftedSr b).toNat = s.syncPat.toNat % 2 ^ s.cfg.syncBits := by
  rw [State.detects, Bool.and_eq_true, beq_iff_eq, beq_iff_eq, ← BitVec.toNat_inj, State.patv, toNat_and_syncMask,
    State.nextCnt]

/-- Settles O14: the three cases of a line bit, with the register as a number. -/
theorem lineBitStep : Obligations.LineBitStep := by
  intro s b rest hin
  rw [step_cons hin, perform_lineBit]
  refine ⟨fun hen => ?_, fun hen => ⟨s.shiftedSr b, toNat_shiftedSr s b, ?_, ?_⟩⟩
  · exact congrArg _ (lineBit_of_disarmed (s := { s with inputs := rest }) hen b)
  · exact fun hm => congrArg _ (lineBit_of_match hen ((detects_iff _ b).mpr hm))
  · exact fun hm => congrArg _ (lineBit_of_no_match hen (Bool.eq_false_iff.mpr fun hd => hm ((detects_iff _ b).mp hd)))

/-! ### SYNC_CTL (rule R234) -/

/-- Settles O51: the command is a record update for each value of EN. -/
theorem syncCtlEffect : Obligations.SyncCtlEffect :=
  fun _ => ⟨Laws.wordF1_eq_append 0x50#8, rfl, rfl⟩

/-! ### A line bit sequence as a number -/

/-- The number of a bit sequence, its first bit most significant. -/
def bitsNumber (bs : Bits) : Nat := bs.foldl (fun v b => 2 * v + b.toNat) 0

theorem bitsNumber_concat (bs : Bits) (b : Bool) : bitsNumber (bs ++ [b]) = 2 * bitsNumber bs + b.toNat := by
  rw [bitsNumber, List.foldl_append]
  rfl

theorem bitsNumber_append (xs ys : Bits) :
    bitsNumber (xs ++ ys) = 2 ^ ys.length * bitsNumber xs + bitsNumber ys := by
  induction ys using List.reverseRecOn with
  | nil => simp [bitsNumber]
  | append_singleton ys b ih =>
    rw [← List.append_assoc, bitsNumber_concat, ih, bitsNumber_concat, List.length_append, List.length_singleton]
    ring

theorem bitsNumber_lt (bs : Bits) : bitsNumber bs < 2 ^ bs.length := by
  induction bs using List.reverseRecOn with
  | nil => exact Nat.one_pos
  | append_singleton bs b ih =>
    have := Bool.toNat_le b
    rw [bitsNumber_concat, List.length_append, List.length_singleton, Nat.pow_succ]
    omega

/-- The last n bits of a sequence, as the low bits of its number. -/
theorem bitsNumber_drop {n : Nat} {bs : Bits} (h : n ≤ bs.length) :
    bitsNumber (bs.drop (bs.length - n)) = bitsNumber bs % 2 ^ n := by
  have hlen : (bs.drop (bs.length - n)).length = n := by rw [List.length_drop]; omega
  have hlt := bitsNumber_lt (bs.drop (bs.length - n))
  have hsplit := bitsNumber_append (bs.take (bs.length - n)) (bs.drop (bs.length - n))
  rw [List.take_append_drop, hlen] at hsplit
  rw [hlen] at hlt
  rw [hsplit, Nat.mul_add_mod, Nat.mod_eq_of_lt hlt]

/-! ### What an armed detector has seen (rules R232 and R234) -/

/-- `width` consecutive bits of the sequence are the number `v`. -/
def Contains (width v : Nat) (bs : Bits) : Prop :=
  ∃ n, width ≤ n ∧ n ≤ bs.length ∧ bitsNumber ((bs.take n).drop (n - width)) = v

theorem not_contains_nil {width v : Nat} (h : 0 < width) : ¬Contains width v [] := by
  rintro ⟨n, hn, h0, -⟩
  rw [List.length_nil] at h0
  omega

/-- One more bit shows the pattern when the bits before it did, or the last ones are the pattern. -/
theorem contains_concat {width v : Nat} {bs : Bits} {b : Bool} :
    Contains width v (bs ++ [b]) ↔
      Contains width v bs ∨ width ≤ bs.length + 1 ∧ bitsNumber (bs ++ [b]) % 2 ^ width = v := by
  have hlen : (bs ++ [b]).length = bs.length + 1 := by rw [List.length_append, List.length_singleton]
  have hlast (h : width ≤ bs.length + 1) :
      bitsNumber (((bs ++ [b]).take (bs.length + 1)).drop (bs.length + 1 - width)) = bitsNumber (bs ++ [b]) % 2 ^ width := by
    rw [← hlen, List.take_length, bitsNumber_drop (hlen ▸ h)]
  constructor
  · rintro ⟨n, hw, hn, hv⟩
    rw [hlen] at hn
    obtain hn | rfl := Nat.le_succ_iff.mp hn
    · exact .inl ⟨n, hw, hn, by rwa [List.take_append_of_le_length hn] at hv⟩
    · exact .inr ⟨hw, hlast hw ▸ hv⟩
  · rintro (⟨n, hw, hn, hv⟩ | ⟨hw, hv⟩)
    · exact ⟨n, hw, by omega, by rwa [List.take_append_of_le_length hn]⟩
    · exact ⟨bs.length + 1, hw, hlen.ge, (hlast hw).trans hv⟩

/-- `u` is the detector of `s`, armed at some time, after the line bits `bs` since then: it has detected the pattern exactly
when they contain it, and until then it is armed and has shifted all of them in. -/
structure State.Watched (s : State) (bs : Bits) (u : State) : Prop where
  cfg : u.cfg = s.cfg
  syncPat : u.syncPat = s.syncPat
  armed : u.syncEn = !u.syncDet
  detected : u.syncDet = true ↔ Contains s.cfg.syncBits (s.syncPat.toNat % 2 ^ s.cfg.syncBits) bs
  register : u.syncDet = false → u.syncSr.toNat = bitsNumber bs % 2 ^ s.cfg.syncBits
  counter : u.syncDet = false → u.syncCnt = min bs.length s.cfg.syncBits

theorem syncBits_pos (c : Config) : 0 < c.syncBits := Nat.mul_pos (by decide) (syncBytes_pos c)

/-- SYNC_CTL 1 starts from an empty register. -/
theorem watched_of_arm (h : exec (.syncCtl true) s = .next t) : s.Watched [] t := by
  cases h
  exact
    { cfg := rfl
      syncPat := rfl
      armed := rfl
      detected := iff_of_false Bool.false_ne_true (not_contains_nil (syncBits_pos s.cfg))
      register := fun _ => (Nat.zero_mod _).symm
      counter := fun _ => (Nat.zero_min _).symm }

/-- The register after one more bit is the number of all bits since arming, modulo its width. -/
theorem State.Watched.shiftedSr_eq {bs : Bits} (h : s.Watched bs u) (hdet : u.syncDet = false) (b : Bool) :
    (u.shiftedSr b).toNat = bitsNumber (bs ++ [b]) % 2 ^ s.cfg.syncBits := by
  rw [toNat_shiftedSr, h.cfg, h.register hdet, bitsNumber_concat]
  exact ((Nat.mod_modEq _ _).mul_left 2).add_right _

theorem State.Watched.nextCnt_eq {bs : Bits} (h : s.Watched bs u) (hdet : u.syncDet = false) :
    u.nextCnt = min (bs.length + 1) s.cfg.syncBits := by
  rw [State.nextCnt, h.counter hdet, h.cfg]
  omega

/-- An armed detector detects with the bit that completes the pattern. -/
theorem State.Watched.detects_iff_contains {bs : Bits} (h : s.Watched bs u) (hdet : u.syncDet = false) (b : Bool) :
    u.detects b = true ↔ Contains s.cfg.syncBits (s.syncPat.toNat % 2 ^ s.cfg.syncBits) (bs ++ [b]) := by
  have hold : ¬Contains s.cfg.syncBits (s.syncPat.toNat % 2 ^ s.cfg.syncBits) bs := by
    rw [← h.detected, hdet]
    exact Bool.false_ne_true
  rw [detects_iff, ← State.nextCnt, h.nextCnt_eq hdet, h.shiftedSr_eq hdet, h.cfg, h.syncPat, contains_concat,
    or_iff_right hold, min_eq_right_iff]

theorem State.Watched.lineBit {bs : Bits} (h : s.Watched bs u) (b : Bool) : s.Watched (bs ++ [b]) (u.lineBit b) := by
  cases hdet : u.syncDet with
  | true =>
    rw [lineBit_of_disarmed (by rw [h.armed, hdet, Bool.not_true])]
    exact
      { h with
        detected := iff_of_true hdet (contains_concat.mpr (.inl (h.detected.mp hdet)))
        register := fun hf => absurd (hdet.symm.trans hf) nofun
        counter := fun hf => absurd (hdet.symm.trans hf) nofun }
  | false =>
    have hen : u.syncEn = true := by rw [h.armed, hdet, Bool.not_false]
    have hiff := h.detects_iff_contains hdet b
    cases hm : u.detects b with
    | true =>
      rw [lineBit_of_match hen hm]
      exact
        { cfg := h.cfg
          syncPat := h.syncPat
          armed := rfl
          detected := iff_of_true rfl (hiff.mp hm)
          register := nofun
          counter := nofun }
    | false =>
      rw [lineBit_of_no_match hen hm]
      exact
        { cfg := h.cfg
          syncPat := h.syncPat
          armed := h.armed
          detected := by rw [← hiff, hm]; exact iff_of_false (by simp [hdet]) Bool.false_ne_true
          register := fun _ => h.shiftedSr_eq hdet b
          counter := fun _ => by rw [List.length_append, List.length_singleton]; exact h.nextCnt_eq hdet }

theorem State.Watched.foldl_lineBit (h : s.Watched [] t) (bs : Bits) : s.Watched bs (bs.foldl State.lineBit t) := by
  induction bs using List.reverseRecOn with
  | nil => exact h
  | append_singleton bs b ih =>
    rw [List.foldl_append]
    exact ih.lineBit b

/-- Settles O55: the detector that SYNC_CTL 1 has armed is watched through all line bits. -/
theorem detectorFindsExactlyThePattern : Obligations.DetectorFindsExactlyThePattern :=
  fun _ _ bs h => ((watched_of_arm h).foldl_lineBit bs).detected

end Sys2Proof.Machine
end

section
/-! SUPPORT. The sync pattern in a stream (44_sync.md rules R230, R235 and R236): its byte form, the copies of it that SYNC_STRIP
removes and those that SYNC_PREAMBLE puts in front. -/

namespace Sys2Proof.Machine

/-! ### The byte form of the pattern (rule R230) -/

theorem syncBits_mem (c : Config) : c.syncBits ∈ [8, 16, 24, 32] := by
  rw [Config.syncBits, Config.syncBytes]
  split <;> decide

/-- P[j] is a digit of PATV in base 256. -/
theorem toNat_getD_patBytes (s : State) {j : Nat} (h : j < s.cfg.syncBytes) :
    (s.patBytes.getD j 0#8).toNat = s.patv.toNat / 2 ^ (s.cfg.syncBits - 8 - 8 * j) % 256 := by
  rw [List.getD_eq_getElem _ _ (by rwa [length_patBytes])]
  simp only [State.patBytes, List.getElem_map, List.getElem_range, BitVec.extractLsb'_toNat, Nat.shiftRight_eq_div_pow]

/-- Settles O50: the four widths, the mask as a remainder, and the bytes of P. -/
theorem patternByteForm : Obligations.PatternByteForm :=
  fun s => ⟨syncBits_mem s.cfg, (Nat.mul_div_cancel_left _ (by decide)).symm, toNat_and_syncMask s.cfg s.syncPat,
    length_patBytes s, fun _ => toNat_getD_patBytes s⟩

/-! ### SYNC_STRIP (rule R235) -/

/-- With LEN the ceiling of BITLEN / 8 (10_state.md rule R36), removing no byte is the general case. -/
theorem dropBytes_eq {s : State} (h : s.len.toNat = (s.bitlen.toNat + 7) / 8) (r : Nat) :
    s.dropBytes r = { s with
      fb := (s.dropBytes r).fb
      bitlen := BitVec.ofNat 20 (s.bitlen.toNat - 8 * r)
      len := BitVec.ofNat 16 ((s.bitlen.toNat - 8 * r + 7) / 8) } := by
  by_cases hr : r = 0
  · subst hr
    rw [Nat.mul_zero, Nat.sub_zero, ← h, State.dropBytes, if_pos rfl]
    simp only [BitVec.ofNat_toNat, BitVec.setWidth_eq]
  · rw [State.dropBytes, if_neg hr]
    rfl

/-- Settles O52: the loop stops at the q-th copy of P, and the bytes behind it move down. -/
theorem syncStripEffect : Obligations.SyncStripEffect := by
  rintro s q _ hlen rfl hfit hcopies hstop
  refine ⟨rfl, _, exec_syncStrip s, ?_, fun i => ?_⟩
  · rw [stripLength_eq hfit hcopies hstop, dropBytes_eq hlen]
    rfl
  · rw [stripLength_eq hfit hcopies hstop, fbByte_finish, fbByte_markRaw, fbByte_dropBytes]

/-! ### SYNC_PREAMBLE (rule R236) -/

/-- Settles O53: one check, and the two copies of P with the old bytes behind them. -/
theorem syncPreambleEffect : Obligations.SyncPreambleEffect := by
  rintro s _ rfl
  refine ⟨rfl, fun hm => congrArg Host.Outcome.next (if_pos hm), fun hm => ⟨s.addPreamble, ?_, addPreamble_eq s, ?_⟩⟩
  · exact congrArg Host.Outcome.next (if_neg (Nat.not_lt_of_le hm))
  · exact fbByte_addPreamble s

/-- The old bytes lie behind the preamble. -/
theorem fbByte_addPreamble_add (s : State) {i : Nat} (h : i < s.len.toNat) :
    s.addPreamble.fbByte (i + 2 * s.cfg.syncBytes) = s.fbByte i := by
  rw [fbByte_addPreamble, if_neg (by omega), if_neg (by omega), if_pos (by omega), Nat.add_sub_cancel]

theorem fbBytes_behind_preamble (s : State) {n : Nat} (h : n ≤ s.len.toNat) :
    s.addPreamble.fbBytes (2 * s.cfg.syncBytes) n = s.fbBytes 0 n := by
  refine List.map_congr_left fun k hk => ?_
  rw [Nat.add_comm, fbByte_addPreamble_add s ((List.mem_range.mp hk).trans_le h), Nat.zero_add]

/-- Settles O54: the grown stream begins with two copies of P and, behind them, the old stream, which begins with none. -/
theorem stripUndoesPreamble : Obligations.StripUndoesPreamble := by
  intro s t u hinv hnone h hok hu
  obtain ⟨rfl, hm⟩ := eq_addPreamble_of_exec h hok
  have hlen := hinv.len_eq
  have hlen' := (hinv.addPreamble hm).len_eq
  have hbit' : s.addPreamble.bitlen.toNat = s.bitlen.toNat + 16 * s.cfg.syncBytes :=
    toNat_ofNat_of_le_frameBits (c := s.cfg) (by omega)
  have hthird : ¬(2 * s.cfg.syncBytes + s.cfg.syncBytes ≤ s.addPreamble.bitlen.toNat / 8 ∧
      s.addPreamble.fbBytes (2 * s.cfg.syncBytes) s.cfg.syncBytes = s.addPreamble.patBytes) := by
    rintro ⟨hfit, hcopy⟩
    have hw : s.cfg.syncBytes ≤ s.bitlen.toNat / 8 := by omega
    exact hnone ⟨hw, (fbBytes_behind_preamble s (by omega)).symm.trans hcopy⟩
  obtain ⟨-, v, hv, heq, hfb⟩ := syncStripEffect s.addPreamble 2 (2 * s.cfg.syncBytes) hlen' rfl (by omega)
    (fun k hk => fbBytes_addPreamble s hk) hthird
  obtain rfl := Host.Outcome.next.inj (hu.symm.trans hv)
  have hback : s.addPreamble.bitlen.toNat - 8 * (2 * s.cfg.syncBytes) = s.bitlen.toNat := by omega
  rw [hback, ← hlen] at heq
  simp only [BitVec.ofNat_toNat, BitVec.setWidth_eq] at heq
  refine ⟨by rw [heq]; rfl, by rw [heq], by rw [heq], fun i hi => ?_⟩
  rw [hfb, if_pos (by omega), fbByte_addPreamble_add s hi]

end Sys2Proof.Machine
end

section
/-! SUPPORT. How a command ends (60_exceptions.md): the fields no ending writes (rule R260), and what a failure changes
(rule R263). -/

namespace Sys2Proof.Machine

variable {s t : State}

/-! ### What no command writes (rule R260, 10_state.md rule R21) -/

/-- CMD and its operands (10_state.md rules R24 and R25), with the model's own record of the agents' steps. -/
structure AgentFields where
  /-- CMD -/
  cmd : Word
  /-- ARG0 -/
  arg0 : Word
  /-- ARG1 -/
  arg1 : Word
  /-- the steps still to come -/
  inputs : List Input
  /-- the answer to the last Host read -/
  hostData : Option Word
  /-- the assertions of `rst` -/
  resets : Nat

/-- The fields of a state that only the Host's accesses and `rst` write. -/
def State.agentFields (s : State) : AgentFields := ⟨s.cmd, s.arg0, s.arg1, s.inputs, s.hostData, s.resets⟩

/-- SYNC_STRIP moves bytes of FB and shortens the stream (44_sync.md rule R235). -/
theorem dropBytes_eq_update (s : State) (r : Nat) : s.dropBytes r =
    { s with fb := (s.dropBytes r).fb, bitlen := (s.dropBytes r).bitlen, len := (s.dropBytes r).len } := by
  unfold State.dropBytes
  split <;> rfl

/-- No ending of a command writes the agents' fields, and GET_SOURCE alone writes AB (43_frame_parser.md rule R206). -/
theorem agentFields_ab_of_runs {i : Instr} (h : s.Runs i t) :
    t.agentFields = s.agentFields ∧ ((∀ a, i ≠ .getSource a) → t.ab = s.ab) := by
  unfold State.agentFields
  cases h with
  | getSource a => exact ⟨rfl, fun hi => absurd rfl (hi a)⟩
  | fcsAppend => simp [State.appendFcs]
  | stuff => rw [replaceRegion_eq]; simp
  | unstuff => rw [replaceRegion_eq]; simp
  | nrziEnc start => rw [codeRegion_eq]; simp
  | nrziDec start => rw [codeRegion_eq]; simp
  | insDest => simp [State.insertDest]
  | insSrc => simp [State.insertSrc]
  | insPaths => simp [State.insertPaths]
  | insInfo => simp [State.insertInfo]
  | flagAppend => simp [State.appendFlag]
  | rejectedBody => simp [State.putBody]
  | rejectedFcs => simp [State.putBody]
  | validated => simp [State.putBody]
  | syncStrip => rw [dropBytes_eq_update]; simp
  | syncPreamble => simp [State.addPreamble]
  | _ => simp

/-- Settles O7: every command has an ending, and no ending writes these fields. -/
theorem commandsAlwaysComplete : Obligations.CommandsAlwaysComplete := by
  intro i s
  obtain ⟨t, hx, hr⟩ := exists_exec_runs i s
  obtain ⟨hagents, hab⟩ := agentFields_ab_of_runs hr
  obtain ⟨hcmd, harg0, harg1, hin, hdata, hresets⟩ := AgentFields.mk.inj hagents
  obtain ⟨hpat, hcfg⟩ := syncPat_cfg_of_runs hr
  exact ⟨t, hx, hcmd, harg0, harg1, hpat, hcfg, hin, hdata, hresets, hab⟩

/-! ### Failures (rule R263) -/

/-- But for VALIDATE, a failure is `raise`. -/
theorem eq_raise_of_runs {i : Instr} (h : s.Runs i t) (hi : i ≠ .validate) (hne : t.code ≠ .ok) :
    t = s.raise t.code t.res := by
  cases h with
  | failed => rfl
  | rejected r => exact absurd rfl hi
  | rejectedBody p r => exact absurd rfl hi
  | rejectedFcs p c e => exact absurd rfl hi
  | _ => exact absurd rfl hne

/-- The state with the stream and the offsets of another. -/
def State.withFrame (s u : State) : State :=
  { s with
    fb := u.fb, len := u.len, bitlen := u.bitlen
    ctrlOff := u.ctrlOff, infoOff := u.infoOff, fcsOff := u.fcsOff }

/-- `s.Rejects t`: VALIDATE may fail from `s` in `t`, before it writes FB for the reasons 1 to 3 and after that for the
reasons 4 to 6 (43_frame_parser.md rules R203 and R204). -/
inductive State.Rejects (s : State) : State → Prop where
  | unframed (r : Word) (h1 : 1 ≤ r.toNat) (h3 : r.toNat ≤ 3) : s.Rejects (s.invalidate r)
  | rewritten (u : State) (r : Word) (h4 : 4 ≤ r.toNat) (h6 : r.toNat ≤ 6) :
      s.Rejects ((s.withFrame u).invalidate r)

/-- The checks after the rewrite of FB. -/
theorem ok_or_rejects_acceptBody (s : State) (B : Bits) :
    (s.putBody B).acceptBody.code = .ok ∨ s.Rejects (s.putBody B).acceptBody := by
  cases hp : (s.putBody B).parse with
  | noControl =>
    rw [acceptBody_of_noControl hp]
    exact .inr (.rewritten (s.putBody B) 4#32 (by decide) (by decide))
  | noFlag =>
    rw [acceptBody_of_noFlag hp]
    exact .inr (.rewritten (s.putBody B) 5#32 (by decide) (by decide))
  | found c e =>
    rw [acceptBody_of_found hp]
    split
    · exact .inl rfl
    · exact .inr (.rewritten ((s.putBody B).recordOffsets c e) 6#32 (by decide) (by decide))

/-- VALIDATE ends OK or rejects the stream. -/
theorem ok_or_rejects_of_exec_validate (hx : exec .validate s = .next t) : t.code = .ok ∨ s.Rejects t := by
  cases hx
  split
  · exact .inr (.unframed 1#32 (by decide) (by decide))
  · cases s.findEndFlag with
    | none => exact .inr (.unframed 2#32 (by decide) (by decide))
    | some p =>
      change (s.validateBody p).code = .ok ∨ s.Rejects (s.validateBody p)
      unfold State.validateBody
      split
      · exact .inr (.unframed 3#32 (by decide) (by decide))
      · exact ok_or_rejects_acceptBody s (s.body p)

/-- Settles O56: a failure is `raise`, and for VALIDATE a rejection. -/
theorem failureChangesOnlyCodeAndRes : Obligations.FailureChangesOnlyCodeAndRes := by
  intro i s t hx hne
  refine ⟨fun hi => eq_raise_of_runs (runs_of_exec hx) hi hne, ?_⟩
  rintro rfl
  cases (ok_or_rejects_of_exec_validate hx).resolve_left hne with
  | unframed r h1 h3 =>
    exact ⟨rfl, rfl, rfl, rfl, rfl, h1, h3.trans (by decide), rfl, rfl, rfl, rfl, rfl, rfl, rfl,
      fun _ => ⟨rfl, rfl, rfl, rfl, rfl, rfl⟩⟩
  | rewritten u r h4 h6 =>
    refine ⟨rfl, rfl, rfl, rfl, rfl, le_trans (by decide) h4, h6, rfl, rfl, rfl, rfl, rfl, rfl, rfl, fun h3 => ?_⟩
    exact absurd (h4.trans h3) (by decide)

end Sys2Proof.Machine
end

section
/-! SUPPORT. The steps still to come apart from the rest of the block (20_memory.md rule R68, 70_reset_and_hazards.md rule
R300): no step reads those behind it, so a run does the same whatever follows it. -/

namespace Sys2Proof.Machine

variable {s t : State}

/-! ### The commands and the steps still to come -/

/-- The state with other steps still to come. -/
def State.withInputs (is : List Input) (s : State) : State := { s with inputs := is }

@[simp] theorem withInputs_self (s : State) : s.withInputs s.inputs = s := rfl

section
variable (is : List Input)

theorem withInputs_ite (c : Prop) [Decidable c] (s t : State) :
    (if c then s else t).withInputs is = if c then s.withInputs is else t.withInputs is := apply_ite _ c s t

theorem setBits_withInputs (bs : Bits) (s : State) (a : Nat) :
    (s.withInputs is).setBits a bs = (s.setBits a bs).withInputs is := by
  induction bs generalizing s a with
  | nil => rfl
  | cons b bs ih => exact ih (s.setBit a b) (a + 1)

theorem codeRegion_withInputs (s : State) (r : Bits × Bool) :
    (s.withInputs is).codeRegion r = (s.codeRegion r).withInputs is := by
  rw [State.codeRegion, setBits_withInputs]
  rfl

theorem pathListAt_withInputs (s : State) (k p : Nat) : (s.withInputs is).pathListAt k p = s.pathListAt k p := by
  induction k generalizing p with
  | zero => rfl
  | succ k ih => simp only [State.pathListAt, ih]; rfl

theorem execInsPaths_withInputs (a : BitVec 16) (k : BitVec 4) (hx : execInsPaths a k s = .next t) :
    execInsPaths a k (s.withInputs is) = .next (t.withInputs is) := by
  cases hx
  unfold execInsPaths
  rw [pathListAt_withInputs]
  cases s.pathListAt k.toNat a.toNat with
  | none => simp only [withInputs_ite]; rfl
  | some Q => simp only [Option.map_some, Option.getD_some, State.checkPaths, withInputs_ite]; rfl

theorem acceptBody_withInputs (s : State) : (s.withInputs is).acceptBody = s.acceptBody.withInputs is := by
  have hparse : (s.withInputs is).parse = s.parse := rfl
  unfold State.acceptBody
  rw [hparse]
  cases s.parse with
  | noControl => rfl
  | noFlag => rfl
  | found c e => simp only [withInputs_ite]; rfl

theorem execValidate_withInputs (hx : execValidate s = .next t) :
    execValidate (s.withInputs is) = .next (t.withInputs is) := by
  have hflag : (s.withInputs is).findEndFlag = s.findEndFlag := rfl
  cases hx
  unfold execValidate
  rw [hflag]
  cases s.findEndFlag with
  | none => simp only [withInputs_ite]; rfl
  | some p =>
    simp only [Option.map_some, Option.getD_some, State.validateBody, withInputs_ite, ← acceptBody_withInputs]
    rfl

theorem stripFrom_withInputs (s : State) (fuel r : Nat) : (s.withInputs is).stripFrom fuel r = s.stripFrom fuel r := by
  induction fuel generalizing r with
  | zero => rfl
  | succ fuel ih => simp only [State.stripFrom, ih]; rfl

theorem execSyncStrip_withInputs (hx : execSyncStrip s = .next t) :
    execSyncStrip (s.withInputs is) = .next (t.withInputs is) := by
  have hstrip : (s.withInputs is).stripLength = s.stripLength := stripFrom_withInputs is s _ 0
  cases hx
  unfold execSyncStrip State.dropBytes
  rw [hstrip]
  split <;> rfl

/-- A command does the same whatever steps are still to come, and leaves them alone. -/
theorem exec_withInputs {i : Instr} (hx : exec i s = .next t) :
    exec i (s.withInputs is) = .next (t.withInputs is) := by
  cases i with
  | nrziEnc start => cases hx; rw [withInputs_ite, ← codeRegion_withInputs]; rfl
  | nrziDec start => cases hx; rw [withInputs_ite, ← codeRegion_withInputs]; rfl
  | fbClear => cases hx; rfl
  | insPaths a k => exact execInsPaths_withInputs is a k hx
  | parseOffsets =>
    cases hx
    have hparse : (s.withInputs is).parse = s.parse := rfl
    simp only [exec, execParseOffsets, hparse]
    cases s.parse <;> rfl
  | validate => exact execValidate_withInputs is hx
  | syncStrip => exact execSyncStrip_withInputs is hx
  | _ => cases hx; simp only [withInputs_ite]; rfl

/-! ### The steps of the agents -/

theorem writeReg_withInputs {r : Reg} {w : Word} (h : s.writeReg r w = .next t) :
    (s.withInputs is).writeReg r w = .next (t.withInputs is) := by
  cases r with
  | cmd =>
    simp only [State.writeReg, State.issue] at h ⊢
    split at h
    next i hw => exact exec_withInputs is h
    next => cases h; rfl
  | _ => cases h; rfl

theorem writeValue_withInputs {off : BitVec 14} {v : Word} (h : s.writeValue off v = .next t) :
    (s.withInputs is).writeValue off v = .next (t.withInputs is) := by
  unfold State.writeValue at h ⊢
  split at h
  next o _ =>
    cases hr : regAt o with
    | none => rw [hr] at h; cases h; rfl
    | some r => rw [hr] at h; exact writeReg_withInputs is h
  next => cases h; rw [withInputs_ite]; rfl
  next => cases h; rw [withInputs_ite]; rfl
  next => cases h; rfl

theorem readValue_withInputs (s : State) (off : BitVec 14) : (s.withInputs is).readValue off = s.readValue off := by
  have hreg : (s.withInputs is).readReg = s.readReg := funext fun r => by cases r <;> rfl
  unfold State.readValue
  rw [hreg]
  rfl

/-- An input that has a step has the same effect whatever steps come after it. -/
theorem perform_withInputs {e : Input} (h : s.perform e = .next t) :
    (s.withInputs is).perform e = .next (t.withInputs is) := by
  cases e with
  | hostRead off n =>
    simp only [State.perform, State.hostRead] at h ⊢
    split at h
    next ha => cases h; rw [if_pos ha, readValue_withInputs]; rfl
    next => cases h
  | hostWrite off n v =>
    simp only [State.perform, State.hostWrite] at h ⊢
    split at h
    next ha => rw [if_pos ha]; exact writeValue_withInputs is h
    next => cases h
  | lineBit b => cases h; rw [State.lineBit, withInputs_ite]; rfl
  | rst => cases h; rfl

end

/-! ### Runs (70_reset_and_hazards.md rule R300) -/

/-- Performing steps that are no refused accesses ends in a state, and whatever follows them is left for later. -/
theorem exists_run_withInputs {part : List Input} (s : State) (h : ∀ e ∈ part, e.hasStep = true) :
    ∃ t : State, ∀ is, State.run part.length (s.withInputs (part ++ is)) = .next (t.withInputs is) := by
  induction part generalizing s with
  | nil => exact ⟨s, fun is => rfl⟩
  | cons e part ih =>
    obtain ⟨he, hpart⟩ := List.forall_mem_cons.mp h
    obtain ⟨u, hu⟩ := exists_perform_of_hasStep s he
    obtain ⟨t, ht⟩ := ih u hpart
    refine ⟨t, fun is => ?_⟩
    have hstep : step (s.withInputs (e :: part ++ is)) = .next (u.withInputs (part ++ is)) :=
      (step_cons (s := s.withInputs (e :: part ++ is)) rfl).trans (perform_withInputs (s := s) (part ++ is) hu)
    rw [List.length_cons, State.run, hstep]
    exact ht is

theorem byHost_lineBits (bs : Bits) : ∀ e ∈ bs.map Input.lineBit, e.byHost = false := by
  intro e he
  obtain ⟨b, -, rfl⟩ := List.mem_map.mp he
  rfl

/-- A run that is not empty ends with a Host access. -/
theorem byHost_getLast_take_hostEnd {is : List Input} (h : 0 < hostEnd is) :
    ∃ e, (is.take (hostEnd is)).getLast? = some e ∧ e.byHost = true := by
  induction is with
  | nil => exact absurd h (Nat.lt_irrefl 0)
  | cons e is ih =>
    rw [hostEnd] at h ⊢
    split at h
    next hc =>
      rw [if_pos hc, List.take_succ_cons]
      obtain h0 | hpos := Nat.eq_zero_or_pos (hostEnd is)
      · rw [h0, List.take_zero]
        exact ⟨e, rfl, by simpa [h0] using hc⟩
      · obtain ⟨x, hx, hhost⟩ := ih hpos
        exact ⟨x, by rw [List.getLast?_cons, hx]; rfl, hhost⟩
    next => exact absurd h (Nat.lt_irrefl 0)

/-- Settles O17: a run performs the steps up to the Host's last one and leaves the later ones, whichever they are. -/
theorem safeRunReachesItsEnd : Obligations.SafeRunReachesItsEnd := by
  intro s hsafe
  have hstep : ∀ e ∈ s.inputs, e.hasStep = true := List.all_eq_true.mp hsafe
  constructor
  · obtain ⟨t, hrun⟩ := exists_run_withInputs s hstep
    exact ⟨t.withInputs [], by simpa using hrun [], rfl⟩
  · obtain ⟨t, hrun⟩ := exists_run_withInputs s fun e he => hstep e (List.mem_of_mem_take (i := hostEnd s.inputs) he)
    rw [List.length_take_of_le (hostEnd_le s.inputs)] at hrun
    have hsplit := List.take_append_drop (hostEnd s.inputs) s.inputs
    refine ⟨t.withInputs (s.inputs.drop (hostEnd s.inputs)), ?_, ⟨_, hsplit.symm, byHost_drop_hostEnd s.inputs, ?_⟩,
      fun bs => ?_⟩
    · rw [State.runProgram, ← hrun, hsplit, withInputs_self]
    · exact (Nat.eq_zero_or_pos _).imp (fun h0 => by rw [h0, List.take_zero]) byHost_getLast_take_hostEnd
    · have hlater := hrun (s.inputs.drop (hostEnd s.inputs) ++ bs.map .lineBit)
      rw [← List.append_assoc, hsplit] at hlater
      rw [State.runProgram, hostEnd_append (byHost_lineBits bs)]
      exact hlater

end Sys2Proof.Machine
end

section
/-! SUPPORT. The state after reset (70_reset_and_hazards.md rule R290): the step of `rst`, and the empty built frame. -/

namespace Sys2Proof.Machine

/-- A step on `rst` leaves the reset state of the next count of resets, with the later inputs still to come. -/
theorem step_rst {s : State} {rest : List Input} (h : s.inputs = .rst :: rest) :
    step s = .next (State.afterReset s.cfg (s.resets + 1) rest) := by
  rw [step_cons h, perform_rst, assertReset_eq]

/-- The frame is EMPTY after reset, so only the row EMPTY of 10_state.md rule R45 says something of it. -/
theorem built_afterReset (c : Config) (n : Nat) (is : List Input) : (State.afterReset c n is).Built where
  empty _ := rfl
  hasDest := nofun
  hasSrc := nofun
  complete := nofun

/-- Settles O15: a step on `rst` leaves the reset state, whose fields are the rows of the table. -/
theorem resetValues : Obligations.ResetValues := by
  intro s rest hrst
  refine ⟨State.afterReset s.cfg (s.resets + 1) rest, step_rst hrst, ?_⟩
  simp [State.afterReset]

/-- Settles O58: power-on reset is one of the reset states, and each has the invariant and is an empty built frame. -/
theorem resetHasInv : Obligations.ResetHasInv :=
  ⟨inv_afterReset _ _ _, built_afterReset _ _ _⟩

end Sys2Proof.Machine
end
